-- ==== Sys2Proof/Word.lean ====
section
/-! DEFINITION. The two word types of HZCORE. -/

namespace Sys2Proof

/-- A host register value or a command word: 64 bits (00_scope.md R5 "host register width", 10_state.md R15). -/
abbrev Word := BitVec 64

/-- One byte of a stream (20_memory.md R41), numbered as 00_scope.md R7 numbers it. -/
abbrev Byte := BitVec 8

end Sys2Proof
end

