-- ==== Sys2Proof/Config.lean ====
section
/-! DEFINITION. The implementation parameters of 00_scope.md R5 and the free values: constants with no body,
of which nothing can be proved but their type. -/

namespace Sys2Proof.Config

/-- `CANDIDATES` (R5): the first symbol width COMPRESS tries. -/
abbrev candFirst : Nat := 2

/-- `CANDIDATES` (R5): the last symbol width COMPRESS tries; a legal container width byte is in
`candFirst..candLast` too. -/
abbrev candLast : Nat := 8

/-- `HDR_BYTES` (R5): 1 + 8 + 8. -/
abbrev hdrBytes : Nat := 17

/-- `ENTRY_BYTES` (R5): 4 + 8 + 8. -/
abbrev entryBytes : Nat := 20

/-- `MAX_CODE_LEN` (R5). -/
abbrev maxCodeLen : Nat := 64

/-- `DICT_CAP` (R5). -/
abbrev dictCap : Nat := 256

/-- `INPUT_CAP` (R5, 92_eei_decisions.md D6): OPEN, a natural number with 0 ≤ INPUT_CAP ≤ 2^48. A free constant
of the instance (assumption log 1). -/
opaque inputCap : Fin (2 ^ 48 + 1)

/-- The unspecified 64-bit value of a result register read while BUSY (10_state.md R27): a fresh one a read,
the argument being the model's counter `State.freeCtr` (assumption log 3). -/
opaque freeWord : Nat → Word

/-- The input stream of a COMPRESS or DECOMPRESS that is accepted when the host has attached none since the last
one: some finite byte sequence (20_memory.md R46), which the spec does not name (assumption log 5). -/
opaque freeStream : Nat → List Byte

end Sys2Proof.Config
end

