-- ==== Sys2Proof/Syntax.lean ====
section
/-! DEFINITION. The command words of HZCORE: one constructor per row of spec/opcode_table.json. -/

namespace Sys2Proof

/-- A command (30_encoding.md R61, R62). No command has a register, immediate or mode operand (R60): its operands
are the attached streams. -/
inductive Instr where
  /-- NOP, word 0 (R61, 44_compressor.md R132). -/
  | nop
  /-- COMPRESS, word 1 (R61, 44_compressor.md R138). -/
  | compress
  /-- DECOMPRESS, word 2 (R61, 44_compressor.md R140). -/
  | decompress
  /-- CLEAR, word 3 (R61, 44_compressor.md R141). -/
  | clear
  /-- ILLEGAL: the written word, which is none of the four above (R62, 44_compressor.md R142). -/
  | illegal (word : Word)
deriving DecidableEq, Repr

end Sys2Proof
end

