-- ==== Sys2Proof/WellFormed.lean ====
section
/-! DEFINITION. When a term of `Instr` stands for a command word. -/

namespace Sys2Proof

/-- A legal word (30_encoding.md R60): RSV[63:8] = 0 and OPC[7:0] one of the four values of R61, that is a
value below 4. -/
def legalWord (w : Word) : Bool :=
  w.extractLsb' 8 56 == 0 && decide ((w.extractLsb' 0 8).toNat < 4)

/-- The one check an `Instr` can fail: `illegal` must carry an illegal word (30_encoding.md R62). -/
def Instr.wellFormed : Instr → Bool
  | .nop => true
  | .compress => true
  | .decompress => true
  | .clear => true
  | .illegal w => !legalWord w

end Sys2Proof
end

