-- ==== Sys2Proof/Decode.lean ====
section
/-! DEFINITION. The command word decoder and encoder (30_encoding.md R59 to R63). -/

namespace Sys2Proof

/-- One row of the table of 30_encoding.md R61: `word &&& mask = pattern` selects `instr`. -/
structure OpcodeRow where
  mask : Word
  pattern : Word
  instr : Instr
deriving DecidableEq, Repr

/-- The legal rows of 30_encoding.md R61. "The full match is on the whole 64-bit word". -/
def opcodeTable : List OpcodeRow :=
  [ ⟨0xFFFFFFFFFFFFFFFF#64, 0x0000000000000000#64, .nop⟩,
    ⟨0xFFFFFFFFFFFFFFFF#64, 0x0000000000000001#64, .compress⟩,
    ⟨0xFFFFFFFFFFFFFFFF#64, 0x0000000000000002#64, .decompress⟩,
    ⟨0xFFFFFFFFFFFFFFFF#64, 0x0000000000000003#64, .clear⟩ ]

/-- The row a word selects. -/
def opcodeRow? (w : Word) : Option OpcodeRow :=
  opcodeTable.find? fun r => w &&& r.mask == r.pattern

/-- The command a 64-bit word stands for: total, since every word that is not legal is ILLEGAL
(30_encoding.md R62). -/
def decode (w : Word) : Instr :=
  match opcodeRow? w with
  | some r => r.instr
  | none => .illegal w

/-- Why a write to CMD carries no command word. -/
inductive DecodeError where
  /-- The access is not 64 bits wide; the command word has one length, 64 bits (30_encoding.md R60, 20_memory.md R42). -/
  | wrongWidth (bits : Nat)
deriving DecidableEq, Repr

/-- The decoder over a raw access of `bits` bits and value `v`, rejecting by name every width but 64. A register
value is one 64-bit number and has no byte order (20_memory.md R43). -/
def decodeAccess (bits v : Nat) : Except DecodeError Instr :=
  if bits = 64 then .ok (decode (BitVec.ofNat 64 v)) else .error (.wrongWidth bits)

/-- The command word of a command (30_encoding.md R61; an illegal word is its own encoding). -/
def encode : Instr → Word
  | .nop => 0x0000000000000000#64
  | .compress => 0x0000000000000001#64
  | .decompress => 0x0000000000000002#64
  | .clear => 0x0000000000000003#64
  | .illegal w => w

/-- The 64-bit access that a table row of `nbits` bits and value `w` stands for: every bit above `nbits` is 0. -/
def tableWord (nbits w : Nat) : Word :=
  BitVec.ofNat 64 (w % 2 ^ nbits)

/-- The host's question about a row of spec/opcode_table.json: the decoder's answer for a word of `nbits` bits,
laid out in one 64-bit access. A row of more bits than the one format has is no word of HZCORE. -/
def decodeTableWord (nbits w : Nat) : Option Instr :=
  if nbits ≤ 64 then (decodeAccess 64 (tableWord nbits w).toNat).toOption else none

end Sys2Proof
end

