-- ==== Sys2Proof/Machine/State.lean ====
section
/-! DEFINITION. The state of HZCORE: every element of spec/10_state.md, the streams of spec/20_memory.md and the host's
agenda, as plain data; why a step may stop; the state after reset. -/

namespace Sys2Proof.Machine

/-- STATUS.STATE (10_state.md R18, R19). -/
inductive RunState where
  /-- 0: no command has run since reset or CLEAR. -/
  | idle
  /-- 1: a COMPRESS or DECOMPRESS is executing. -/
  | busy
  /-- 2: the last command ended without a fault. -/
  | done
  /-- 3: the last command, or an illegal command word, ended in a fault. -/
  | fault
deriving DecidableEq, Repr, Inhabited

/-- STATUS.CAUSE (60_exceptions.md R147); codes 6 to 255 are never reported. -/
inductive Cause where
  /-- 0: no fault. -/
  | noFault
  /-- 1: DECOMPRESS, a truncated or structurally invalid container. -/
  | malformedContainer
  /-- 2: DECOMPRESS, payload bits that match no dictionary key within Lmax bits. -/
  | unknownCode
  /-- 3: an illegal command word in IDLE or DONE. -/
  | illegalCommand
  /-- 4: COMPRESS, an input longer than INPUT_CAP. -/
  | capacityExceeded
  /-- 5: COMPRESS, a winning code longer than 64 bits. -/
  | codeTooLong
deriving DecidableEq, Repr, Inhabited

/-- STATUS.DETAIL (60_exceptions.md R148): the sub-cause of a MalformedContainer, 0 for every other cause. -/
inductive Detail where
  /-- 0. -/
  | noDetail
  /-- 1: the stream ends within bytes 0..16. -/
  | truncHeader
  /-- 2: the stream ends within the N × 20 entry bytes. -/
  | truncDict
  /-- 3: the stream ends before L bytes are decoded. -/
  | truncPayload
  /-- 4: width byte not in 2..8. -/
  | badWidth
  /-- 5: an entry with len = 0, len > 64 or code ≥ 2^len. -/
  | badEntry
  /-- 6: two entries with the same (len, code). -/
  | dupKey
  /-- 7: N > 256. -/
  | dictTooLarge
deriving DecidableEq, Repr, Inhabited

/-- The sequencer phase (10_state.md R16). -/
inductive Phase where
  | idle
  | cRead
  | cAnalyse (w : Nat)
  | cSelect
  | cEmit
  | dHeader
  | dDict (i : Nat)
  | dPayload
deriving DecidableEq, Repr, Inhabited

/-- A node of the Huffman tree (10_state.md R31): a leaf holds (symbol, frequency), an internal node (frequency, left
child, right child) "and no symbol". -/
inductive HuffTree where
  | leaf (sym freq : Nat)
  | node (freq : Nat) (left right : HuffTree)
deriving DecidableEq, Repr, Inhabited

/-- A dictionary entry (len, code, sym): of the encoder's dictionary and code table (10_state.md R32, 42_tree.md R104)
and of the decoder's store (10_state.md R35). -/
structure Entry where
  len : Nat
  code : Nat
  sym : Nat
deriving DecidableEq, Repr, Inhabited

/-- The internal state of the engine (10_state.md R29 to R38), none of it host-visible. -/
structure Engine where
  /-- IBUF[0..n), n being the list's length (R29; assumption log 10). -/
  ibuf : List Byte := []
  /-- FREQ (R30): the distinct symbols, ascending, each with its nonzero count (assumption log 11). -/
  freq : List (Nat × Nat) := []
  /-- The node store and the work list WL (R31): a reference is the tree it refers to (assumption log 11). -/
  wl : List HuffTree := []
  /-- CLEN and CVAL of the candidate, in the order of the dictionary D (R32, 42_tree.md R104). -/
  table : List Entry := []
  /-- BEST_W (R33). -/
  bestW : Nat := 0
  /-- BEST_EST (R33). -/
  bestEst : Nat := 0
  /-- The dictionary and code table of the winning candidate so far (R33; assumption log 12). -/
  bestTable : List Entry := []
  /-- serialize's header and dictionary bytes not yet written (43_codec.md R109; assumption log 16). -/
  pendBytes : List Byte := []
  /-- serialize's symbols not yet encoded (43_codec.md R112; assumption log 16). -/
  pendSyms : List Nat := []
  /-- The bits not yet pushed of the code being emitted (00_scope.md R10 `emit_bits`) or of the symbol being
  emitted (43_codec.md R127; assumption log 16). -/
  pendBits : List Bool := []
  /-- ACC (R34). -/
  acc : Byte := 0
  /-- FILL (R34). -/
  fill : Nat := 0
  /-- The bytes of the container header or entry being read, so far (43_codec.md `readField`; assumption log 16). -/
  recv : List Byte := []
  /-- DICT (R35), in the order the entries were read. -/
  dict : List Entry := []
  /-- Lmax (R35). -/
  lmax : Nat := 0
  /-- PBYTE (R36). -/
  pbyte : Byte := 0
  /-- PLEFT (R36). -/
  pleft : Nat := 0
  /-- KLEN (R37). -/
  klen : Nat := 0
  /-- KVAL (R37). -/
  kval : Nat := 0
  /-- OACC (R38). -/
  oacc : Byte := 0
  /-- OFILL (R38). -/
  ofill : Nat := 0
  /-- EMITTED (R38). -/
  emitted : Nat := 0
deriving DecidableEq, Repr, Inhabited

/-- n (10_state.md R29): the count of bytes IBUF holds. -/
def Engine.n (e : Engine) : Nat := e.ibuf.length

/-- What the host does next, or lets the engine do: the statements of the host notation (30_encoding.md R64, R65)
as bus and pin operations, and the interleaving of host and engine (assumption log 6). -/
inductive Event where
  /-- Assert and release the reset input (`reset`, 70_reset_and_hazards.md R166). -/
  | reset
  /-- Attach a finite input stream, and a fresh output stream, for the next command (`in [...]`). -/
  | attach (bytes : List Byte)
  /-- A register write of `bits` bits at `offset` (`cmd` is a 64-bit write at offset 0x00). -/
  | write (bits offset : Nat) (value : Word)
  /-- A register read of `bits` bits at `offset` (`rd`). -/
  | read (bits offset : Nat)
  /-- Read STATUS until STATE is not BUSY (`wait`, 30_encoding.md R65). -/
  | wait
  /-- The host does nothing; the engine takes its next step. -/
  | engine
deriving DecidableEq, Repr, Inhabited

/-- The state of HZCORE, its two streams and the host's agenda. -/
structure State where
  /-- STATUS.STATE (R18, R19). -/
  state : RunState
  /-- STATUS.CAUSE (R18). -/
  cause : Cause
  /-- STATUS.DETAIL (R18). -/
  detail : Detail
  /-- WIDTH[7:0] (R20). -/
  width : Byte
  /-- ORIG_LEN (R21). -/
  origLen : Word
  /-- DICT_COUNT (R22). -/
  dictCount : Word
  /-- IN_COUNT (R23). -/
  inCount : Word
  /-- OUT_COUNT (R24). -/
  outCount : Word
  /-- INPUT_CAP (R25). -/
  inputCap : Fin (2 ^ 48 + 1)
  /-- The sequencer phase (R16). -/
  phase : Phase
  /-- The engine's internal state (R29 to R38). -/
  eng : Engine
  /-- The unread rest of the current or last command's input stream (20_memory.md R46). -/
  input : List Byte
  /-- The bytes the current or last command has written (20_memory.md R47). -/
  output : List Byte
  /-- The input stream the host has attached for the next command (20_memory.md R48). -/
  attached : Option (List Byte)
  /-- MODEL: what host and engine do next, first to last; when it is empty only the engine moves. -/
  agenda : List Event
  /-- MODEL: the word the last register read returned. -/
  rdata : Option Word
  /-- MODEL: how many free values have been drawn. -/
  freeCtr : Nat
deriving DecidableEq, Repr

/-- HZCORE has no condition in which the machine itself stops: what the spec calls a fault is a state
(STATE = FAULT, 60_exceptions.md R150, R152) that the next command or reset leaves. So no step raises one. -/
inductive Fault : Type
deriving DecidableEq, Repr

/-- Why a step may be refused. -/
inductive Refusal where
  /-- Raised by an arm of `exec` that has no meaning yet. Safe. No arm of this model raises it. -/
  | notModelled (mnemonic : String)
  /-- Raised by a register access that is not 64 bits wide (20_memory.md R42 "outside the host contract: this spec
  gives it no effect and a model refuses it"). Safe. -/
  | accessWidth (bits : Nat)
  /-- Raised by a register access at an offset that is not a multiple of 8 in 0x00..0x38 (20_memory.md R42). Safe. -/
  | accessOffset (offset : Nat)
  /-- Raised by attaching a stream while STATE = BUSY (93_implementation_defined.md U7, 70_reset_and_hazards.md R170).
  Safe. -/
  | streamChangedWhileBusy
deriving DecidableEq, Repr

end Sys2Proof.Machine

namespace Sys2Proof

/-- The internal state a reset event leaves: unspecified (10_state.md R40, 70_reset_and_hazards.md R166), a free value
(assumption log 4). -/
opaque Config.freeEngine : Nat → Machine.Engine

end Sys2Proof

namespace Sys2Proof.Machine

/-- The machine right after reset (10_state.md R40). The internal state, which R40 leaves unspecified, is empty and
zero here (DESIGN CHOICE, assumption log 4); no stream is attached and the host has nothing to do yet (assumption
log 5, 17). -/
def State.reset : State where
  state := .idle
  cause := .noFault
  detail := .noDetail
  width := 0
  origLen := 0
  dictCount := 0
  inCount := 0
  outCount := 0
  inputCap := Config.inputCap
  phase := .idle
  eng := {}
  input := []
  output := []
  attached := none
  agenda := []
  rdata := none
  freeCtr := 0

end Sys2Proof.Machine
end

