-- ==== Sys2Proof/Machine/Bits.lean ====
section
/-! DEFINITION. The value and sequence notation of 00_scope.md R7 to R9: bit strings and big-endian byte fields. -/

namespace Sys2Proof.Machine

/-- `bitstring(v, k)` (R8): the k bits of v, MSB-first. -/
def bitstring (v : Nat) : Nat → List Bool
  | 0 => []
  | k + 1 => v.testBit k :: bitstring v k

/-- `val(bs)` (R8): the inverse of `bitstring`. -/
def val (bs : List Bool) : Nat := bs.foldl (fun a b => 2 * a + b.toNat) 0

/-- `be_k(v)` (R9): the k bytes of v, most significant first. -/
def be (v : Nat) : Nat → List Byte
  | 0 => []
  | k + 1 => BitVec.ofNat 8 (v / 256 ^ k) :: be v k

/-- `from_be(bs)` (R9): the inverse of `be`. It is the loop `v <- 256 × v + b` of 43_codec.md `readField`. -/
def fromBe (bs : List Byte) : Nat := bs.foldl (fun v b => 256 * v + b.toNat) 0

/-- `s[i..j)` (R8). -/
def slice {α : Type} (bs : List α) (i j : Nat) : List α := (bs.take j).drop i

/-- `bits(B)` (41_frequency.md R89): the input bitstream, MSB-first per byte. -/
def bitsOf (bs : List Byte) : List Bool := bs.flatMap fun b => bitstring b.toNat 8

/-- `ceil(a / b)` (R8), for b > 0. -/
def ceilDiv (a b : Nat) : Nat := (a + b - 1) / b

/-- Shift one bit into an 8-bit accumulator: `(ACC << 1 | bit)[7:0]` (40_bitcursor.md R81, R87). -/
def shiftIn (acc : Byte) (bit : Bool) : Byte := (acc <<< 1) ||| BitVec.ofNat 8 bit.toNat

end Sys2Proof.Machine
end

