-- ==== Sys2Proof/Machine/Flags.lean ====
section
/-! DEFINITION. The STATUS word: the only flag-like state of HZCORE (10_state.md R18, R19). -/

namespace Sys2Proof.Machine

/-- The number of a STATE (10_state.md R19). -/
def RunState.code : RunState → Nat
  | .idle => 0
  | .busy => 1
  | .done => 2
  | .fault => 3

/-- The number of a CAUSE (60_exceptions.md R147). -/
def Cause.code : Cause → Nat
  | .noFault => 0
  | .malformedContainer => 1
  | .unknownCode => 2
  | .illegalCommand => 3
  | .capacityExceeded => 4
  | .codeTooLong => 5

/-- The number of a DETAIL (60_exceptions.md R148). -/
def Detail.code : Detail → Nat
  | .noDetail => 0
  | .truncHeader => 1
  | .truncDict => 2
  | .truncPayload => 3
  | .badWidth => 4
  | .badEntry => 5
  | .dupKey => 6
  | .dictTooLarge => 7

/-- A STATUS word: STATE in bits [1:0], CAUSE in [15:8], DETAIL in [23:16], every other bit 0 (10_state.md R18). -/
def statusWord (st : RunState) (c : Cause) (d : Detail) : Word :=
  BitVec.ofNat 64 (d.code * 2 ^ 16 + c.code * 2 ^ 8 + st.code)

/-- What a read of STATUS returns; while BUSY "STATE = 1, CAUSE = 0, DETAIL = 0 exactly" (10_state.md R27). -/
def State.status (s : State) : Word :=
  match s.state with
  | .busy => statusWord .busy .noFault .noDetail
  | st => statusWord st s.cause s.detail

/-- A working command starts in IDLE or DONE and is ignored in BUSY and FAULT; an illegal word is treated alike
(44_compressor.md R131). -/
def RunState.accepts : RunState → Bool
  | .idle => true
  | .busy => false
  | .done => true
  | .fault => false

/-- CLEAR acts in every STATE but BUSY (44_compressor.md R131, R141). -/
def RunState.acceptsClear : RunState → Bool
  | .idle => true
  | .busy => false
  | .done => true
  | .fault => true

end Sys2Proof.Machine
end

