-- ==== Sys2Proof/Machine/Operands.lean ====
section
/-! DEFINITION. The operands of a command: its input stream and its output stream, reached through the two ports
(20_memory.md R41, R44 to R48). -/

namespace Sys2Proof.Machine

/-- `(b, ok) <- InRead()` (20_memory.md R44 to R46): with a byte left it delivers it and consumes it; at the end of
the stream it delivers none (ok = false) and changes nothing. The byte of an ok = false answer is never used, so it has
no representation (assumption log 9). -/
def State.inRead (s : State) : Option (Byte × State) :=
  match s.input with
  | [] => none
  | b :: rest => some (b, { s with input := rest })

/-- `OutWrite(b)` (20_memory.md R47): appends one byte to the command's output stream; it always completes. -/
def State.outWrite (b : Byte) (s : State) : State := { s with output := s.output ++ [b] }

/-- The input stream a command takes when it is accepted: the attached one; a free finite stream when the host has
attached none (20_memory.md R46, R48; assumption log 5). -/
def State.nextStream (s : State) : List Byte :=
  match s.attached with
  | some bs => bs
  | none => Config.freeStream s.freeCtr

/-- A command takes ownership of its two streams at the CMD write (20_memory.md R48, 70_reset_and_hazards.md R170): the
input stream from its start, and a fresh, empty output stream (assumption log 13). A free stream counts as drawn. -/
def State.takeStreams (s : State) : State :=
  { s with
    input := s.nextStream
    output := []
    attached := none
    freeCtr := if s.attached.isSome then s.freeCtr else s.freeCtr + 1 }

/-- Attach an input stream for the next command, in place of one attached before (30_encoding.md R64 `in`). The
fresh output stream comes with the command's acceptance (`takeStreams`). -/
def State.attach (bs : List Byte) (s : State) : State := { s with attached := some bs }

end Sys2Proof.Machine
end

