-- ==== Sys2Proof/Machine/Ops.lean ====
section
/-! DEFINITION. The named operations over the registers: fault entry and its return, the end of a command, the
counters, the result registers, the register map, the reset input. -/

namespace Sys2Proof.Machine

/-- `phase <- p` (00_scope.md R10). -/
def State.setPhase (p : Phase) (s : State) : State := { s with phase := p }

/-- Write the three fields of STATUS (10_state.md R18). -/
def State.setStatus (st : RunState) (c : Cause) (d : Detail) (s : State) : State :=
  { s with state := st, cause := c, detail := d }

/-- WIDTH <- w (10_state.md R20). -/
def State.setWidth (w : Byte) (s : State) : State := { s with width := w }

/-- ORIG_LEN <- v (10_state.md R21). -/
def State.setOrigLen (v : Nat) (s : State) : State := { s with origLen := BitVec.ofNat 64 v }

/-- DICT_COUNT <- v (10_state.md R22). -/
def State.setDictCount (v : Nat) (s : State) : State := { s with dictCount := BitVec.ofNat 64 v }

/-- IN_COUNT <- IN_COUNT + 1 (10_state.md R23), a 64-bit register (assumption log 18). -/
def State.countIn (s : State) : State := { s with inCount := s.inCount + 1 }

/-- OUT_COUNT <- OUT_COUNT + 1 (10_state.md R24). -/
def State.countOut (s : State) : State := { s with outCount := s.outCount + 1 }

/-- Write the engine's internal state. -/
def State.setEng (e : Engine) (s : State) : State := { s with eng := e }

/-- `OutWrite(b); OUT_COUNT <- OUT_COUNT + 1`: the two stand together wherever the rules write a byte
(40_bitcursor.md R81, R83, R87, 43_codec.md R109). -/
def State.emitByte (b : Byte) (s : State) : State := (s.outWrite b).countOut

/-- The five result registers to 0 (10_state.md R28). -/
def State.clearResults (s : State) : State :=
  { s with width := 0, origLen := 0, dictCount := 0, inCount := 0, outCount := 0 }

/-- `raise Fault(cause, detail)` (60_exceptions.md R150): "STATUS.CAUSE <- cause; STATUS.DETAIL <- detail;
STATUS.STATE <- FAULT (3); phase <- Idle" "and nothing else". -/
def State.raiseFault (c : Cause) (d : Detail) (s : State) : State :=
  (s.setStatus .fault c d).setPhase .idle

/-- The return from a fault, and all that CLEAR does (44_compressor.md R141, 60_exceptions.md R154): "STATE <- IDLE;
CAUSE <- 0; DETAIL <- 0". -/
def State.clearStatus (s : State) : State := s.setStatus .idle .noFault .noDetail

/-- The end of a command without a fault: "STATE <- DONE; phase <- Idle" (44_compressor.md R137, R140). -/
def State.finish (s : State) : State := { s with state := .done, phase := .idle }

/-- What the start of either working command does (44_compressor.md R133, R139), `p` being its first phase. -/
def State.startCommand (p : Phase) (s : State) : State :=
  ((s.takeStreams.setStatus .busy .noFault .noDetail).clearResults).setPhase p

/-- The registers of 10_state.md R15. -/
inductive Reg where
  | cmd
  | status
  | width
  | origLen
  | dictCount
  | inCount
  | outCount
  | inputCap
deriving DecidableEq, Repr

/-- The offset of a register (10_state.md R15). -/
def Reg.offset : Reg → Nat
  | .cmd => 0x00
  | .status => 0x08
  | .width => 0x10
  | .origLen => 0x18
  | .dictCount => 0x20
  | .inCount => 0x28
  | .outCount => 0x30
  | .inputCap => 0x38

/-- The register at an offset; none where the offset is not a multiple of 8 in 0x00..0x38 (20_memory.md R42). -/
def regAt : Nat → Option Reg
  | 0x00 => some .cmd
  | 0x08 => some .status
  | 0x10 => some .width
  | 0x18 => some .origLen
  | 0x20 => some .dictCount
  | 0x28 => some .inCount
  | 0x30 => some .outCount
  | 0x38 => some .inputCap
  | _ => none

/-- The five registers whose value is unspecified while BUSY (10_state.md R27). -/
def Reg.isResult : Reg → Bool
  | .cmd => false
  | .status => false
  | .width => true
  | .origLen => true
  | .dictCount => true
  | .inCount => true
  | .outCount => true
  | .inputCap => false

/-- What a register holds (10_state.md R17 to R25): CMD reads 0, WIDTH's bits [63:8] read 0. -/
def State.regValue (s : State) : Reg → Word
  | .cmd => 0
  | .status => s.status
  | .width => s.width.setWidth 64
  | .origLen => s.origLen
  | .dictCount => s.dictCount
  | .inCount => s.inCount
  | .outCount => s.outCount
  | .inputCap => BitVec.ofNat 64 s.inputCap.val

/-- A register read (10_state.md R27): a result register read while BUSY returns a fresh free value (assumption log 3);
every other read returns what the register holds. A read changes nothing else (20_memory.md R52). -/
def State.readReg (r : Reg) (s : State) : State :=
  if s.state = .busy ∧ r.isResult = true then
    { s with rdata := some (Config.freeWord s.freeCtr), freeCtr := s.freeCtr + 1 }
  else
    { s with rdata := some (s.regValue r) }

/-- The reset input asserted and released (70_reset_and_hazards.md R166, R167): the elements of 10_state.md R40 at
their values, the internal state a free value (assumption log 4), INPUT_CAP unchanged; the streams keep what was
consumed and written. -/
def State.resetInput (s : State) : State :=
  { ((s.setStatus .idle .noFault .noDetail).clearResults.setPhase .idle) with
    eng := Config.freeEngine s.freeCtr
    freeCtr := s.freeCtr + 1 }

end Sys2Proof.Machine
end

