-- ==== Sys2Proof/Machine/BitCursor.lean ====
section
/-! DEFINITION. BitCursor: the bit packer, the bit unpacker and the decoder's output accumulator (40_bitcursor.md). -/

namespace Sys2Proof.Machine

/-- `pushBit(bit)` (R81, R82). -/
def State.pushBit (bit : Bool) (s : State) : State :=
  let acc := shiftIn s.eng.acc bit
  if s.eng.fill + 1 = 8 then
    (s.emitByte acc).setEng { s.eng with acc := 0, fill := 0 }
  else
    s.setEng { s.eng with acc := acc, fill := s.eng.fill + 1 }

/-- `flush()` (R83): "left-shifts the remaining bits to fill the byte with zero padding and emits it". -/
def State.flush (s : State) : State :=
  if 0 < s.eng.fill then
    (s.emitByte (s.eng.acc <<< (8 - s.eng.fill))).setEng { s.eng with acc := 0, fill := 0 }
  else
    s

/-- `nextBit()` (R85, R86): reads a payload byte only when no bit of the current one remains. `none` where the
stream is exhausted. -/
def State.nextBit (s : State) : Option (Bool × State) :=
  if s.eng.pleft = 0 then
    match s.inRead with
    | none => none
    | some (b, s) => some (b.getLsbD 7, s.countIn.setEng { s.eng with pbyte := b, pleft := 7 })
  else
    some (s.eng.pbyte.getLsbD (s.eng.pleft - 1), s.setEng { s.eng with pleft := s.eng.pleft - 1 })

/-- `outBit(bit)` (R87) and its answer `done`: the L-th byte has been written (43_codec.md R128), L being held in
ORIG_LEN (43_codec.md R117). -/
def State.outBit (bit : Bool) (s : State) : Bool × State :=
  let oacc := shiftIn s.eng.oacc bit
  if s.eng.ofill + 1 = 8 then
    let emitted := s.eng.emitted + 1
    (emitted == s.origLen.toNat,
      (s.emitByte oacc).setEng { s.eng with oacc := 0, ofill := 0, emitted := emitted })
  else
    (false, s.setEng { s.eng with oacc := oacc, ofill := s.eng.ofill + 1 })

end Sys2Proof.Machine
end

