-- ==== Sys2Proof/Machine/Frequency.lean ====
section
/-! DEFINITION. The frequency analyser (41_frequency.md). -/

namespace Sys2Proof.Machine

/-- The symbols the rolling accumulator of `observe` (41_frequency.md R93) registers, in order: `a` and `k` are the
accumulator and its fill. A final incomplete group is padded on its low-order bits (R91). -/
def rollSymbols (w a k : Nat) : List Bool → List Nat
  | [] => if 0 < k then [a <<< (w - k)] else []
  | b :: bs =>
    if k + 1 = w then (2 * a + b.toNat) :: rollSymbols w 0 0 bs
    else rollSymbols w (2 * a + b.toNat) (k + 1) bs

/-- `S_w(B)` (41_frequency.md R92). -/
def symbols (w : Nat) (bs : List Byte) : List Nat := rollSymbols w 0 0 (bitsOf bs)

/-- `FREQ[s] <- FREQ[s] + 1`. -/
def Freq.bump (s : Nat) : List (Nat × Nat) → List (Nat × Nat)
  | [] => [(s, 1)]
  | (t, c) :: rest =>
    if s = t then (t, c + 1) :: rest
    else if s < t then (s, 1) :: (t, c) :: rest
    else (t, c) :: Freq.bump s rest

/-- `FREQ[s]`: 0 for a symbol that is not listed. -/
def Freq.get (f : List (Nat × Nat)) (s : Nat) : Nat :=
  match f.find? fun p => p.1 == s with
  | some p => p.2
  | none => 0

/-- The canonical form of FREQ: symbols strictly rising, every count nonzero (10_state.md R30: "distinct (present in
the table) exactly when its count is nonzero"). -/
def Freq.wf : List (Nat × Nat) → Bool
  | [] => true
  | [(_, c)] => decide (0 < c)
  | (s, c) :: (t, d) :: rest => decide (0 < c) && decide (s < t) && Freq.wf ((t, d) :: rest)

/-- `observe(w)` (41_frequency.md R93): FREQ of the symbols of IBUF. -/
def observe (w : Nat) (bs : List Byte) : List (Nat × Nat) :=
  (symbols w bs).foldl (fun f x => Freq.bump x f) []

end Sys2Proof.Machine
end

