-- ==== Sys2Proof/Machine/Tree.lean ====
section
/-! DEFINITION. The tree builder, the code-table generator and the size estimator (42_tree.md). -/

namespace Sys2Proof.Machine

/-- The frequency of a node (10_state.md R31). -/
def HuffTree.freq : HuffTree → Nat
  | .leaf _ f => f
  | .node f _ _ => f

/-- The order of the initial work list (42_tree.md R96): frequency descending, then symbol ascending. -/
def leafBefore (a b : Nat × Nat) : Bool :=
  decide (b.2 < a.2) || (a.2 == b.2 && decide (a.1 < b.1))

/-- Insert a (symbol, frequency) pair into a list in the order of R96. -/
def insertLeaf (a : Nat × Nat) : List (Nat × Nat) → List (Nat × Nat)
  | [] => [a]
  | b :: rest => if leafBefore a b then a :: b :: rest else b :: insertLeaf a rest

/-- The initial WL (42_tree.md R96): "one leaf (s, FREQ[s]) per distinct symbol". -/
def initialWl (f : List (Nat × Nat)) : List HuffTree :=
  (f.foldr insertLeaf []).map fun p => .leaf p.1 p.2

/-- Reinsertion (42_tree.md R98): at index |{e ∈ WL : e.freq ≥ m.freq}|. -/
def insertNode (m : HuffTree) (wl : List HuffTree) : List HuffTree :=
  let k := wl.countP fun e => decide (m.freq ≤ e.freq)
  wl.take k ++ m :: wl.drop k

/-- The merge step (42_tree.md R97): the last element `a` goes left, the new last element `b` right. A work list of
fewer than two nodes is left as it is. -/
def mergeStep (wl : List HuffTree) : List HuffTree :=
  match wl.reverse with
  | a :: b :: rest => insertNode (.node (a.freq + b.freq) a b) rest.reverse
  | _ => wl

/-- `k` merge steps. -/
def mergeSteps : Nat → List HuffTree → List HuffTree
  | 0, wl => wl
  | k + 1, wl => mergeSteps k (mergeStep wl)

/-- `build()` (42_tree.md R95, R98): the loop "runs exactly N − 1 times"; the result is WL, which holds the root alone
when N ≥ 1 and nothing when N = 0. -/
def build (f : List (Nat × Nat)) : List HuffTree := mergeSteps (f.length - 1) (initialWl f)

/-- Code assignment (42_tree.md R102): the leaves below a node reached by `len` steps along the path of value `v`, in
depth-first pre-order, left before right (R104). -/
def assign (len v : Nat) : HuffTree → List Entry
  | .leaf sym _ => [⟨len, v, sym⟩]
  | .node _ l r => assign (len + 1) (2 * v) l ++ assign (len + 1) (2 * v + 1) r

/-- `deriveDictionary()` (42_tree.md R104) over the built work list: nothing for N = 0, the code (1, 0) for a
single leaf (R103), the pre-order walk otherwise. It is the code table too (10_state.md R32). -/
def deriveDictionary : List HuffTree → List Entry
  | [] => []
  | .leaf sym _ :: _ => [⟨1, 0, sym⟩]
  | .node f l r :: _ => assign 0 0 (.node f l r)

/-- The code table's entry of a symbol: CLEN[s] and CVAL[s] (10_state.md R32). -/
def entryOf? (t : List Entry) (s : Nat) : Option Entry := t.find? fun e => e.sym == s

/-- CLEN[s]; a symbol without a code has no bits, which no symbol of the analysed input is (assumption log 22). -/
def codeLen (t : List Entry) (s : Nat) : Nat :=
  match entryOf? t s with
  | some e => e.len
  | none => 0

/-- `bitstring(CVAL[s], CLEN[s])`: the bits of a symbol's code (43_codec.md R109). -/
def codeBits (t : List Entry) (s : Nat) : List Bool :=
  match entryOf? t s with
  | some e => bitstring e.code e.len
  | none => []

/-- P of 42_tree.md R106: the payload bits. -/
def payloadLen (f : List (Nat × Nat)) (t : List Entry) : Nat :=
  (f.map fun p => p.2 * codeLen t p.1).sum

/-- `estimate(w)` (42_tree.md R106): 17 + 20 × N + ceil(P / 8). -/
def estimate (f : List (Nat × Nat)) (t : List Entry) : Nat :=
  Config.hdrBytes + Config.entryBytes * f.length + ceilDiv (payloadLen f t) 8

/-- The code length limit (42_tree.md R105): some code is longer than 64 bits. -/
def tooLong (t : List Entry) : Bool := t.any fun e => decide (Config.maxCodeLen < e.len)

end Sys2Proof.Machine
end

