-- ==== Sys2Proof/Machine/Codec.lean ====
section
/-! DEFINITION. CodecFormat: the container's bytes (30_encoding.md R66 to R72, 43_codec.md R109 to R113) and the steps
of deserialize (43_codec.md R115 to R129). One engine step makes at most one port access (assumption log 6). -/

namespace Sys2Proof.Machine

/-- The 17 header bytes (43_codec.md R110): `[w] ++ be_8(n) ++ be_8(N)`. -/
def headerBytes (w n count : Nat) : List Byte := be w 1 ++ be n 8 ++ be count 8

/-- The 20 bytes of a dictionary entry (43_codec.md R111): `be_4(len) ++ be_8(code) ++ be_8(sym)`. -/
def entryBytes (e : Entry) : List Byte := be e.len 4 ++ be e.code 8 ++ be e.sym 8

/-- The dictionary bytes (43_codec.md R111). -/
def dictBytes (d : List Entry) : List Byte := d.flatMap entryBytes

/-- The start of serialize (43_codec.md R109): the header and dictionary bytes to write, the symbols to encode, and
an empty accumulator. -/
def State.startSerialize (s : State) : State :=
  s.setEng { s.eng with
    pendBytes := headerBytes s.eng.bestW s.eng.n s.eng.bestTable.length ++ dictBytes s.eng.bestTable
    pendSyms := symbols s.eng.bestW s.eng.ibuf
    pendBits := []
    acc := 0
    fill := 0 }

/-- One step of serialize in phase C_Emit (43_codec.md R109): the next header or dictionary byte (R110, R111); else the
next bit of the current code (R112); else the code of the next symbol (R112); else `flush()` and the end (R113,
44_compressor.md R137). -/
def State.emitStep (s : State) : State :=
  match s.eng.pendBytes with
  | b :: bytes => (s.emitByte b).setEng { s.eng with pendBytes := bytes }
  | [] =>
    match s.eng.pendBits with
    | bit :: bits => (s.setEng { s.eng with pendBits := bits }).pushBit bit
    | [] =>
      match s.eng.pendSyms with
      | x :: syms =>
        s.setEng { s.eng with pendSyms := syms, pendBits := codeBits s.eng.bestTable x }
      | [] => s.flush.finish

/-- The start of the payload (43_codec.md R122, R123): the readers and accumulators empty. -/
def State.startPayload (s : State) : State :=
  (s.setEng { s.eng with
    pleft := 0, klen := 0, kval := 0, oacc := 0, ofill := 0, emitted := 0, pendBits := [] }).setPhase .dPayload

/-- `DICT <- {}; Lmax <- 0` and the first entry; with N = 0 there is none and the payload starts (43_codec.md R118,
R119). -/
def State.startDict (s : State) : State :=
  let s := s.setEng { s.eng with dict := [], lmax := 0, recv := [] }
  if s.dictCount.toNat = 0 then s.startPayload else s.setPhase (.dDict 0)

/-- What the header bytes received so far, `r`, settle (43_codec.md R115 to R118, at the offsets of 30_encoding.md
R66): the width byte sets WIDTH and is checked at once; the bytes 1..8 set ORIG_LEN; the bytes 9..16 set DICT_COUNT,
which is then checked. -/
def State.headerStep (r : List Byte) (s : State) : State :=
  let s := s.setEng { s.eng with recv := r }
  if r.length = 1 then
    let w := fromBe (slice r 0 1)
    let s := s.setWidth (BitVec.ofNat 8 w)
    if w < Config.candFirst ∨ Config.candLast < w then s.raiseFault .malformedContainer .badWidth else s
  else if r.length = 9 then
    s.setOrigLen (fromBe (slice r 1 9))
  else if r.length = Config.hdrBytes then
    let count := fromBe (slice r 9 17)
    let s := s.setDictCount count
    if Config.dictCap < count then s.raiseFault .malformedContainer .dictTooLarge else s.startDict
  else s

/-- The entry in 20 received bytes (30_encoding.md R70). -/
def entryOfBytes (r : List Byte) : Entry :=
  ⟨fromBe (slice r 0 4), fromBe (slice r 4 12), fromBe (slice r 12 20)⟩

/-- The entry check (43_codec.md R120): "len = 0, or len > 64, or code ≥ 2^len". -/
def badEntry (e : Entry) : Bool :=
  e.len == 0 || decide (Config.maxCodeLen < e.len) || decide (2 ^ e.len ≤ e.code)

/-- The decode lookup (10_state.md R35, 43_codec.md R121): the entry of a key (len, code). -/
def lookup? (d : List Entry) (len code : Nat) : Option Entry :=
  d.find? fun e => e.len == len && e.code == code

/-- Entry i with all its 20 bytes read (43_codec.md R120, R121): BadEntry, then DupKey, else it joins DICT, and after
entry N − 1 the payload starts. -/
def State.acceptEntry (i : Nat) (e : Entry) (s : State) : State :=
  if badEntry e then s.raiseFault .malformedContainer .badEntry
  else if (lookup? s.eng.dict e.len e.code).isSome then s.raiseFault .malformedContainer .dupKey
  else
    let s := s.setEng { s.eng with dict := s.eng.dict ++ [e], lmax := max s.eng.lmax e.len, recv := [] }
    if i + 1 < s.dictCount.toNat then s.setPhase (.dDict (i + 1)) else s.startPayload

/-- What the bytes of entry `i` received so far, `r`, settle (43_codec.md R119). -/
def State.dictStep (i : Nat) (r : List Byte) (s : State) : State :=
  let s := s.setEng { s.eng with recv := r }
  if r.length = Config.entryBytes then s.acceptEntry i (entryOfBytes r) else s

/-- One InRead of `readField` (43_codec.md): an exhausted stream raises MalformedContainer with detail `d`; a byte is
counted and joins those received, which `k` then examines. -/
def State.readByte (d : Detail) (k : List Byte → State → State) (s : State) : State :=
  match s.inRead with
  | none => s.raiseFault .malformedContainer d
  | some (b, s) => k (s.eng.recv ++ [b]) s.countIn

/-- The key after one more payload bit (43_codec.md R124 to R126): a hit hands the symbol's low w bits, MSB-first, to
the output accumulator (R127); a miss at Lmax bits or more is UnknownCode. -/
def State.matchKey (bit : Bool) (s : State) : State :=
  let klen := s.eng.klen + 1
  let kval := 2 * s.eng.kval + bit.toNat
  match lookup? s.eng.dict klen kval with
  | some e => s.setEng { s.eng with klen := 0, kval := 0, pendBits := bitstring e.sym s.width.toNat }
  | none =>
    let s := s.setEng { s.eng with klen := klen, kval := kval }
    if s.eng.lmax ≤ klen then s.raiseFault .unknownCode .noDetail else s

/-- One step of phase D_Payload (43_codec.md R122 to R128): with L = 0 the command ends at once; the bits of a matched
symbol go out one a step, the command ending with the L-th byte; else the next payload bit extends the key. -/
def State.payloadStep (s : State) : State :=
  if s.origLen.toNat = 0 then s.finish
  else
    match s.eng.pendBits with
    | bit :: bits =>
      match (s.setEng { s.eng with pendBits := bits }).outBit bit with
      | (true, s) => s.finish
      | (false, s) => s
    | [] =>
      match s.nextBit with
      | none => s.raiseFault .malformedContainer .truncPayload
      | some (bit, s) => s.matchKey bit

end Sys2Proof.Machine
end

