-- ==== Sys2Proof/Machine/Compressor.lean ====
section
/-! DEFINITION. The phases of COMPRESS before its output (44_compressor.md R134 to R137), and the engine's step. -/

namespace Sys2Proof.Machine

/-- One InRead of phase C_Read (44_compressor.md R134). -/
def State.readStep (s : State) : State :=
  match s.inRead with
  | none => (s.setOrigLen s.eng.n).setPhase (.cAnalyse Config.candFirst)
  | some (b, s) =>
    let s := s.countIn
    if s.eng.n = s.inputCap.val then s.raiseFault .capacityExceeded .noDetail
    else s.setEng { s.eng with ibuf := s.eng.ibuf ++ [b] }

/-- What phase C_Analyse(w) leaves in the engine (44_compressor.md R135): FREQ, WL and the code table of candidate w,
and the best candidate so far, which a later one displaces only by a strictly smaller estimate (R136,
10_state.md R33). -/
def Engine.analyse (w : Nat) (e : Engine) : Engine :=
  let freq := observe w e.ibuf
  let wl := build freq
  let table := deriveDictionary wl
  let est := estimate freq table
  let e := { e with freq := freq, wl := wl, table := table }
  if w = Config.candFirst ∨ est < e.bestEst then { e with bestW := w, bestEst := est, bestTable := table }
  else e

/-- Phase C_Analyse(w): one candidate, no port access (44_compressor.md R135); after the last, C_Select. -/
def State.analyseStep (w : Nat) (s : State) : State :=
  (s.setEng (s.eng.analyse w)).setPhase (if w < Config.candLast then .cAnalyse (w + 1) else .cSelect)

/-- Phase C_Select (44_compressor.md R136, R137): WIDTH and DICT_COUNT of the winner, the code length limit of
42_tree.md R105, then C_Emit. -/
def State.selectStep (s : State) : State :=
  let s := (s.setWidth (BitVec.ofNat 8 s.eng.bestW)).setDictCount s.eng.bestTable.length
  if tooLong s.eng.bestTable then s.raiseFault .codeTooLong .noDetail
  else s.startSerialize.setPhase .cEmit

/-- The engine's next step (10_state.md R16). In `Idle` it waits: nothing changes (60_exceptions.md R163,
70_reset_and_hazards.md R168). -/
def State.engineStep (s : State) : State :=
  match s.phase with
  | .idle => s
  | .cRead => s.readStep
  | .cAnalyse w => s.analyseStep w
  | .cSelect => s.selectStep
  | .cEmit => s.emitStep
  | .dHeader => s.readByte .truncHeader State.headerStep
  | .dDict i => s.readByte .truncDict (State.dictStep i)
  | .dPayload => s.payloadStep

end Sys2Proof.Machine
end

