-- ==== Sys2Proof/Machine/Commands.lean ====
section
/-! DEFINITION. The effect of a CMD write, one meaning a command word (44_compressor.md R131). A working command's
meaning is its acceptance; the engine's steps (`State.engineStep`) then carry it out phase by phase. -/

namespace Sys2Proof.Machine

/-- NOP (44_compressor.md R132): nothing, in every STATE. -/
def execNop (s : State) : Host.Outcome State Fault Refusal := .next s

/-- COMPRESS (44_compressor.md R131, R133): in IDLE or DONE it starts, `phase <- C_Read; n <- 0`; in BUSY or FAULT it is
ignored. -/
def execCompress (s : State) : Host.Outcome State Fault Refusal :=
  if s.state.accepts then .next ((s.startCommand .cRead).setEng { s.eng with ibuf := [] }) else .next s

/-- DECOMPRESS (44_compressor.md R131, R139): in IDLE or DONE it starts, `phase <- D_Header`, with no header byte
received; in BUSY or FAULT it is ignored. -/
def execDecompress (s : State) : Host.Outcome State Fault Refusal :=
  if s.state.accepts then .next ((s.startCommand .dHeader).setEng { s.eng with recv := [] }) else .next s

/-- CLEAR (44_compressor.md R131, R141): in IDLE, DONE or FAULT it clears STATUS; in BUSY it is ignored. -/
def execClear (s : State) : Host.Outcome State Fault Refusal :=
  if s.state.acceptsClear then .next s.clearStatus else .next s

/-- An illegal word (44_compressor.md R131, R142): in IDLE or DONE it performs `raise Fault(IllegalCommand, 0)`; in BUSY
or FAULT it is ignored. Which illegal word it is makes no difference. -/
def execIllegal (_word : Word) (s : State) : Host.Outcome State Fault Refusal :=
  if s.state.accepts then .next (s.raiseFault .illegalCommand .noDetail) else .next s

end Sys2Proof.Machine
end

