-- ==== Sys2Proof/Machine/Bus.lean ====
section
/-! DEFINITION. The host's side: register accesses and the statements of the host notation (20_memory.md R42, R52,
30_encoding.md R64, R65). -/

namespace Sys2Proof.Machine

/-- The host contract of a register access (20_memory.md R42): a single 64-bit access at a multiple of 8 in 0x00..0x38.
Anything else is refused. -/
def busAccess (bits offset : Nat) (k : Reg → Host.Outcome State Fault Refusal) : Host.Outcome State Fault Refusal :=
  if bits = 64 then
    match regAt offset with
    | some r => k r
    | none => .refused (.accessOffset offset)
  else .refused (.accessWidth bits)

/-- A register write: at CMD it presents the word to the engine (10_state.md R17); at a read-only register it has no
effect (R26). -/
def busWrite (bits offset : Nat) (value : Word) (s : State) : Host.Outcome State Fault Refusal :=
  busAccess bits offset fun r =>
    match r with
    | .cmd => exec (decode value) s
    | .status => .next s
    | .width => .next s
    | .origLen => .next s
    | .dictCount => .next s
    | .inCount => .next s
    | .outCount => .next s
    | .inputCap => .next s

/-- A register read. -/
def busRead (bits offset : Nat) (s : State) : Host.Outcome State Fault Refusal :=
  busAccess bits offset fun r => .next (s.readReg r)

/-- Attaching the next command's input stream; while BUSY it is refused (93_implementation_defined.md U7,
assumption log 7). -/
def hostAttach (bytes : List Byte) (s : State) : Host.Outcome State Fault Refusal :=
  if s.state = .busy then .refused .streamChangedWhileBusy else .next (s.attach bytes)

/-- One round of `wait` (30_encoding.md R65): read STATUS; while it shows BUSY let the engine take a step and wait on,
so that the engine keeps taking steps (70_reset_and_hazards.md R178; assumption log 21). -/
def hostWait (s : State) : State :=
  if s.state = .busy then { s.readReg .status with agenda := .engine :: .wait :: s.agenda }
  else s.readReg .status

/-- One event of the host's agenda, `s` being the state with the event taken off it. -/
def hostEvent (e : Event) (s : State) : Host.Outcome State Fault Refusal :=
  match e with
  | .reset => .next s.resetInput
  | .attach bytes => hostAttach bytes s
  | .write bits offset value => busWrite bits offset value s
  | .read bits offset => busRead bits offset s
  | .wait => .next (hostWait s)
  | .engine => .next s.engineStep

/-- `cmd M`: one 64-bit write of M's word to offset 0x00 (30_encoding.md R64). -/
def cmd (w : Word) : Event := .write 64 0x00 w

/-- `rd R`: one 64-bit read at R's offset (30_encoding.md R64). -/
def rd (r : Reg) : Event := .read 64 r.offset

/-- `run M [bytes]` expands to `in [bytes]`, `cmd M`, `wait` (30_encoding.md R65). -/
def runStmt (i : Instr) (bytes : List Byte) : List Event := [.attach bytes, cmd (encode i), .wait]

end Sys2Proof.Machine
end

