-- ==== Sys2Proof/Machine/Step.lean ====
section
/-! DEFINITION. One step of host and engine. -/

namespace Sys2Proof.Machine

/-- The first event of the agenda is taken; with none left only the engine moves (10_state.md R13,
70_reset_and_hazards.md R178; assumption log 6). -/
def step (s : State) : Host.Outcome State Fault Refusal :=
  match s.agenda with
  | [] => .next s.engineStep
  | e :: rest => hostEvent e { s with agenda := rest }

/-- The command word of a table row placed where `step` takes its next command: a CMD write at the head of the
agenda (assumption log 17). -/
def State.withFetchWord (s : State) (nbits w : Nat) : State :=
  { s with agenda := cmd (tableWord nbits w) :: s.agenda }

end Sys2Proof.Machine
end

