-- ==== Sys2Proof/Safety.lean ====
section
/-! DEFINITION. The terms in which claims are stated: the invariant, the container a command must write (30_encoding.md
R66, R73) and the runs of a command. The machine does not use this file. -/

namespace Sys2Proof.Machine

/-- `P[8j..8j+8)` as a byte, its first bit at bit 7 and zeros after the last (30_encoding.md R73). -/
def payloadByte (p : List Bool) (j : Nat) : Byte :=
  BitVec.ofNat 8 (val (slice (p ++ List.replicate 8 false) (8 * j) (8 * j + 8)))

/-- The payload (30_encoding.md R73): `ceil(len(P)/8)` bytes. -/
def packBits (p : List Bool) : List Byte := (List.range (ceilDiv p.length 8)).map (payloadByte p)

/-- FREQ of candidate w on input B, the code table and dictionary, and the estimate (44_compressor.md R135). -/
def candTable (w : Nat) (b : List Byte) : List Entry := deriveDictionary (build (observe w b))

/-- `estimate(w)` on input B (42_tree.md R106). -/
def candEstimate (w : Nat) (b : List Byte) : Nat := estimate (observe w b) (candTable w b)

/-- The loop of 44_compressor.md R136: `BEST_W <- 2`, then for w in 3..8 `if estimate(w) < BEST_EST: BEST_W <- w`. -/
def winner (b : List Byte) : Nat :=
  [3, 4, 5, 6, 7, 8].foldl (fun best w => if candEstimate w b < candEstimate best b then w else best) 2

/-- `P` (30_encoding.md R73): the code bits of the symbols of B at width w. -/
def payloadBits (w : Nat) (b : List Byte) : List Bool := (symbols w b).flatMap (codeBits (candTable w b))

/-- The container of B at width w (30_encoding.md R66): header, dictionary, payload. -/
def containerAt (w : Nat) (b : List Byte) : List Byte :=
  headerBytes w b.length (candTable w b).length ++ dictBytes (candTable w b) ++ packBits (payloadBits w b)

/-- The container COMPRESS must write for input B. -/
def container (b : List Byte) : List Byte := containerAt (winner b) b

/-- The engine left alone for k steps. -/
def engineRun : Nat → State → State
  | 0, s => s
  | k + 1, s => engineRun k s.engineStep

/-- The bits of a code, which is what no other code may begin with (42_tree.md R108). -/
def Entry.bits (e : Entry) : List Bool := bitstring e.code e.len

/-- The leaves of a node, left to right, as (symbol, frequency). -/
def HuffTree.leaves : HuffTree → List (Nat × Nat)
  | .leaf s f => [(s, f)]
  | .node _ l r => l.leaves ++ r.leaves

/-- The number of internal nodes. -/
def HuffTree.internals : HuffTree → Nat
  | .leaf _ _ => 0
  | .node _ l r => l.internals + r.internals + 1

/-- The longest path to a leaf. -/
def HuffTree.depth : HuffTree → Nat
  | .leaf _ _ => 0
  | .node _ l r => max l.depth r.depth + 1

/-- "An internal node the sum of its two children's frequencies" (00_scope.md R12). -/
def HuffTree.sums : HuffTree → Bool
  | .leaf _ _ => true
  | .node f l r => f == l.freq + r.freq && l.sums && r.sums

/-- The work stack of 42_tree.md R104's listing of `deriveDictionary`: `fuel` pops of it, the left child pushed last
so that it is popped first. -/
def stackWalk : Nat → List (HuffTree × Nat × Nat) → List Entry
  | 0, _ => []
  | _ + 1, [] => []
  | k + 1, (.leaf sym _, len, v) :: rest => ⟨len, v, sym⟩ :: stackWalk k rest
  | k + 1, (.node _ l r, len, v) :: rest =>
    stackWalk k ((l, len + 1, 2 * v) :: (r, len + 1, 2 * v + 1) :: rest)

/-- An entry that passes the check of 43_codec.md R120. -/
def Entry.ok (e : Entry) : Prop := 1 ≤ e.len ∧ e.len ≤ Config.maxCodeLen ∧ e.code < 2 ^ e.len

/-- What a COMPRESS before its first OutWrite holds: n bytes within INPUT_CAP, IN_COUNT = n, nothing written
(44_compressor.md R133, R134). -/
structure ReadSoFar (s : State) : Prop where
  within : s.eng.n ≤ s.inputCap.val
  counted : s.inCount = BitVec.ofNat 64 s.eng.n
  silent : s.output = []

/-- What a DECOMPRESS holds of the dictionary it has read (10_state.md R35, 43_codec.md R118 to R121): at most
DICT_CAP entries announced, each read entry legal, no key twice, Lmax the largest length. -/
structure DictSoFar (s : State) : Prop where
  capped : s.dictCount.toNat ≤ Config.dictCap
  legal : ∀ e ∈ s.eng.dict, e.ok
  keys : (s.eng.dict.map fun e => (e.len, e.code)).Nodup
  lmax : s.eng.lmax = (s.eng.dict.map Entry.len).foldr max 0

/-- What the engine holds in each phase (10_state.md R16, R29 to R38). In `Idle` nothing is said of it (R39). -/
def Phase.holds : Phase → State → Prop
  | .idle, _ => True
  | .cRead, s => ReadSoFar s
  | .cAnalyse w, s =>
    ReadSoFar s ∧ s.origLen = BitVec.ofNat 64 s.eng.n ∧ Config.candFirst ≤ w ∧ w ≤ Config.candLast ∧
      (Config.candFirst < w → Config.candFirst ≤ s.eng.bestW ∧ s.eng.bestW < w)
  | .cSelect, s =>
    ReadSoFar s ∧ s.origLen = BitVec.ofNat 64 s.eng.n ∧
      Config.candFirst ≤ s.eng.bestW ∧ s.eng.bestW ≤ Config.candLast
  | .cEmit, s =>
    s.eng.n ≤ s.inputCap.val ∧ s.inCount = BitVec.ofNat 64 s.eng.n ∧ s.origLen = BitVec.ofNat 64 s.eng.n ∧
      s.eng.fill < 8 ∧ s.eng.acc.toNat < 2 ^ s.eng.fill
  | .dHeader, s => s.output = [] ∧ s.eng.recv.length < Config.hdrBytes
  | .dDict i, s =>
    s.output = [] ∧ DictSoFar s ∧ i < s.dictCount.toNat ∧ s.eng.dict.length = i ∧
      s.eng.recv.length < Config.entryBytes
  | .dPayload, s =>
    DictSoFar s ∧ s.eng.dict.length = s.dictCount.toNat ∧ s.eng.pleft < 8 ∧ s.eng.klen ≤ s.eng.lmax ∧
      s.eng.kval < 2 ^ s.eng.klen ∧ s.eng.ofill < 8 ∧ s.eng.oacc.toNat < 2 ^ s.eng.ofill ∧
      s.output.length = s.eng.emitted ∧ (s.origLen.toNat ≠ 0 → s.eng.emitted < s.origLen.toNat)

/-- The invariant of HZCORE: STATE and phase go together (10_state.md R19); CAUSE is reported in FAULT alone (R18);
DETAIL for a MalformedContainer alone (60_exceptions.md R148); while BUSY, OUT_COUNT counts the bytes written (R24);
and the engine's internal state fits its phase. -/
structure MachineInv (s : State) : Prop where
  busy_iff : s.state = .busy ↔ s.phase ≠ .idle
  cause_iff : s.state = .fault ↔ s.cause ≠ .noFault
  detail_iff : s.detail ≠ .noDetail ↔ s.cause = .malformedContainer
  counted : s.state = .busy → s.outCount = BitVec.ofNat 64 s.output.length
  holds : s.phase.holds s

/-- Two states that no host can tell apart by looking: they differ in the engine's internal state at most. -/
def SameOutside (s t : State) : Prop := { s with eng := t.eng } = t

/-- Two outcomes with the same answer, up to the engine's internal state. -/
def SameOutcome : Host.Outcome State Fault Refusal → Host.Outcome State Fault Refusal → Prop
  | .next s, .next t => SameOutside s t
  | .refused r, .refused q => r = q
  | .fault f, .fault g => f = g
  | _, _ => False

end Sys2Proof.Machine
end

