-- ==== Sys2Proof/Certificates/Slice0/Obligations.lean ====
section
/-! DEFINITION. The statements about HZCORE. -/

open Sys2Proof Sys2Proof.Machine

/- Command words. -/

/-- 30_encoding.md R61: the four legal words and their commands. -/
def Obligations.CommandWordsDecode : Prop :=
  decode 0x0000000000000000#64 = .nop ∧ decode 0x0000000000000001#64 = .compress ∧
  decode 0x0000000000000002#64 = .decompress ∧ decode 0x0000000000000003#64 = .clear

/-- 30_encoding.md R60: a word is legal exactly when RSV[63:8] = 0 and OPC[7:0] is 0, 1, 2 or 3; every other word
decodes to ILLEGAL carrying itself (R62). -/
def Obligations.WordIsLegalByReservedAndOpcode : Prop :=
  ∀ w : Word,
    ((w.extractLsb' 8 56 = 0 ∧ ∃ k < 4, w.extractLsb' 0 8 = BitVec.ofNat 8 k) → ∀ x, decode w ≠ .illegal x) ∧
    (¬ (w.extractLsb' 8 56 = 0 ∧ ∃ k < 4, w.extractLsb' 0 8 = BitVec.ofNat 8 k) → decode w = .illegal w)

/-- Decoder and encoder agree: an encoded well-formed command decodes to itself, and every word is the encoding of the
well-formed command it decodes to, so no bit of a word is dropped. -/
def Obligations.DecodeAndEncodeAgree : Prop :=
  (∀ i : Instr, i.wellFormed = true → decode (encode i) = i) ∧
  (∀ w : Word, encode (decode w) = w ∧ (decode w).wellFormed = true)

/-- A 64-bit write at offset 0x00 runs the command its word decodes to, on the state with that write taken off the
agenda. -/
def Obligations.StepRunsTheWrittenCommand : Prop :=
  ∀ (s : State) (w : Word) (rest : List Event),
    s.agenda = .write 64 0x00 w :: rest → step s = exec (decode w) { s with agenda := rest }

/-- The host's question: a table row's word placed by `withFetchWord` is what the next step decodes and runs. -/
def Obligations.FetchWordRunsTheTableRow : Prop :=
  ∀ (s : State) (nbits w : Nat) (i : Instr),
    decodeTableWord nbits w = some i → step (s.withFetchWord nbits w) = exec i s

/-- With nothing on the agenda, or with an `engine` event at its head, the step is the engine's. -/
def Obligations.StepRunsTheEngine : Prop :=
  ∀ s : State,
    (s.agenda = [] → step s = .next s.engineStep) ∧
    (∀ rest, s.agenda = .engine :: rest → step s = .next (State.engineStep { s with agenda := rest }))

/- The commands. -/

/-- 44_compressor.md R132: the word 0 is NOP, and NOP changes nothing in any STATE. -/
def Obligations.NopChangesNothing : Prop :=
  decode 0x0000000000000000#64 = .nop ∧ ∀ s : State, exec .nop s = .next s

/-- 44_compressor.md R133: an accepted COMPRESS, whose stream the host has attached. The next state is written out, so
everything not named is unchanged. -/
def Obligations.CompressStarts : Prop :=
  ∀ (s : State) (b : List Byte), (s.state = .idle ∨ s.state = .done) → s.attached = some b →
    exec .compress s = .next { s with
      state := .busy, cause := .noFault, detail := .noDetail
      width := 0, origLen := 0, dictCount := 0, inCount := 0, outCount := 0
      phase := .cRead, eng := { s.eng with ibuf := [] }
      input := b, output := [], attached := none }

/-- 44_compressor.md R139: an accepted DECOMPRESS, whose stream the host has attached. -/
def Obligations.DecompressStarts : Prop :=
  ∀ (s : State) (b : List Byte), (s.state = .idle ∨ s.state = .done) → s.attached = some b →
    exec .decompress s = .next { s with
      state := .busy, cause := .noFault, detail := .noDetail
      width := 0, origLen := 0, dictCount := 0, inCount := 0, outCount := 0
      phase := .dHeader, eng := { s.eng with recv := [] }
      input := b, output := [], attached := none }

/-- An accepted COMPRESS or DECOMPRESS for which the host has attached no stream takes a free one (the model's choice,
assumption log 5); all else as 44_compressor.md R133, R139. -/
def Obligations.CommandsWithoutStreamTakeAFreeOne : Prop :=
  ∀ s : State, (s.state = .idle ∨ s.state = .done) → s.attached = none →
    exec .compress s = .next { s with
      state := .busy, cause := .noFault, detail := .noDetail
      width := 0, origLen := 0, dictCount := 0, inCount := 0, outCount := 0
      phase := .cRead, eng := { s.eng with ibuf := [] }
      input := Config.freeStream s.freeCtr, output := [], freeCtr := s.freeCtr + 1 } ∧
    exec .decompress s = .next { s with
      state := .busy, cause := .noFault, detail := .noDetail
      width := 0, origLen := 0, dictCount := 0, inCount := 0, outCount := 0
      phase := .dHeader, eng := { s.eng with recv := [] }
      input := Config.freeStream s.freeCtr, output := [], freeCtr := s.freeCtr + 1 }

/-- 44_compressor.md R141: the word 3 is CLEAR; CLEAR in IDLE, DONE and FAULT; ignored in BUSY; no other command leaves
FAULT; in IDLE, in any state of the invariant, CLEAR changes nothing. -/
def Obligations.ClearLeavesFault : Prop :=
  decode 0x0000000000000003#64 = .clear ∧ ∀ s : State,
    (s.state ≠ .busy → exec .clear s = .next { s with state := .idle, cause := .noFault, detail := .noDetail }) ∧
    (s.state = .busy → exec .clear s = .next s) ∧
    (s.state = .idle → MachineInv s → exec .clear s = .next s) ∧
    (∀ i t, s.state = .fault → exec i s = .next t → t.state ≠ .fault → i = .clear)

/-- 44_compressor.md R142: an illegal word raises IllegalCommand in IDLE and DONE, after which STATUS reads 0x0303, and is
ignored in BUSY and FAULT. -/
def Obligations.IllegalWordFaults : Prop :=
  ∀ (s : State) (w : Word),
    statusWord .fault .illegalCommand .noDetail = 0x0303 ∧ ((s.state = .idle ∨ s.state = .done) → exec (.illegal w) s =
      .next { s with state := .fault, cause := .illegalCommand, detail := .noDetail, phase := .idle }) ∧
    ((s.state = .busy ∨ s.state = .fault) → exec (.illegal w) s = .next s)

/-- 44_compressor.md R131, the BUSY and FAULT columns: a command that is ignored changes nothing. -/
def Obligations.IgnoredCommandsChangeNothing : Prop :=
  ∀ (s : State) (i : Instr),
    (s.state = .busy → exec i s = .next s) ∧ (s.state = .fault → i ≠ .clear → exec i s = .next s)

/- The register block. -/

/-- 20_memory.md R42: the 64-bit accesses at multiples of 8 in 0x00..0x38 answer a next state; every other access is
refused. -/
def Obligations.RegisterAccessContract : Prop :=
  ∀ (s : State) (bits offset : Nat) (v : Word) (rest : List Event) (e : Event),
    (e = .read bits offset ∨ e = .write bits offset v) → s.agenda = e :: rest →
    ((bits = 64 ∧ offset % 8 = 0 ∧ offset ≤ 0x38) → ∃ t, step s = .next t) ∧
    (¬ (bits = 64 ∧ offset % 8 = 0 ∧ offset ≤ 0x38) → ∃ r, step s = .refused r)

/-- 10_state.md R26: a write to a read-only register has no effect; the bits of WIDTH and of the STATUS word that are
reserved hold 0, so they read as 0 wherever the register is read as what it holds (while BUSY a read of WIDTH is
unspecified, R27); every word written to CMD has a defined effect, a next state. -/
def Obligations.ReadOnlyRegistersIgnoreWrites : Prop :=
  (∀ (s : State) (offset : Nat) (v : Word) (rest : List Event),
    offset % 8 = 0 → 0x08 ≤ offset → offset ≤ 0x38 → s.agenda = .write 64 offset v :: rest →
    step s = .next { s with agenda := rest }) ∧
  (∀ s : State, (s.regValue .width).toNat < 2 ^ 8 ∧
    (s.regValue .status).extractLsb' 2 6 = 0 ∧ (s.regValue .status).extractLsb' 24 40 = 0) ∧
  (∀ (s : State) (v : Word) (rest : List Event), s.agenda = .write 64 0x00 v :: rest → ∃ t, step s = .next t)

/-- A register read outside BUSY returns the register (10_state.md R15, R17, R20 to R25) and changes nothing else
(20_memory.md R52). -/
def Obligations.ReadsReturnTheRegisters : Prop :=
  ∀ (s : State) (rest : List Event) (r : Reg) (v : Word), s.state ≠ .busy →
    (r, v) ∈ [(Reg.cmd, 0), (.status, statusWord s.state s.cause s.detail), (.width, s.width.setWidth 64),
      (.origLen, s.origLen), (.dictCount, s.dictCount), (.inCount, s.inCount), (.outCount, s.outCount),
      (.inputCap, BitVec.ofNat 64 s.inputCap.val)] →
    s.agenda = rd r :: rest → step s = .next { s with agenda := rest, rdata := some v }

/-- 10_state.md R27: while BUSY a read of STATUS returns 1 and a read of a result register a free value; INPUT_CAP reads
its constant and CMD reads 0 (R17) in every state; no read disturbs anything else. -/
def Obligations.ReadsWhileBusy : Prop :=
  ∀ (s : State) (rest : List Event) (r : Reg), s.agenda = rd r :: rest →
    (s.state = .busy → r = .status → step s = .next { s with agenda := rest, rdata := some 1 }) ∧
    (s.state = .busy → r ∈ [Reg.width, .origLen, .dictCount, .inCount, .outCount] → step s = .next { s with
      agenda := rest, rdata := some (Config.freeWord s.freeCtr), freeCtr := s.freeCtr + 1 }) ∧
    (r = .inputCap → step s = .next { s with agenda := rest, rdata := some (BitVec.ofNat 64 s.inputCap.val) }) ∧
    (r = .cmd → step s = .next { s with agenda := rest, rdata := some 0 })

/-- 10_state.md R18: where each field of STATUS stands; 60_exceptions.md R147, R148: the number of each cause and
sub-cause. -/
def Obligations.StatusFields : Prop :=
  [RunState.idle, .busy, .done, .fault].map RunState.code = [0, 1, 2, 3] ∧
  [Cause.noFault, .malformedContainer, .unknownCode, .illegalCommand, .capacityExceeded, .codeTooLong].map Cause.code =
    [0, 1, 2, 3, 4, 5] ∧
  [Detail.noDetail, .truncHeader, .truncDict, .truncPayload, .badWidth, .badEntry, .dupKey, .dictTooLarge].map
    Detail.code = [0, 1, 2, 3, 4, 5, 6, 7] ∧
  ∀ s : State, MachineInv s →
    (s.regValue .status).extractLsb' 0 2 = BitVec.ofNat 2 s.state.code ∧
    (s.regValue .status).extractLsb' 2 6 = 0 ∧
    (s.regValue .status).extractLsb' 8 8 = BitVec.ofNat 8 s.cause.code ∧
    (s.regValue .status).extractLsb' 16 8 = BitVec.ofNat 8 s.detail.code ∧
    (s.regValue .status).extractLsb' 24 40 = 0

/-- 10_state.md R25: INPUT_CAP holds the parameter at reset, no step changes it, and it reads so in every state. -/
def Obligations.InputCapIsConstant : Prop :=
  State.reset.inputCap = Config.inputCap ∧
  (∀ s t : State, step s = .next t → t.inputCap = s.inputCap) ∧
  (∀ (s t : State) (rest : List Event), s.agenda = .read 64 0x38 :: rest → step s = .next t →
    t.rdata = some (BitVec.ofNat 64 s.inputCap.val))

/- Reset. -/

/-- 10_state.md R40: the values after reset that the spec gives, and the engine waits. -/
def Obligations.ResetValues : Prop :=
  State.reset.state = .idle ∧ State.reset.cause = .noFault ∧ State.reset.detail = .noDetail ∧
  State.reset.width = 0 ∧ State.reset.origLen = 0 ∧ State.reset.dictCount = 0 ∧ State.reset.inCount = 0 ∧
  State.reset.outCount = 0 ∧ State.reset.inputCap = Config.inputCap ∧ State.reset.regValue .cmd = 0 ∧
  State.reset.phase = .idle ∧ State.reset.engineStep = State.reset

/-- 70_reset_and_hazards.md R166, R167: the reset input gives those values in every state, also while BUSY; the
streams keep what was consumed and written; nothing of the aborted command is recorded. -/
def Obligations.ResetInputAborts : Prop :=
  ∀ (s : State) (rest : List Event), s.agenda = .reset :: rest →
    ∃ t, step s = .next t ∧ t.state = .idle ∧ t.cause = .noFault ∧ t.detail = .noDetail ∧ t.width = 0 ∧
      t.origLen = 0 ∧ t.dictCount = 0 ∧ t.inCount = 0 ∧ t.outCount = 0 ∧ t.phase = .idle ∧
      t.inputCap = s.inputCap ∧ t.input = s.input ∧ t.output = s.output ∧ t.agenda = rest ∧ t.regValue .status = 0 ∧
      t.regValue .cmd = 0 ∧ t.engineStep = t

/- Faults. -/

/-- 60_exceptions.md R150: fault entry writes STATUS and the phase and nothing else. -/
def Obligations.FaultEntry : Prop :=
  ∀ (s : State) (c : Cause) (d : Detail),
    s.raiseFault c d = { s with state := .fault, cause := c, detail := d, phase := .idle }

/-- 60_exceptions.md R165: in FAULT, STATE, CAUSE and DETAIL stay as they are through every step that is neither CLEAR
nor reset. -/
def Obligations.FaultIsSticky : Prop :=
  ∀ s t : State, MachineInv s → s.state = .fault → step s = .next t →
    (t.state = .fault ∧ t.cause = s.cause ∧ t.detail = s.detail) ∨
    (∃ rest, s.agenda = .reset :: rest) ∨
    (∃ (w : Word) (rest : List Event), s.agenda = .write 64 0x00 w :: rest ∧ decode w = .clear)

/-- 60_exceptions.md R151: COMPRESS raises its faults before its first OutWrite, so a faulted COMPRESS has written
nothing, whatever its input. -/
def Obligations.FaultedCompressWroteNothing : Prop :=
  ∀ (s t u : State) (k : Nat), (s.state = .idle ∨ s.state = .done) → exec .compress s = .next t →
    engineRun k t = u → u.state = .fault → u.output = [] ∧ u.outCount = 0

/- The bit packer and unpacker. -/

/-- 40_bitcursor.md R81 to R83, 30_encoding.md R73: from an empty accumulator, pushing the bits `p` and flushing
appends exactly `ceil(len(p)/8)` bytes, bit p[8j] at bit 7 of byte j and zeros after the last bit; OUT_COUNT counts
them; the accumulator ends empty. -/
def Obligations.PushedBitsArePackedMsbFirst : Prop :=
  ∀ (s : State) (p : List Bool), s.eng.acc = 0 → s.eng.fill = 0 →
    let t := (p.foldl (fun u bit => u.pushBit bit) s).flush
    t.output = s.output ++ packBits p ∧ t.outCount = s.outCount + BitVec.ofNat 64 (ceilDiv p.length 8) ∧
    t.eng = s.eng ∧ t.input = s.input

/-- 40_bitcursor.md R85, R86: the bits taken one by one from an empty reader are the first bits of the stream,
MSB-first per byte, and exactly `ceil(b/8)` bytes are read for `b` bits. -/
def Obligations.UnpackedBitsAreReadOnDemand : Prop :=
  ∀ (s : State) (k : Nat), s.eng.pleft = 0 → k ≤ 8 * s.input.length →
    ∃ t : State, (List.range k).foldl
        (fun (acc : Option (List Bool × State)) _ =>
          acc.bind fun (bs, u) => u.nextBit.map fun (bit, v) => (bs ++ [bit], v))
        (some ([], s)) = some ((bitsOf s.input).take k, t) ∧
      t.input = s.input.drop (ceilDiv k 8) ∧ t.inCount = s.inCount + BitVec.ofNat 64 (ceilDiv k 8)

/-- 40_bitcursor.md R87: one bit into the decoder's output accumulator. -/
def Obligations.OutBitWritesEveryEighthBit : Prop :=
  ∀ (s : State) (bit : Bool), s.eng.ofill < 8 →
    (s.eng.ofill < 7 → s.outBit bit = (false, { s with eng := { s.eng with
      oacc := BitVec.ofNat 8 (2 * s.eng.oacc.toNat + bit.toNat), ofill := s.eng.ofill + 1 } })) ∧
    (s.eng.ofill = 7 → s.outBit bit = (decide (s.eng.emitted + 1 = s.origLen.toNat), { s with
      output := s.output ++ [BitVec.ofNat 8 (2 * s.eng.oacc.toNat + bit.toNat)]
      outCount := s.outCount + 1
      eng := { s.eng with oacc := 0, ofill := 0, emitted := s.eng.emitted + 1 } }))

/- The frequency analyser. -/

/-- 41_frequency.md R90, R91, R92: the symbol sequence has ceil(8n/w) members; the k-th full group is the value of its
w bits; a final partial group is padded with zeros on its low-order bits. -/
def Obligations.SymbolsTileTheInput : Prop :=
  ∀ (w : Nat) (b : List Byte), 1 ≤ w → w ≤ 8 →
    (symbols w b).length = ceilDiv (8 * b.length) w ∧
    (∀ k, k < 8 * b.length / w → (symbols w b)[k]? = some (val (slice (bitsOf b) (k * w) (k * w + w)))) ∧
    (8 * b.length % w ≠ 0 → (symbols w b)[8 * b.length / w]? =
      some (val ((bitsOf b).drop (8 * b.length / w * w) ++ List.replicate (w - 8 * b.length % w) false)))

/-- 41_frequency.md R93 "Result": FREQ counts every symbol of the sequence, and keeps its canonical form. -/
def Obligations.ObserveCountsSymbols : Prop :=
  ∀ (w : Nat) (b : List Byte),
    Freq.wf (observe w b) = true ∧ ∀ s, Freq.get (observe w b) s = (symbols w b).count s

/-- 41_frequency.md R94: the counts sum to ceil(8n/w), and the distinct symbols are none for an empty input and else
between 1 and min(2^w, M). -/
def Obligations.FrequenciesSumToSymbolCount : Prop :=
  ∀ (w : Nat) (b : List Byte), 1 ≤ w → w ≤ 8 →
    ((observe w b).map Prod.snd).sum = ceilDiv (8 * b.length) w ∧
    8 * b.length ≤ ((observe w b).map Prod.snd).sum * w ∧
    ((observe w b).map Prod.snd).sum * w < 8 * b.length + w ∧
    (b = [] → (observe w b).length = 0) ∧
    (b ≠ [] → 1 ≤ (observe w b).length ∧
      (observe w b).length ≤ min (2 ^ w) (ceilDiv (8 * b.length) w))

/- The tree and the code table. -/

/-- 42_tree.md R99, R100: from N ≥ 1 distinct symbols the build leaves one root, with the symbols and frequencies of FREQ
as its N leaves, N − 1 internal nodes, depth at most N − 1, every internal node the sum of its children. R99 is the spec's own
inference from R96 to R98. -/
def Obligations.BuiltTreeShape : Prop :=
  ∀ f : List (Nat × Nat), Freq.wf f = true → f ≠ [] →
    ∃ t : HuffTree, build f = [t] ∧ t.leaves.Perm f ∧ t.internals = f.length - 1 ∧ t.depth ≤ f.length - 1 ∧
      t.sums = true

/-- 42_tree.md R98: while merging, the work list stays ordered by frequency descending. -/
def Obligations.WorkListStaysOrdered : Prop :=
  ∀ (f : List (Nat × Nat)) (k : Nat),
    (mergeSteps k (initialWl f)).Pairwise fun a b => b.freq ≤ a.freq

/-- 42_tree.md R108 (a), the spec's own inference from R102: no code is a bit-prefix of another; and no two entries share
a symbol (R104). -/
def Obligations.CodesArePrefixFree : Prop :=
  ∀ (f : List (Nat × Nat)) (d e : Entry), Freq.wf f = true →
    d ∈ deriveDictionary (build f) → e ∈ deriveDictionary (build f) →
    (d.bits <+: e.bits ∨ d.sym = e.sym) → d = e

/-- 42_tree.md R104: every distinct symbol appears exactly once in the dictionary, with a code of 1 to max(1, N − 1)
bits whose value fits them. The bound of N − 1 bits is that of R99, the spec's own inference from R96 to R98. -/
def Obligations.DictionaryIsComplete : Prop :=
  ∀ f : List (Nat × Nat), Freq.wf f = true →
    ((deriveDictionary (build f)).map Entry.sym).Perm (f.map Prod.fst) ∧
    ∀ e ∈ deriveDictionary (build f), 1 ≤ e.len ∧ e.len ≤ max 1 (f.length - 1) ∧ e.code < 2 ^ e.len

/-- 42_tree.md R104: the explicit work stack of the listing gives the recursive pre-order walk. -/
def Obligations.StackWalkIsPreOrder : Prop :=
  ∀ (f : Nat) (l r : HuffTree),
    stackWalk (2 * (HuffTree.node f l r).internals + 1) [(.node f l r, 0, 0)] = deriveDictionary [.node f l r]

/-- 42_tree.md R103: a single distinct symbol gets the code (1, 0) in the dictionary and the code table, and each
occurrence counts one bit. -/
def Obligations.SingleSymbolCode : Prop :=
  ∀ s c : Nat, deriveDictionary (build [(s, c)]) = [⟨1, 0, s⟩] ∧
    codeLen (deriveDictionary (build [(s, c)])) s = 1 ∧ codeBits (deriveDictionary (build [(s, c)])) s = [false] ∧
    payloadLen [(s, c)] (deriveDictionary (build [(s, c)])) = c

/- COMPRESS. -/

/-- 44_compressor.md R136, R144: after the seven analysis phases and C_Select, WIDTH is the smallest width of smallest
estimate and DICT_COUNT its number of entries; no port is accessed (R135). -/
def Obligations.SelectionTakesTheFirstSmallest : Prop :=
  ∀ s : State, s.phase = .cAnalyse 2 →
    let t := engineRun 8 s
    t.width = BitVec.ofNat 8 (winner s.eng.ibuf) ∧
    t.dictCount = BitVec.ofNat 64 (observe (winner s.eng.ibuf) s.eng.ibuf).length ∧
    t.input = s.input ∧ t.output = s.output ∧
    2 ≤ winner s.eng.ibuf ∧ winner s.eng.ibuf ≤ 8 ∧
    ∀ w, 2 ≤ w → w ≤ 8 →
      candEstimate (winner s.eng.ibuf) s.eng.ibuf ≤ candEstimate w s.eng.ibuf ∧
      (w < winner s.eng.ibuf → candEstimate (winner s.eng.ibuf) s.eng.ibuf < candEstimate w s.eng.ibuf)

/-- 42_tree.md R107, 30_encoding.md R74: the container has exactly as many bytes as the estimate says. -/
def Obligations.EstimateIsExact : Prop :=
  ∀ (w : Nat) (b : List Byte), 1 ≤ w → w ≤ 8 →
    (containerAt w b).length = candEstimate w b ∧
    (containerAt w b).length = 17 + 20 * (observe w b).length + ceilDiv (payloadBits w b).length 8

/-- 44_compressor.md R137, R138: COMPRESS of an input within INPUT_CAP whose winning codes fit 64 bits ends DONE with the
container as its output and the registers R137 gives. -/
def Obligations.CompressWritesTheContainer : Prop :=
  ∀ (s : State) (b : List Byte), (s.state = .idle ∨ s.state = .done) → s.attached = some b →
    b.length ≤ s.inputCap.val → tooLong (candTable (winner b) b) = false → s.agenda = [cmd (encode .compress)] →
    ∃ (k : Nat) (t : State), Sys2Proof.core.run k s = .next t ∧
      t.agenda = [] ∧ t.state = .done ∧ t.phase = .idle ∧ t.output = container b ∧ t.input = [] ∧
      t.width = BitVec.ofNat 8 (winner b) ∧ t.origLen = BitVec.ofNat 64 b.length ∧
      t.dictCount = BitVec.ofNat 64 (candTable (winner b) b).length ∧
      t.inCount = BitVec.ofNat 64 b.length ∧ t.outCount = BitVec.ofNat 64 (candEstimate (winner b) b)

/-- 42_tree.md R105, 44_compressor.md R137: in C_Select, WIDTH and DICT_COUNT are the winner's; a code of more than 64 bits
raises CodeTooLong before any OutWrite, and otherwise C_Emit follows. -/
def Obligations.SelectionRefusesLongCodes : Prop :=
  ∀ s : State, s.phase = .cSelect →
    s.engineStep.width = BitVec.ofNat 8 s.eng.bestW ∧
    s.engineStep.dictCount = BitVec.ofNat 64 s.eng.bestTable.length ∧
    s.engineStep.output = s.output ∧ s.engineStep.input = s.input ∧
    ((∃ e ∈ s.eng.bestTable, 64 < e.len) → s.engineStep.state = .fault ∧ s.engineStep.cause = .codeTooLong ∧
      s.engineStep.detail = .noDetail ∧ s.engineStep.phase = .idle) ∧
    ((∀ e ∈ s.eng.bestTable, e.len ≤ 64) → s.engineStep.state = s.state ∧ s.engineStep.cause = s.cause ∧
      s.engineStep.phase = .cEmit)

/-- 44_compressor.md R134: an input of more than INPUT_CAP bytes ends in CapacityExceeded when byte INPUT_CAP + 1 arrives,
with nothing written and the rest of the stream unread. -/
def Obligations.CompressStopsAtCapacity : Prop :=
  ∀ (s : State) (b : List Byte), (s.state = .idle ∨ s.state = .done) → s.attached = some b →
    s.inputCap.val < b.length → s.agenda = [cmd (encode .compress)] →
    ∃ (k : Nat) (t : State), Sys2Proof.core.run k s = .next t ∧
      t.agenda = [] ∧ t.state = .fault ∧ t.cause = .capacityExceeded ∧ t.detail = .noDetail ∧ t.phase = .idle ∧
      t.output = [] ∧ t.outCount = 0 ∧ t.inCount = BitVec.ofNat 64 (s.inputCap.val + 1) ∧
      t.input = b.drop (s.inputCap.val + 1) ∧
      t.origLen = 0 ∧ t.width = 0 ∧ t.dictCount = 0

/- DECOMPRESS. -/

/-- 43_codec.md R115, R116: the first InRead of DECOMPRESS sets WIDTH, then checks it; an exhausted stream is
TruncHeader. -/
def Obligations.HeaderReadsAndChecksWidth : Prop :=
  ∀ s : State, s.phase = .dHeader → s.eng.recv = [] →
    (s.input = [] → s.engineStep = s.raiseFault .malformedContainer .truncHeader) ∧
    (∀ b rest, s.input = b :: rest →
      s.engineStep.width = b ∧ s.engineStep.inCount = s.inCount + 1 ∧ s.engineStep.input = rest ∧
      s.engineStep.output = s.output ∧
      ((b.toNat < 2 ∨ 8 < b.toNat) → s.engineStep.state = .fault ∧ s.engineStep.cause = .malformedContainer ∧
        s.engineStep.detail = .badWidth ∧ s.engineStep.phase = .idle) ∧
      ((2 ≤ b.toNat ∧ b.toNat ≤ 8) → s.engineStep.state = s.state ∧ s.engineStep.phase = .dHeader))

/-- 43_codec.md R117, R118, 30_encoding.md R68, R69: from a checked width byte w, the next 16 bytes set ORIG_LEN and
DICT_COUNT, big-endian; a stream that ends among them is TruncHeader; a count above 256 is DictTooLarge before any
entry is read; otherwise the first entry or, with N = 0, the payload follows. -/
def Obligations.HeaderReadsLengthAndCount : Prop :=
  ∀ (s : State) (w : Byte) (l c rest : List Byte), s.phase = .dHeader → s.state = .busy → s.eng.recv = [w] →
    l.length = 8 → c.length = 8 →
    (s.input = l ++ c ++ rest →
      (engineRun 16 s).origLen = BitVec.ofNat 64 (fromBe l) ∧ (engineRun 16 s).dictCount = BitVec.ofNat 64 (fromBe c) ∧
      (engineRun 16 s).inCount = s.inCount + 16 ∧ (engineRun 16 s).input = rest ∧
      (256 < fromBe c → (engineRun 16 s).state = .fault ∧ (engineRun 16 s).cause = .malformedContainer ∧
        (engineRun 16 s).detail = .dictTooLarge) ∧
      (fromBe c ≤ 256 → (engineRun 16 s).state = .busy ∧
        (engineRun 16 s).phase = if fromBe c = 0 then .dPayload else .dDict 0)) ∧
    (∀ part, part.length < 16 → s.input = part →
      (engineRun (part.length + 1) s).state = .fault ∧ (engineRun (part.length + 1) s).cause = .malformedContainer ∧
      (engineRun (part.length + 1) s).detail = .truncHeader ∧
      (engineRun (part.length + 1) s).inCount = s.inCount + BitVec.ofNat 64 part.length)

/-- 43_codec.md R119, R120, R121: entry i, read as `be_4(len) ++ be_8(code) ++ be_8(sym)`: BadEntry, then DupKey, else it
joins DICT and Lmax. -/
def Obligations.EntryIsReadAndChecked : Prop :=
  ∀ (s : State) (i len code sym : Nat) (rest : List Byte), s.phase = .dDict i → s.state = .busy → s.eng.recv = [] →
    len < 2 ^ 32 → code < 2 ^ 64 → sym < 2 ^ 64 → s.input = be len 4 ++ be code 8 ++ be sym 8 ++ rest →
    let t := engineRun 20 s
    t.input = rest ∧ t.inCount = s.inCount + 20 ∧ t.output = s.output ∧
    ((len = 0 ∨ 64 < len ∨ 2 ^ len ≤ code) →
      t.state = .fault ∧ t.cause = .malformedContainer ∧ t.detail = .badEntry ∧ t.phase = .idle) ∧
    (¬ (len = 0 ∨ 64 < len ∨ 2 ^ len ≤ code) → (∃ e ∈ s.eng.dict, e.len = len ∧ e.code = code) →
      t.state = .fault ∧ t.cause = .malformedContainer ∧ t.detail = .dupKey ∧ t.phase = .idle) ∧
    (¬ (len = 0 ∨ 64 < len ∨ 2 ^ len ≤ code) → (¬ ∃ e ∈ s.eng.dict, e.len = len ∧ e.code = code) →
      t.state = .busy ∧ t.eng.dict = s.eng.dict ++ [⟨len, code, sym⟩] ∧ t.eng.lmax = max s.eng.lmax len ∧
      t.phase = if i + 1 < s.dictCount.toNat then .dDict (i + 1) else .dPayload)

/-- 43_codec.md R119: a stream that ends inside an entry is TruncDict, with every byte of it counted. -/
def Obligations.TruncatedEntryFaults : Prop :=
  ∀ (s : State) (i : Nat), s.phase = .dDict i → s.eng.recv = [] → s.input.length < 20 →
    let t := engineRun (s.input.length + 1) s
    t.state = .fault ∧ t.cause = .malformedContainer ∧ t.detail = .truncDict ∧ t.phase = .idle ∧
    t.inCount = s.inCount + BitVec.ofNat 64 s.input.length ∧ t.output = s.output

/-- 43_codec.md R123 to R128: one engine step in D_Payload. While a matched symbol is going out, its next bit goes through
`outBit`, and the command ends DONE when the answer is true. Otherwise one payload bit: the stream's end is TruncPayload; a
hit resets the key and hands over the symbol's low w bits, MSB-first; a miss at Lmax bits or more is UnknownCode; another
miss keeps the longer key. -/
def Obligations.PayloadBitExtendsTheKey : Prop :=
  ∀ s : State, s.phase = .dPayload → s.origLen ≠ 0 →
    (∀ bit bits, s.eng.pendBits = bit :: bits →
      let r := State.outBit bit { s with eng := { s.eng with pendBits := bits } }
      (r.1 = true → s.engineStep = { r.2 with state := .done, phase := .idle }) ∧
      (r.1 = false → s.engineStep = r.2)) ∧
    (s.eng.pendBits = [] → s.nextBit = none → s.engineStep = s.raiseFault .malformedContainer .truncPayload) ∧
    (∀ bit u, s.eng.pendBits = [] → s.nextBit = some (bit, u) →
      (∀ e ∈ s.eng.dict, (∀ d ∈ s.eng.dict, d.len = e.len → d.code = e.code → d = e) →
        e.len = s.eng.klen + 1 → e.code = 2 * s.eng.kval + bit.toNat →
        s.engineStep = { u with eng := { u.eng with
          klen := 0, kval := 0, pendBits := bitstring e.sym s.width.toNat } }) ∧
      ((¬ ∃ e ∈ s.eng.dict, e.len = s.eng.klen + 1 ∧ e.code = 2 * s.eng.kval + bit.toNat) →
        (s.eng.lmax ≤ s.eng.klen + 1 → s.engineStep.state = .fault ∧ s.engineStep.cause = .unknownCode ∧
          s.engineStep.detail = .noDetail ∧ s.engineStep.output = s.output) ∧
        (s.eng.klen + 1 < s.eng.lmax → s.engineStep = { u with eng := { u.eng with
          klen := s.eng.klen + 1, kval := 2 * s.eng.kval + bit.toNat } })))

/-- 43_codec.md R122: with L = 0 the payload phase ends DONE without reading a byte. -/
def Obligations.ZeroLengthReadsNoPayload : Prop :=
  ∀ s : State, s.phase = .dPayload → s.origLen = 0 →
    s.engineStep = { s with state := .done, phase := .idle }

/-- 43_codec.md R128: a DECOMPRESS that ends DONE has written exactly the L bytes its container declares. -/
def Obligations.DecompressWritesExactlyTheDeclaredLength : Prop :=
  ∀ (s t u : State) (k : Nat), (s.state = .idle ∨ s.state = .done) → exec .decompress s = .next t →
    engineRun k t = u → u.state = .done → u.output.length = u.origLen.toNat ∧ u.outCount = u.origLen

/- The engine as a whole. -/

/-- 10_state.md R23, R24, 20_memory.md R52, R54: an engine step makes at most one port access; IN_COUNT counts a
byte taken and OUT_COUNT a byte written. While the registers are zeroed by nothing, they count nothing else. -/
def Obligations.EngineStepMakesOnePortAccess : Prop :=
  ∀ s : State,
    (s.engineStep.input = s.input ∧ s.engineStep.inCount = s.inCount ∧
      s.engineStep.output = s.output ∧ s.engineStep.outCount = s.outCount) ∨
    (∃ b, s.input = b :: s.engineStep.input ∧ s.engineStep.inCount = s.inCount + 1 ∧
      s.engineStep.output = s.output ∧ s.engineStep.outCount = s.outCount) ∨
    (∃ b, s.engineStep.output = s.output ++ [b] ∧ s.engineStep.outCount = s.outCount + 1 ∧
      s.engineStep.input = s.input ∧ s.engineStep.inCount = s.inCount)

/-- 44_compressor.md R134, R135, R137: COMPRESS reads in C_Read alone and writes in C_Emit alone, so every InRead precedes
its first OutWrite. -/
def Obligations.CompressReadsBeforeItWrites : Prop :=
  ∀ s : State,
    (s.phase = .cRead → s.engineStep.output = s.output) ∧
    ((∃ w, s.phase = .cAnalyse w) ∨ s.phase = .cSelect →
      s.engineStep.output = s.output ∧ s.engineStep.input = s.input) ∧
    (s.phase = .cEmit → s.engineStep.input = s.input ∧
      (s.engineStep.phase = .cEmit ∨ s.engineStep.phase = .idle))

/-- 10_state.md R16: the phase advances only forward, each phase being left for those its row names. -/
def Obligations.PhasesAdvanceForward : Prop :=
  ∀ s : State, MachineInv s →
    match s.phase with
    | .idle => s.engineStep.phase = .idle
    | .cRead => s.engineStep.phase ∈ [.cRead, .cAnalyse 2, .idle]
    | .cAnalyse w => s.engineStep.phase = if w = 8 then .cSelect else .cAnalyse (w + 1)
    | .cSelect => s.engineStep.phase ∈ [.cEmit, .idle]
    | .cEmit => s.engineStep.phase ∈ [.cEmit, .idle]
    | .dHeader => s.engineStep.phase ∈ [.dHeader, .dDict 0, .dPayload, .idle]
    | .dDict i => s.engineStep.phase ∈ [.dDict i, .dDict (i + 1), .dPayload, .idle]
    | .dPayload => s.engineStep.phase ∈ [.dPayload, .idle]

/-- 10_state.md R28: outside BUSY, a step changes no result register unless it is a reset or starts a COMPRESS or
DECOMPRESS. -/
def Obligations.ResultRegistersAreKept : Prop :=
  ∀ s t : State, MachineInv s → s.state ≠ .busy → step s = .next t →
    (t.width = s.width ∧ t.origLen = s.origLen ∧ t.dictCount = s.dictCount ∧ t.inCount = s.inCount ∧
      t.outCount = s.outCount) ∨
    (∃ rest, s.agenda = .reset :: rest) ∨
    (t.state = .busy ∧ t.width = 0 ∧ t.origLen = 0 ∧ t.dictCount = 0 ∧ t.inCount = 0 ∧ t.outCount = 0 ∧
      ∃ (w : Word) (rest : List Event), s.agenda = .write 64 0x00 w :: rest ∧
        (decode w = .compress ∨ decode w = .decompress))

/-- The invariant holds after reset. -/
def Obligations.InvariantAtReset : Prop := MachineInv State.reset

/-- Every step of host or engine keeps the invariant. -/
def Obligations.InvariantIsKept : Prop :=
  ∀ s t : State, MachineInv s → step s = .next t → MachineInv t

/-- 10_state.md R39: nothing a host observes depends on the internal state between commands. Two states that differ in
it alone, with no command executing, answer every agenda alike, up to that internal state. -/
def Obligations.InternalStateIsNeverObserved : Prop :=
  ∀ (s t : State) (k : Nat), s.phase = .idle → SameOutside s t →
    SameOutcome (Sys2Proof.core.run k s) (Sys2Proof.core.run k t)

/-- 43_codec.md R130, 70_reset_and_hazards.md R178, R180: every command ends. From any state of the invariant, BUSY or
not, the engine left alone reaches a state that is not BUSY. It rests on every port access completing (assumption log
20, DEDUCED). -/
def Obligations.EveryCommandEnds : Prop :=
  ∀ s : State, MachineInv s → ∃ k, (engineRun k s).state ≠ .busy

/-- 44_compressor.md R143, the round trip: where COMPRESS of B ends DONE with output C, DECOMPRESS of C ends DONE with
output B, every byte of C taken. -/
def Obligations.DecompressUndoesCompress : Prop :=
  ∀ (s t u : State) (b : List Byte) (k : Nat), (s.state = .idle ∨ s.state = .done) → s.attached = some b →
    s.agenda = [cmd (encode .compress)] → Sys2Proof.core.run k s = .next t → t.state = .done → t.agenda = [] →
    (u.state = .idle ∨ u.state = .done) → u.attached = some t.output → u.agenda = [cmd (encode .decompress)] →
    ∃ (j : Nat) (v : State), Sys2Proof.core.run j u = .next v ∧ v.agenda = [] ∧ v.state = .done ∧ v.output = b ∧
      v.input = []

/-- 30_encoding.md R79, 60_exceptions.md R149: COMPRESS of no bytes writes this 17-byte container, and DECOMPRESS of it
writes no byte; both end DONE. -/
def Obligations.EmptyInputRoundTrips : Prop :=
  ∀ s : State, (s.state = .idle ∨ s.state = .done) →
    (s.attached = some [] → s.agenda = [cmd (encode .compress)] →
      ∃ (k : Nat) (t : State), Sys2Proof.core.run k s = .next t ∧ t.agenda = [] ∧ t.state = .done ∧
        t.output = 2 :: List.replicate 16 0) ∧
    (s.attached = some (2 :: List.replicate 16 0) → s.agenda = [cmd (encode .decompress)] →
      ∃ (k : Nat) (t : State), Sys2Proof.core.run k s = .next t ∧ t.agenda = [] ∧ t.state = .done ∧ t.output = [])

/-- 30_encoding.md R65: `wait` after a started command comes to an end, with STATE no longer BUSY and the STATUS the
host read last showing so. -/
def Obligations.WaitSeesTheEnd : Prop :=
  ∀ s : State, MachineInv s → s.agenda = [.wait] →
    ∃ (k : Nat) (t : State), Sys2Proof.core.run k s = .next t ∧ t.state ≠ .busy ∧ t.agenda = [] ∧
      t.rdata = some (t.regValue .status)

/-- 70_reset_and_hazards.md R170, 93_implementation_defined.md U7: a stream is attached outside BUSY, and refused while
BUSY. -/
def Obligations.StreamsAreAttachedBetweenCommands : Prop :=
  ∀ (s : State) (b : List Byte) (rest : List Event), s.agenda = .attach b :: rest →
    (s.state ≠ .busy → step s = .next { s with agenda := rest, attached := some b }) ∧
    (s.state = .busy → step s = .refused .streamChangedWhileBusy)
end

