-- ==== Sys2Proof/Laws/State.lean ====
section
/-! SUPPORT. One lemma per field per named update of State: what the field is afterwards. No later proof unfolds
a record update. -/

namespace Sys2Proof.Machine

variable (s : State)

@[simp] theorem State.setPhase_state (p : Phase) : (s.setPhase p).state = s.state := rfl
@[simp] theorem State.setPhase_cause (p : Phase) : (s.setPhase p).cause = s.cause := rfl
@[simp] theorem State.setPhase_detail (p : Phase) : (s.setPhase p).detail = s.detail := rfl
@[simp] theorem State.setPhase_width (p : Phase) : (s.setPhase p).width = s.width := rfl
@[simp] theorem State.setPhase_origLen (p : Phase) : (s.setPhase p).origLen = s.origLen := rfl
@[simp] theorem State.setPhase_dictCount (p : Phase) : (s.setPhase p).dictCount = s.dictCount := rfl
@[simp] theorem State.setPhase_inCount (p : Phase) : (s.setPhase p).inCount = s.inCount := rfl
@[simp] theorem State.setPhase_outCount (p : Phase) : (s.setPhase p).outCount = s.outCount := rfl
@[simp] theorem State.setPhase_inputCap (p : Phase) : (s.setPhase p).inputCap = s.inputCap := rfl
@[simp] theorem State.setPhase_phase (p : Phase) : (s.setPhase p).phase = p := rfl
@[simp] theorem State.setPhase_eng (p : Phase) : (s.setPhase p).eng = s.eng := rfl
@[simp] theorem State.setPhase_input (p : Phase) : (s.setPhase p).input = s.input := rfl
@[simp] theorem State.setPhase_output (p : Phase) : (s.setPhase p).output = s.output := rfl
@[simp] theorem State.setPhase_attached (p : Phase) : (s.setPhase p).attached = s.attached := rfl
@[simp] theorem State.setPhase_agenda (p : Phase) : (s.setPhase p).agenda = s.agenda := rfl
@[simp] theorem State.setPhase_rdata (p : Phase) : (s.setPhase p).rdata = s.rdata := rfl
@[simp] theorem State.setPhase_freeCtr (p : Phase) : (s.setPhase p).freeCtr = s.freeCtr := rfl

@[simp] theorem State.setStatus_state (st : RunState) (c : Cause) (d : Detail) : (s.setStatus st c d).state = st := rfl
@[simp] theorem State.setStatus_cause (st : RunState) (c : Cause) (d : Detail) : (s.setStatus st c d).cause = c := rfl
@[simp] theorem State.setStatus_detail (st : RunState) (c : Cause) (d : Detail) : (s.setStatus st c d).detail = d := rfl
@[simp] theorem State.setStatus_width (st : RunState) (c : Cause) (d : Detail) : (s.setStatus st c d).width = s.width := rfl
@[simp] theorem State.setStatus_origLen (st : RunState) (c : Cause) (d : Detail) : (s.setStatus st c d).origLen = s.origLen := rfl
@[simp] theorem State.setStatus_dictCount (st : RunState) (c : Cause) (d : Detail) : (s.setStatus st c d).dictCount = s.dictCount := rfl
@[simp] theorem State.setStatus_inCount (st : RunState) (c : Cause) (d : Detail) : (s.setStatus st c d).inCount = s.inCount := rfl
@[simp] theorem State.setStatus_outCount (st : RunState) (c : Cause) (d : Detail) : (s.setStatus st c d).outCount = s.outCount := rfl
@[simp] theorem State.setStatus_inputCap (st : RunState) (c : Cause) (d : Detail) : (s.setStatus st c d).inputCap = s.inputCap := rfl
@[simp] theorem State.setStatus_phase (st : RunState) (c : Cause) (d : Detail) : (s.setStatus st c d).phase = s.phase := rfl
@[simp] theorem State.setStatus_eng (st : RunState) (c : Cause) (d : Detail) : (s.setStatus st c d).eng = s.eng := rfl
@[simp] theorem State.setStatus_input (st : RunState) (c : Cause) (d : Detail) : (s.setStatus st c d).input = s.input := rfl
@[simp] theorem State.setStatus_output (st : RunState) (c : Cause) (d : Detail) : (s.setStatus st c d).output = s.output := rfl
@[simp] theorem State.setStatus_attached (st : RunState) (c : Cause) (d : Detail) : (s.setStatus st c d).attached = s.attached := rfl
@[simp] theorem State.setStatus_agenda (st : RunState) (c : Cause) (d : Detail) : (s.setStatus st c d).agenda = s.agenda := rfl
@[simp] theorem State.setStatus_rdata (st : RunState) (c : Cause) (d : Detail) : (s.setStatus st c d).rdata = s.rdata := rfl
@[simp] theorem State.setStatus_freeCtr (st : RunState) (c : Cause) (d : Detail) : (s.setStatus st c d).freeCtr = s.freeCtr := rfl

@[simp] theorem State.setWidth_state (w : Byte) : (s.setWidth w).state = s.state := rfl
@[simp] theorem State.setWidth_cause (w : Byte) : (s.setWidth w).cause = s.cause := rfl
@[simp] theorem State.setWidth_detail (w : Byte) : (s.setWidth w).detail = s.detail := rfl
@[simp] theorem State.setWidth_width (w : Byte) : (s.setWidth w).width = w := rfl
@[simp] theorem State.setWidth_origLen (w : Byte) : (s.setWidth w).origLen = s.origLen := rfl
@[simp] theorem State.setWidth_dictCount (w : Byte) : (s.setWidth w).dictCount = s.dictCount := rfl
@[simp] theorem State.setWidth_inCount (w : Byte) : (s.setWidth w).inCount = s.inCount := rfl
@[simp] theorem State.setWidth_outCount (w : Byte) : (s.setWidth w).outCount = s.outCount := rfl
@[simp] theorem State.setWidth_inputCap (w : Byte) : (s.setWidth w).inputCap = s.inputCap := rfl
@[simp] theorem State.setWidth_phase (w : Byte) : (s.setWidth w).phase = s.phase := rfl
@[simp] theorem State.setWidth_eng (w : Byte) : (s.setWidth w).eng = s.eng := rfl
@[simp] theorem State.setWidth_input (w : Byte) : (s.setWidth w).input = s.input := rfl
@[simp] theorem State.setWidth_output (w : Byte) : (s.setWidth w).output = s.output := rfl
@[simp] theorem State.setWidth_attached (w : Byte) : (s.setWidth w).attached = s.attached := rfl
@[simp] theorem State.setWidth_agenda (w : Byte) : (s.setWidth w).agenda = s.agenda := rfl
@[simp] theorem State.setWidth_rdata (w : Byte) : (s.setWidth w).rdata = s.rdata := rfl
@[simp] theorem State.setWidth_freeCtr (w : Byte) : (s.setWidth w).freeCtr = s.freeCtr := rfl

@[simp] theorem State.setOrigLen_state (v : Nat) : (s.setOrigLen v).state = s.state := rfl
@[simp] theorem State.setOrigLen_cause (v : Nat) : (s.setOrigLen v).cause = s.cause := rfl
@[simp] theorem State.setOrigLen_detail (v : Nat) : (s.setOrigLen v).detail = s.detail := rfl
@[simp] theorem State.setOrigLen_width (v : Nat) : (s.setOrigLen v).width = s.width := rfl
@[simp] theorem State.setOrigLen_origLen (v : Nat) : (s.setOrigLen v).origLen = BitVec.ofNat 64 v := rfl
@[simp] theorem State.setOrigLen_dictCount (v : Nat) : (s.setOrigLen v).dictCount = s.dictCount := rfl
@[simp] theorem State.setOrigLen_inCount (v : Nat) : (s.setOrigLen v).inCount = s.inCount := rfl
@[simp] theorem State.setOrigLen_outCount (v : Nat) : (s.setOrigLen v).outCount = s.outCount := rfl
@[simp] theorem State.setOrigLen_inputCap (v : Nat) : (s.setOrigLen v).inputCap = s.inputCap := rfl
@[simp] theorem State.setOrigLen_phase (v : Nat) : (s.setOrigLen v).phase = s.phase := rfl
@[simp] theorem State.setOrigLen_eng (v : Nat) : (s.setOrigLen v).eng = s.eng := rfl
@[simp] theorem State.setOrigLen_input (v : Nat) : (s.setOrigLen v).input = s.input := rfl
@[simp] theorem State.setOrigLen_output (v : Nat) : (s.setOrigLen v).output = s.output := rfl
@[simp] theorem State.setOrigLen_attached (v : Nat) : (s.setOrigLen v).attached = s.attached := rfl
@[simp] theorem State.setOrigLen_agenda (v : Nat) : (s.setOrigLen v).agenda = s.agenda := rfl
@[simp] theorem State.setOrigLen_rdata (v : Nat) : (s.setOrigLen v).rdata = s.rdata := rfl
@[simp] theorem State.setOrigLen_freeCtr (v : Nat) : (s.setOrigLen v).freeCtr = s.freeCtr := rfl

@[simp] theorem State.setDictCount_state (v : Nat) : (s.setDictCount v).state = s.state := rfl
@[simp] theorem State.setDictCount_cause (v : Nat) : (s.setDictCount v).cause = s.cause := rfl
@[simp] theorem State.setDictCount_detail (v : Nat) : (s.setDictCount v).detail = s.detail := rfl
@[simp] theorem State.setDictCount_width (v : Nat) : (s.setDictCount v).width = s.width := rfl
@[simp] theorem State.setDictCount_origLen (v : Nat) : (s.setDictCount v).origLen = s.origLen := rfl
@[simp] theorem State.setDictCount_dictCount (v : Nat) : (s.setDictCount v).dictCount = BitVec.ofNat 64 v := rfl
@[simp] theorem State.setDictCount_inCount (v : Nat) : (s.setDictCount v).inCount = s.inCount := rfl
@[simp] theorem State.setDictCount_outCount (v : Nat) : (s.setDictCount v).outCount = s.outCount := rfl
@[simp] theorem State.setDictCount_inputCap (v : Nat) : (s.setDictCount v).inputCap = s.inputCap := rfl
@[simp] theorem State.setDictCount_phase (v : Nat) : (s.setDictCount v).phase = s.phase := rfl
@[simp] theorem State.setDictCount_eng (v : Nat) : (s.setDictCount v).eng = s.eng := rfl
@[simp] theorem State.setDictCount_input (v : Nat) : (s.setDictCount v).input = s.input := rfl
@[simp] theorem State.setDictCount_output (v : Nat) : (s.setDictCount v).output = s.output := rfl
@[simp] theorem State.setDictCount_attached (v : Nat) : (s.setDictCount v).attached = s.attached := rfl
@[simp] theorem State.setDictCount_agenda (v : Nat) : (s.setDictCount v).agenda = s.agenda := rfl
@[simp] theorem State.setDictCount_rdata (v : Nat) : (s.setDictCount v).rdata = s.rdata := rfl
@[simp] theorem State.setDictCount_freeCtr (v : Nat) : (s.setDictCount v).freeCtr = s.freeCtr := rfl

@[simp] theorem State.countIn_state : (s.countIn).state = s.state := rfl
@[simp] theorem State.countIn_cause : (s.countIn).cause = s.cause := rfl
@[simp] theorem State.countIn_detail : (s.countIn).detail = s.detail := rfl
@[simp] theorem State.countIn_width : (s.countIn).width = s.width := rfl
@[simp] theorem State.countIn_origLen : (s.countIn).origLen = s.origLen := rfl
@[simp] theorem State.countIn_dictCount : (s.countIn).dictCount = s.dictCount := rfl
@[simp] theorem State.countIn_inCount : (s.countIn).inCount = s.inCount + 1 := rfl
@[simp] theorem State.countIn_outCount : (s.countIn).outCount = s.outCount := rfl
@[simp] theorem State.countIn_inputCap : (s.countIn).inputCap = s.inputCap := rfl
@[simp] theorem State.countIn_phase : (s.countIn).phase = s.phase := rfl
@[simp] theorem State.countIn_eng : (s.countIn).eng = s.eng := rfl
@[simp] theorem State.countIn_input : (s.countIn).input = s.input := rfl
@[simp] theorem State.countIn_output : (s.countIn).output = s.output := rfl
@[simp] theorem State.countIn_attached : (s.countIn).attached = s.attached := rfl
@[simp] theorem State.countIn_agenda : (s.countIn).agenda = s.agenda := rfl
@[simp] theorem State.countIn_rdata : (s.countIn).rdata = s.rdata := rfl
@[simp] theorem State.countIn_freeCtr : (s.countIn).freeCtr = s.freeCtr := rfl

@[simp] theorem State.countOut_state : (s.countOut).state = s.state := rfl
@[simp] theorem State.countOut_cause : (s.countOut).cause = s.cause := rfl
@[simp] theorem State.countOut_detail : (s.countOut).detail = s.detail := rfl
@[simp] theorem State.countOut_width : (s.countOut).width = s.width := rfl
@[simp] theorem State.countOut_origLen : (s.countOut).origLen = s.origLen := rfl
@[simp] theorem State.countOut_dictCount : (s.countOut).dictCount = s.dictCount := rfl
@[simp] theorem State.countOut_inCount : (s.countOut).inCount = s.inCount := rfl
@[simp] theorem State.countOut_outCount : (s.countOut).outCount = s.outCount + 1 := rfl
@[simp] theorem State.countOut_inputCap : (s.countOut).inputCap = s.inputCap := rfl
@[simp] theorem State.countOut_phase : (s.countOut).phase = s.phase := rfl
@[simp] theorem State.countOut_eng : (s.countOut).eng = s.eng := rfl
@[simp] theorem State.countOut_input : (s.countOut).input = s.input := rfl
@[simp] theorem State.countOut_output : (s.countOut).output = s.output := rfl
@[simp] theorem State.countOut_attached : (s.countOut).attached = s.attached := rfl
@[simp] theorem State.countOut_agenda : (s.countOut).agenda = s.agenda := rfl
@[simp] theorem State.countOut_rdata : (s.countOut).rdata = s.rdata := rfl
@[simp] theorem State.countOut_freeCtr : (s.countOut).freeCtr = s.freeCtr := rfl

@[simp] theorem State.setEng_state (e : Engine) : (s.setEng e).state = s.state := rfl
@[simp] theorem State.setEng_cause (e : Engine) : (s.setEng e).cause = s.cause := rfl
@[simp] theorem State.setEng_detail (e : Engine) : (s.setEng e).detail = s.detail := rfl
@[simp] theorem State.setEng_width (e : Engine) : (s.setEng e).width = s.width := rfl
@[simp] theorem State.setEng_origLen (e : Engine) : (s.setEng e).origLen = s.origLen := rfl
@[simp] theorem State.setEng_dictCount (e : Engine) : (s.setEng e).dictCount = s.dictCount := rfl
@[simp] theorem State.setEng_inCount (e : Engine) : (s.setEng e).inCount = s.inCount := rfl
@[simp] theorem State.setEng_outCount (e : Engine) : (s.setEng e).outCount = s.outCount := rfl
@[simp] theorem State.setEng_inputCap (e : Engine) : (s.setEng e).inputCap = s.inputCap := rfl
@[simp] theorem State.setEng_phase (e : Engine) : (s.setEng e).phase = s.phase := rfl
@[simp] theorem State.setEng_eng (e : Engine) : (s.setEng e).eng = e := rfl
@[simp] theorem State.setEng_input (e : Engine) : (s.setEng e).input = s.input := rfl
@[simp] theorem State.setEng_output (e : Engine) : (s.setEng e).output = s.output := rfl
@[simp] theorem State.setEng_attached (e : Engine) : (s.setEng e).attached = s.attached := rfl
@[simp] theorem State.setEng_agenda (e : Engine) : (s.setEng e).agenda = s.agenda := rfl
@[simp] theorem State.setEng_rdata (e : Engine) : (s.setEng e).rdata = s.rdata := rfl
@[simp] theorem State.setEng_freeCtr (e : Engine) : (s.setEng e).freeCtr = s.freeCtr := rfl

@[simp] theorem State.outWrite_state (b : Byte) : (s.outWrite b).state = s.state := rfl
@[simp] theorem State.outWrite_cause (b : Byte) : (s.outWrite b).cause = s.cause := rfl
@[simp] theorem State.outWrite_detail (b : Byte) : (s.outWrite b).detail = s.detail := rfl
@[simp] theorem State.outWrite_width (b : Byte) : (s.outWrite b).width = s.width := rfl
@[simp] theorem State.outWrite_origLen (b : Byte) : (s.outWrite b).origLen = s.origLen := rfl
@[simp] theorem State.outWrite_dictCount (b : Byte) : (s.outWrite b).dictCount = s.dictCount := rfl
@[simp] theorem State.outWrite_inCount (b : Byte) : (s.outWrite b).inCount = s.inCount := rfl
@[simp] theorem State.outWrite_outCount (b : Byte) : (s.outWrite b).outCount = s.outCount := rfl
@[simp] theorem State.outWrite_inputCap (b : Byte) : (s.outWrite b).inputCap = s.inputCap := rfl
@[simp] theorem State.outWrite_phase (b : Byte) : (s.outWrite b).phase = s.phase := rfl
@[simp] theorem State.outWrite_eng (b : Byte) : (s.outWrite b).eng = s.eng := rfl
@[simp] theorem State.outWrite_input (b : Byte) : (s.outWrite b).input = s.input := rfl
@[simp] theorem State.outWrite_output (b : Byte) : (s.outWrite b).output = s.output ++ [b] := rfl
@[simp] theorem State.outWrite_attached (b : Byte) : (s.outWrite b).attached = s.attached := rfl
@[simp] theorem State.outWrite_agenda (b : Byte) : (s.outWrite b).agenda = s.agenda := rfl
@[simp] theorem State.outWrite_rdata (b : Byte) : (s.outWrite b).rdata = s.rdata := rfl
@[simp] theorem State.outWrite_freeCtr (b : Byte) : (s.outWrite b).freeCtr = s.freeCtr := rfl

@[simp] theorem State.emitByte_state (b : Byte) : (s.emitByte b).state = s.state := rfl
@[simp] theorem State.emitByte_cause (b : Byte) : (s.emitByte b).cause = s.cause := rfl
@[simp] theorem State.emitByte_detail (b : Byte) : (s.emitByte b).detail = s.detail := rfl
@[simp] theorem State.emitByte_width (b : Byte) : (s.emitByte b).width = s.width := rfl
@[simp] theorem State.emitByte_origLen (b : Byte) : (s.emitByte b).origLen = s.origLen := rfl
@[simp] theorem State.emitByte_dictCount (b : Byte) : (s.emitByte b).dictCount = s.dictCount := rfl
@[simp] theorem State.emitByte_inCount (b : Byte) : (s.emitByte b).inCount = s.inCount := rfl
@[simp] theorem State.emitByte_outCount (b : Byte) : (s.emitByte b).outCount = s.outCount + 1 := rfl
@[simp] theorem State.emitByte_inputCap (b : Byte) : (s.emitByte b).inputCap = s.inputCap := rfl
@[simp] theorem State.emitByte_phase (b : Byte) : (s.emitByte b).phase = s.phase := rfl
@[simp] theorem State.emitByte_eng (b : Byte) : (s.emitByte b).eng = s.eng := rfl
@[simp] theorem State.emitByte_input (b : Byte) : (s.emitByte b).input = s.input := rfl
@[simp] theorem State.emitByte_output (b : Byte) : (s.emitByte b).output = s.output ++ [b] := rfl
@[simp] theorem State.emitByte_attached (b : Byte) : (s.emitByte b).attached = s.attached := rfl
@[simp] theorem State.emitByte_agenda (b : Byte) : (s.emitByte b).agenda = s.agenda := rfl
@[simp] theorem State.emitByte_rdata (b : Byte) : (s.emitByte b).rdata = s.rdata := rfl
@[simp] theorem State.emitByte_freeCtr (b : Byte) : (s.emitByte b).freeCtr = s.freeCtr := rfl

@[simp] theorem State.clearResults_state : (s.clearResults).state = s.state := rfl
@[simp] theorem State.clearResults_cause : (s.clearResults).cause = s.cause := rfl
@[simp] theorem State.clearResults_detail : (s.clearResults).detail = s.detail := rfl
@[simp] theorem State.clearResults_width : (s.clearResults).width = 0 := rfl
@[simp] theorem State.clearResults_origLen : (s.clearResults).origLen = 0 := rfl
@[simp] theorem State.clearResults_dictCount : (s.clearResults).dictCount = 0 := rfl
@[simp] theorem State.clearResults_inCount : (s.clearResults).inCount = 0 := rfl
@[simp] theorem State.clearResults_outCount : (s.clearResults).outCount = 0 := rfl
@[simp] theorem State.clearResults_inputCap : (s.clearResults).inputCap = s.inputCap := rfl
@[simp] theorem State.clearResults_phase : (s.clearResults).phase = s.phase := rfl
@[simp] theorem State.clearResults_eng : (s.clearResults).eng = s.eng := rfl
@[simp] theorem State.clearResults_input : (s.clearResults).input = s.input := rfl
@[simp] theorem State.clearResults_output : (s.clearResults).output = s.output := rfl
@[simp] theorem State.clearResults_attached : (s.clearResults).attached = s.attached := rfl
@[simp] theorem State.clearResults_agenda : (s.clearResults).agenda = s.agenda := rfl
@[simp] theorem State.clearResults_rdata : (s.clearResults).rdata = s.rdata := rfl
@[simp] theorem State.clearResults_freeCtr : (s.clearResults).freeCtr = s.freeCtr := rfl

@[simp] theorem State.raiseFault_state (c : Cause) (d : Detail) : (s.raiseFault c d).state = .fault := rfl
@[simp] theorem State.raiseFault_cause (c : Cause) (d : Detail) : (s.raiseFault c d).cause = c := rfl
@[simp] theorem State.raiseFault_detail (c : Cause) (d : Detail) : (s.raiseFault c d).detail = d := rfl
@[simp] theorem State.raiseFault_width (c : Cause) (d : Detail) : (s.raiseFault c d).width = s.width := rfl
@[simp] theorem State.raiseFault_origLen (c : Cause) (d : Detail) : (s.raiseFault c d).origLen = s.origLen := rfl
@[simp] theorem State.raiseFault_dictCount (c : Cause) (d : Detail) : (s.raiseFault c d).dictCount = s.dictCount := rfl
@[simp] theorem State.raiseFault_inCount (c : Cause) (d : Detail) : (s.raiseFault c d).inCount = s.inCount := rfl
@[simp] theorem State.raiseFault_outCount (c : Cause) (d : Detail) : (s.raiseFault c d).outCount = s.outCount := rfl
@[simp] theorem State.raiseFault_inputCap (c : Cause) (d : Detail) : (s.raiseFault c d).inputCap = s.inputCap := rfl
@[simp] theorem State.raiseFault_phase (c : Cause) (d : Detail) : (s.raiseFault c d).phase = .idle := rfl
@[simp] theorem State.raiseFault_eng (c : Cause) (d : Detail) : (s.raiseFault c d).eng = s.eng := rfl
@[simp] theorem State.raiseFault_input (c : Cause) (d : Detail) : (s.raiseFault c d).input = s.input := rfl
@[simp] theorem State.raiseFault_output (c : Cause) (d : Detail) : (s.raiseFault c d).output = s.output := rfl
@[simp] theorem State.raiseFault_attached (c : Cause) (d : Detail) : (s.raiseFault c d).attached = s.attached := rfl
@[simp] theorem State.raiseFault_agenda (c : Cause) (d : Detail) : (s.raiseFault c d).agenda = s.agenda := rfl
@[simp] theorem State.raiseFault_rdata (c : Cause) (d : Detail) : (s.raiseFault c d).rdata = s.rdata := rfl
@[simp] theorem State.raiseFault_freeCtr (c : Cause) (d : Detail) : (s.raiseFault c d).freeCtr = s.freeCtr := rfl

@[simp] theorem State.clearStatus_state : (s.clearStatus).state = .idle := rfl
@[simp] theorem State.clearStatus_cause : (s.clearStatus).cause = .noFault := rfl
@[simp] theorem State.clearStatus_detail : (s.clearStatus).detail = .noDetail := rfl
@[simp] theorem State.clearStatus_width : (s.clearStatus).width = s.width := rfl
@[simp] theorem State.clearStatus_origLen : (s.clearStatus).origLen = s.origLen := rfl
@[simp] theorem State.clearStatus_dictCount : (s.clearStatus).dictCount = s.dictCount := rfl
@[simp] theorem State.clearStatus_inCount : (s.clearStatus).inCount = s.inCount := rfl
@[simp] theorem State.clearStatus_outCount : (s.clearStatus).outCount = s.outCount := rfl
@[simp] theorem State.clearStatus_inputCap : (s.clearStatus).inputCap = s.inputCap := rfl
@[simp] theorem State.clearStatus_phase : (s.clearStatus).phase = s.phase := rfl
@[simp] theorem State.clearStatus_eng : (s.clearStatus).eng = s.eng := rfl
@[simp] theorem State.clearStatus_input : (s.clearStatus).input = s.input := rfl
@[simp] theorem State.clearStatus_output : (s.clearStatus).output = s.output := rfl
@[simp] theorem State.clearStatus_attached : (s.clearStatus).attached = s.attached := rfl
@[simp] theorem State.clearStatus_agenda : (s.clearStatus).agenda = s.agenda := rfl
@[simp] theorem State.clearStatus_rdata : (s.clearStatus).rdata = s.rdata := rfl
@[simp] theorem State.clearStatus_freeCtr : (s.clearStatus).freeCtr = s.freeCtr := rfl

@[simp] theorem State.finish_state : (s.finish).state = .done := rfl
@[simp] theorem State.finish_cause : (s.finish).cause = s.cause := rfl
@[simp] theorem State.finish_detail : (s.finish).detail = s.detail := rfl
@[simp] theorem State.finish_width : (s.finish).width = s.width := rfl
@[simp] theorem State.finish_origLen : (s.finish).origLen = s.origLen := rfl
@[simp] theorem State.finish_dictCount : (s.finish).dictCount = s.dictCount := rfl
@[simp] theorem State.finish_inCount : (s.finish).inCount = s.inCount := rfl
@[simp] theorem State.finish_outCount : (s.finish).outCount = s.outCount := rfl
@[simp] theorem State.finish_inputCap : (s.finish).inputCap = s.inputCap := rfl
@[simp] theorem State.finish_phase : (s.finish).phase = .idle := rfl
@[simp] theorem State.finish_eng : (s.finish).eng = s.eng := rfl
@[simp] theorem State.finish_input : (s.finish).input = s.input := rfl
@[simp] theorem State.finish_output : (s.finish).output = s.output := rfl
@[simp] theorem State.finish_attached : (s.finish).attached = s.attached := rfl
@[simp] theorem State.finish_agenda : (s.finish).agenda = s.agenda := rfl
@[simp] theorem State.finish_rdata : (s.finish).rdata = s.rdata := rfl
@[simp] theorem State.finish_freeCtr : (s.finish).freeCtr = s.freeCtr := rfl

@[simp] theorem State.takeStreams_state : (s.takeStreams).state = s.state := rfl
@[simp] theorem State.takeStreams_cause : (s.takeStreams).cause = s.cause := rfl
@[simp] theorem State.takeStreams_detail : (s.takeStreams).detail = s.detail := rfl
@[simp] theorem State.takeStreams_width : (s.takeStreams).width = s.width := rfl
@[simp] theorem State.takeStreams_origLen : (s.takeStreams).origLen = s.origLen := rfl
@[simp] theorem State.takeStreams_dictCount : (s.takeStreams).dictCount = s.dictCount := rfl
@[simp] theorem State.takeStreams_inCount : (s.takeStreams).inCount = s.inCount := rfl
@[simp] theorem State.takeStreams_outCount : (s.takeStreams).outCount = s.outCount := rfl
@[simp] theorem State.takeStreams_inputCap : (s.takeStreams).inputCap = s.inputCap := rfl
@[simp] theorem State.takeStreams_phase : (s.takeStreams).phase = s.phase := rfl
@[simp] theorem State.takeStreams_eng : (s.takeStreams).eng = s.eng := rfl
@[simp] theorem State.takeStreams_input : (s.takeStreams).input = s.nextStream := rfl
@[simp] theorem State.takeStreams_output : (s.takeStreams).output = [] := rfl
@[simp] theorem State.takeStreams_attached : (s.takeStreams).attached = none := rfl
@[simp] theorem State.takeStreams_agenda : (s.takeStreams).agenda = s.agenda := rfl
@[simp] theorem State.takeStreams_rdata : (s.takeStreams).rdata = s.rdata := rfl
@[simp] theorem State.takeStreams_freeCtr : (s.takeStreams).freeCtr = if s.attached.isSome then s.freeCtr else s.freeCtr + 1 := rfl

@[simp] theorem State.attach_state (bs : List Byte) : (s.attach bs).state = s.state := rfl
@[simp] theorem State.attach_cause (bs : List Byte) : (s.attach bs).cause = s.cause := rfl
@[simp] theorem State.attach_detail (bs : List Byte) : (s.attach bs).detail = s.detail := rfl
@[simp] theorem State.attach_width (bs : List Byte) : (s.attach bs).width = s.width := rfl
@[simp] theorem State.attach_origLen (bs : List Byte) : (s.attach bs).origLen = s.origLen := rfl
@[simp] theorem State.attach_dictCount (bs : List Byte) : (s.attach bs).dictCount = s.dictCount := rfl
@[simp] theorem State.attach_inCount (bs : List Byte) : (s.attach bs).inCount = s.inCount := rfl
@[simp] theorem State.attach_outCount (bs : List Byte) : (s.attach bs).outCount = s.outCount := rfl
@[simp] theorem State.attach_inputCap (bs : List Byte) : (s.attach bs).inputCap = s.inputCap := rfl
@[simp] theorem State.attach_phase (bs : List Byte) : (s.attach bs).phase = s.phase := rfl
@[simp] theorem State.attach_eng (bs : List Byte) : (s.attach bs).eng = s.eng := rfl
@[simp] theorem State.attach_input (bs : List Byte) : (s.attach bs).input = s.input := rfl
@[simp] theorem State.attach_output (bs : List Byte) : (s.attach bs).output = s.output := rfl
@[simp] theorem State.attach_attached (bs : List Byte) : (s.attach bs).attached = some bs := rfl
@[simp] theorem State.attach_agenda (bs : List Byte) : (s.attach bs).agenda = s.agenda := rfl
@[simp] theorem State.attach_rdata (bs : List Byte) : (s.attach bs).rdata = s.rdata := rfl
@[simp] theorem State.attach_freeCtr (bs : List Byte) : (s.attach bs).freeCtr = s.freeCtr := rfl

@[simp] theorem State.startCommand_state (p : Phase) : (s.startCommand p).state = .busy := rfl
@[simp] theorem State.startCommand_cause (p : Phase) : (s.startCommand p).cause = .noFault := rfl
@[simp] theorem State.startCommand_detail (p : Phase) : (s.startCommand p).detail = .noDetail := rfl
@[simp] theorem State.startCommand_width (p : Phase) : (s.startCommand p).width = 0 := rfl
@[simp] theorem State.startCommand_origLen (p : Phase) : (s.startCommand p).origLen = 0 := rfl
@[simp] theorem State.startCommand_dictCount (p : Phase) : (s.startCommand p).dictCount = 0 := rfl
@[simp] theorem State.startCommand_inCount (p : Phase) : (s.startCommand p).inCount = 0 := rfl
@[simp] theorem State.startCommand_outCount (p : Phase) : (s.startCommand p).outCount = 0 := rfl
@[simp] theorem State.startCommand_inputCap (p : Phase) : (s.startCommand p).inputCap = s.inputCap := rfl
@[simp] theorem State.startCommand_phase (p : Phase) : (s.startCommand p).phase = p := rfl
@[simp] theorem State.startCommand_eng (p : Phase) : (s.startCommand p).eng = s.eng := rfl
@[simp] theorem State.startCommand_input (p : Phase) : (s.startCommand p).input = s.nextStream := rfl
@[simp] theorem State.startCommand_output (p : Phase) : (s.startCommand p).output = [] := rfl
@[simp] theorem State.startCommand_attached (p : Phase) : (s.startCommand p).attached = none := rfl
@[simp] theorem State.startCommand_agenda (p : Phase) : (s.startCommand p).agenda = s.agenda := rfl
@[simp] theorem State.startCommand_rdata (p : Phase) : (s.startCommand p).rdata = s.rdata := rfl
@[simp] theorem State.startCommand_freeCtr (p : Phase) : (s.startCommand p).freeCtr = if s.attached.isSome then s.freeCtr else s.freeCtr + 1 := rfl

@[simp] theorem State.resetInput_state : (s.resetInput).state = .idle := rfl
@[simp] theorem State.resetInput_cause : (s.resetInput).cause = .noFault := rfl
@[simp] theorem State.resetInput_detail : (s.resetInput).detail = .noDetail := rfl
@[simp] theorem State.resetInput_width : (s.resetInput).width = 0 := rfl
@[simp] theorem State.resetInput_origLen : (s.resetInput).origLen = 0 := rfl
@[simp] theorem State.resetInput_dictCount : (s.resetInput).dictCount = 0 := rfl
@[simp] theorem State.resetInput_inCount : (s.resetInput).inCount = 0 := rfl
@[simp] theorem State.resetInput_outCount : (s.resetInput).outCount = 0 := rfl
@[simp] theorem State.resetInput_inputCap : (s.resetInput).inputCap = s.inputCap := rfl
@[simp] theorem State.resetInput_phase : (s.resetInput).phase = .idle := rfl
@[simp] theorem State.resetInput_eng : (s.resetInput).eng = Config.freeEngine s.freeCtr := rfl
@[simp] theorem State.resetInput_input : (s.resetInput).input = s.input := rfl
@[simp] theorem State.resetInput_output : (s.resetInput).output = s.output := rfl
@[simp] theorem State.resetInput_attached : (s.resetInput).attached = s.attached := rfl
@[simp] theorem State.resetInput_agenda : (s.resetInput).agenda = s.agenda := rfl
@[simp] theorem State.resetInput_rdata : (s.resetInput).rdata = s.rdata := rfl
@[simp] theorem State.resetInput_freeCtr : (s.resetInput).freeCtr = s.freeCtr + 1 := rfl

end Sys2Proof.Machine
end

