-- ==== Sys2Proof/Laws/Bits.lean ====
section
/-! SUPPORT. Bit strings and byte fields (00_scope.md R7 to R9): lengths, bounds, and that each notation inverts the
other. -/

namespace Sys2Proof.Machine

@[simp] theorem bitstring_zero (v : Nat) : bitstring v 0 = [] := rfl

@[simp] theorem bitstring_succ (v k : Nat) : bitstring v (k + 1) = v.testBit k :: bitstring v k := rfl

@[simp] theorem length_bitstring (v k : Nat) : (bitstring v k).length = k := by
  induction k with
  | zero => rfl
  | succ k ih => simp [ih]

@[simp] theorem val_nil : val [] = 0 := rfl

theorem val_append_singleton (bs : List Bool) (b : Bool) : val (bs ++ [b]) = 2 * val bs + b.toNat := by
  simp [val, List.foldl_append]

theorem foldl_val (bs : List Bool) (a : Nat) :
    bs.foldl (fun a b => 2 * a + b.toNat) a = a * 2 ^ bs.length + val bs := by
  induction bs generalizing a with
  | nil => simp
  | cons b bs ih =>
    have h0 := ih b.toNat
    have ha := ih (2 * a + b.toNat)
    simp only [val, List.foldl_cons, List.length_cons, Nat.mul_zero, Nat.zero_add] at *
    rw [ha, h0, Nat.pow_succ]
    ring

theorem val_cons (b : Bool) (bs : List Bool) : val (b :: bs) = b.toNat * 2 ^ bs.length + val bs := by
  have := foldl_val bs b.toNat
  simpa [val] using this

theorem val_append (as bs : List Bool) : val (as ++ bs) = val as * 2 ^ bs.length + val bs := by
  rw [val, List.foldl_append, foldl_val]
  rfl

theorem val_lt (bs : List Bool) : val bs < 2 ^ bs.length := by
  induction bs with
  | nil => simp
  | cons b bs ih =>
    rw [val_cons, List.length_cons, Nat.pow_succ]
    cases b <;> simp <;> omega

theorem val_replicate_false (k : Nat) : val (List.replicate k false) = 0 := by
  induction k with
  | zero => rfl
  | succ k ih => simp [List.replicate_succ, val_cons, ih]

theorem testBit_val (bs : List Bool) (j : Nat) (h : j < bs.length) :
    (val bs).testBit j = bs[bs.length - 1 - j]'(by omega) := by
  induction bs with
  | nil => simp at h
  | cons b bs ih =>
    rw [val_cons]
    have hlt := val_lt bs
    by_cases hj : j < bs.length
    · rw [Nat.mul_comm, Nat.testBit_two_pow_mul_add _ hlt, if_pos hj, ih hj]
      have : (b :: bs).length - 1 - j = (bs.length - 1 - j) + 1 := by simp; omega
      simp only [this, List.getElem_cons_succ]
    · have : j = bs.length := by simp at h; omega
      subst this
      rw [Nat.mul_comm, Nat.testBit_two_pow_mul_add _ hlt, if_neg (lt_irrefl _)]
      cases b <;> simp

/-- `bitstring` inverts `val`. -/
@[simp] theorem bitstring_val (bs : List Bool) : bitstring (val bs) bs.length = bs := by
  have key : ∀ (v k : Nat) (ds : List Bool), k = ds.length → (∀ j (h : j < ds.length),
      v.testBit j = ds[ds.length - 1 - j]'(by omega)) → bitstring v k = ds := by
    intro v k
    induction k with
    | zero => intro ds h _; simp [List.length_eq_zero_iff.1 h.symm]
    | succ k ih =>
      intro ds h hb
      cases ds with
      | nil => simp at h
      | cons d ds =>
        have hk : k = ds.length := by simpa using h
        rw [bitstring_succ, ih ds hk]
        · have := hb k (by simp [hk])
          simp [hk] at this
          simp [hk, this]
        · intro j hj
          have := hb j (by simp; omega)
          rw [this]
          have e : (d :: ds).length - 1 - j = (ds.length - 1 - j) + 1 := by simp; omega
          simp only [e, List.getElem_cons_succ]
  exact key _ _ _ rfl fun j h => testBit_val bs j h

theorem val_bitstring_mod (v k : Nat) : val (bitstring v k) = v % 2 ^ k := by
  induction k with
  | zero => simp [Nat.mod_one]
  | succ k ih =>
    rw [bitstring_succ, val_cons, ih, length_bitstring, Nat.mod_pow_succ, Nat.toNat_testBit]
    ring

/-- `val` inverts `bitstring`. -/
theorem val_bitstring {v k : Nat} (h : v < 2 ^ k) : val (bitstring v k) = v := by
  rw [val_bitstring_mod, Nat.mod_eq_of_lt h]

@[simp] theorem length_be (v k : Nat) : (be v k).length = k := by
  induction k with
  | zero => rfl
  | succ k ih => simp [be, ih]

@[simp] theorem fromBe_nil : fromBe [] = 0 := rfl

theorem foldl_fromBe (bs : List Byte) (a : Nat) :
    bs.foldl (fun v b => 256 * v + b.toNat) a = a * 256 ^ bs.length + fromBe bs := by
  induction bs generalizing a with
  | nil => simp
  | cons b bs ih =>
    have h0 := ih b.toNat
    have ha := ih (256 * a + b.toNat)
    simp only [fromBe, List.foldl_cons, List.length_cons, Nat.mul_zero, Nat.zero_add] at *
    rw [ha, h0, Nat.pow_succ]
    ring

theorem fromBe_cons (b : Byte) (bs : List Byte) : fromBe (b :: bs) = b.toNat * 256 ^ bs.length + fromBe bs := by
  have := foldl_fromBe bs b.toNat
  simpa [fromBe] using this

theorem fromBe_lt (bs : List Byte) : fromBe bs < 256 ^ bs.length := by
  induction bs with
  | nil => simp
  | cons b bs ih =>
    rw [fromBe_cons, List.length_cons, Nat.pow_succ]
    have := b.isLt
    have hm : b.toNat * 256 ^ bs.length ≤ 255 * 256 ^ bs.length := Nat.mul_le_mul_right _ (by omega)
    omega

theorem fromBe_be_mod (v k : Nat) : fromBe (be v k) = v % 256 ^ k := by
  induction k with
  | zero => simp [be, Nat.mod_one]
  | succ k ih =>
    rw [be, fromBe_cons, ih, length_be, Nat.pow_succ, Nat.mod_mul]
    simp
    ring

/-- `from_be` inverts `be_k` (00_scope.md R9, "requiring v < 2^(8k)"). -/
theorem fromBe_be {v k : Nat} (h : v < 256 ^ k) : fromBe (be v k) = v := by
  rw [fromBe_be_mod, Nat.mod_eq_of_lt h]

@[simp] theorem bitsOf_nil : bitsOf [] = [] := rfl

@[simp] theorem bitsOf_cons (b : Byte) (bs : List Byte) : bitsOf (b :: bs) = bitstring b.toNat 8 ++ bitsOf bs := rfl

@[simp] theorem bitsOf_append (as bs : List Byte) : bitsOf (as ++ bs) = bitsOf as ++ bitsOf bs := by
  simp [bitsOf]

@[simp] theorem length_bitsOf (bs : List Byte) : (bitsOf bs).length = 8 * bs.length := by
  induction bs with
  | nil => rfl
  | cons b bs ih => rw [bitsOf_cons, List.length_append, ih, length_bitstring, List.length_cons]; ring

/-- Shifting a bit in appends it, the oldest bit falling off (40_bitcursor.md R81). -/
theorem shiftIn_eq (acc : Byte) (bit : Bool) : shiftIn acc bit = BitVec.ofNat 8 (2 * acc.toNat + bit.toNat) := by
  revert acc bit
  decide

end Sys2Proof.Machine
end

