-- ==== Sys2Proof/Laws/BitCursor.lean ====
section
/-! SUPPORT. The bit packer, the bit unpacker and the output accumulator, one bit at a time. -/

namespace Sys2Proof.Machine

theorem pushBit_eight {s : State} {bit : Bool} (h : s.eng.fill = 7) :
    s.pushBit bit =
      (s.emitByte (shiftIn s.eng.acc bit)).setEng { s.eng with acc := 0, fill := 0 } := by
  unfold State.pushBit
  exact if_pos (by omega)

theorem pushBit_more {s : State} {bit : Bool} (h : s.eng.fill ≠ 7) :
    s.pushBit bit = s.setEng { s.eng with acc := shiftIn s.eng.acc bit, fill := s.eng.fill + 1 } := by
  unfold State.pushBit
  exact if_neg (by omega)

theorem flush_empty {s : State} (h : s.eng.fill = 0) : s.flush = s := by
  unfold State.flush
  exact if_neg (by omega)

theorem outBit_more {s : State} {bit : Bool} (h : s.eng.ofill ≠ 7) :
    s.outBit bit =
      (false, s.setEng { s.eng with oacc := shiftIn s.eng.oacc bit, ofill := s.eng.ofill + 1 }) := by
  unfold State.outBit
  exact if_neg (by omega)

theorem outBit_eight {s : State} {bit : Bool} (h : s.eng.ofill = 7) :
    s.outBit bit = (decide (s.eng.emitted + 1 = s.origLen.toNat),
      (s.emitByte (shiftIn s.eng.oacc bit)).setEng
        { s.eng with oacc := 0, ofill := 0, emitted := s.eng.emitted + 1 }) := by
  unfold State.outBit
  refine (if_pos (by omega)).trans ?_
  rw [Prod.mk.injEq]
  exact ⟨Bool.beq_eq_decide_eq _ _, rfl⟩

/-- What nextBit leaves alone: everything but the input, its counter and the reader. -/
theorem nextBit_frame {s u : State} {bit : Bool} (h : s.nextBit = some (bit, u)) :
    u = { s with
      input := u.input, inCount := u.inCount
      eng := { s.eng with pbyte := u.eng.pbyte, pleft := u.eng.pleft } } := by
  simp only [State.nextBit, State.inRead] at h
  split at h
  · cases hi : s.input with
    | nil => simp [hi] at h
    | cons b rest => simp [hi] at h; obtain ⟨_, rfl⟩ := h; simp [State.setEng, State.countIn]
  · simp at h; obtain ⟨_, rfl⟩ := h; simp [State.setEng]

/-- nextBit takes one of the bits that are left. -/
theorem nextBit_count {s u : State} {bit : Bool} (h : s.nextBit = some (bit, u)) :
    8 * u.input.length + u.eng.pleft + 1 = 8 * s.input.length + s.eng.pleft := by
  simp only [State.nextBit, State.inRead] at h
  split at h
  · cases hi : s.input with
    | nil => simp [hi] at h
    | cons b rest => simp [hi] at h; obtain ⟨_, rfl⟩ := h; simp; omega
  · simp at h; obtain ⟨_, rfl⟩ := h; simp; omega

theorem bitstring_byte (b : Byte) (m : Nat) : bitstring b.toNat (m + 1) = b.getLsbD m :: bitstring b.toNat m := by
  rw [bitstring_succ]; rfl

end Sys2Proof.Machine
end

