-- ==== Sys2Proof/Laws/Frequency.lean ====
section
/-! SUPPORT. The frequency analyser: the rolling accumulator tiles the bitstream, and every operation on FREQ keeps
its canonical form and counts. -/

namespace Sys2Proof.Machine

/-- The bits `q` cut into groups of w, the last one padded on its low-order bits (41_frequency.md R90, R91). -/
def tile (w : Nat) (q : List Bool) : List Nat :=
  (List.range (q.length / w)).map (fun k => val (slice q (k * w) (k * w + w))) ++
    if q.length % w ≠ 0 then [val (q.drop (q.length / w * w) ++ List.replicate (w - q.length % w) false)] else []

theorem tile_append {w : Nat} (hw : 1 ≤ w) {x bs : List Bool} (hx : x.length = w) :
    tile w (x ++ bs) = val x :: tile w bs := by
  have hd : (x ++ bs).length / w = bs.length / w + 1 := by
    rw [List.length_append, hx, Nat.add_comm, Nat.add_div_right _ (by omega)]
  have hm : (x ++ bs).length % w = bs.length % w := by
    rw [List.length_append, hx, Nat.add_mod_left]
  unfold tile
  rw [hd, hm, List.range_succ_eq_map, List.map_cons, List.cons_append]
  congr 1
  · unfold slice; simp [hx]
  · congr 1
    · rw [List.map_map]
      apply List.map_congr_left
      intro k hk
      simp only [Function.comp]
      congr 1
      unfold slice
      rw [show (k + 1) * w + w = x.length + (k * w + w) by rw [hx]; ring, List.take_length_add_append]
      rw [show (k + 1) * w = x.length + k * w by rw [hx]; ring, List.drop_length_add_append]
    · split
      · congr 2
        rw [show (bs.length / w + 1) * w = x.length + bs.length / w * w by rw [hx]; ring,
          List.drop_length_add_append]
      · rfl

/-- The rolling accumulator, holding the bits `ds` of an unfinished group, tiles what is left. -/
theorem rollSymbols_eq_tile {w : Nat} (hw : 1 ≤ w) (bs ds : List Bool) (hd : ds.length < w) :
    rollSymbols w (val ds) ds.length bs = tile w (ds ++ bs) := by
  induction bs generalizing ds with
  | nil =>
    simp only [rollSymbols, tile, List.append_nil, Nat.div_eq_of_lt hd, Nat.mod_eq_of_lt hd]
    split
    · rename_i h; rw [if_pos (by omega)]; simp [Nat.shiftLeft_eq, val_append, val_replicate_false]
    · rename_i h; rw [if_neg (by omega)]; simp
  | cons b bs ih =>
    rw [rollSymbols, ← val_append_singleton]
    split
    · rename_i h
      have := ih [] (by simp; omega)
      simp only [val_nil, List.length_nil, List.nil_append] at this
      rw [this, show ds ++ b :: bs = (ds ++ [b]) ++ bs by simp, tile_append hw (by simpa using h)]
    · rename_i h
      have := ih (ds ++ [b]) (by simp; omega)
      simpa using this

theorem symbols_eq_tile {w : Nat} (hw : 1 ≤ w) (b : List Byte) : symbols w b = tile w (bitsOf b) := by
  have := rollSymbols_eq_tile hw (bitsOf b) [] (by simp; omega)
  simpa [symbols] using this

theorem ceilDiv_eq {w : Nat} (hw : 1 ≤ w) (m : Nat) : ceilDiv m w = m / w + if m % w = 0 then 0 else 1 := by
  unfold ceilDiv
  have h := Nat.div_add_mod m w
  have h2 := Nat.mod_lt m (show w > 0 by omega)
  have e : m / w * w = w * (m / w) := Nat.mul_comm _ _
  split
  · apply Nat.div_eq_of_lt_le
    · rw [Nat.add_zero, e]; omega
    · rw [Nat.add_zero, Nat.add_mul, e]; omega
  · apply Nat.div_eq_of_lt_le
    · rw [Nat.add_mul, e]; omega
    · rw [Nat.add_mul, Nat.add_mul, e]; omega

theorem tile_length {w : Nat} (hw : 1 ≤ w) (q : List Bool) : (tile w q).length = ceilDiv q.length w := by
  rw [ceilDiv_eq hw]
  unfold tile
  by_cases h : q.length % w = 0 <;> simp [h]

theorem tile_lt {w : Nat} (hw : 1 ≤ w) (q : List Bool) : ∀ x ∈ tile w q, x < 2 ^ w := by
  intro x hx
  unfold tile at hx
  rw [List.mem_append] at hx
  rcases hx with hx | hx
  · simp only [List.mem_map] at hx
    obtain ⟨k, hk, rfl⟩ := hx
    refine lt_of_lt_of_le (val_lt _) (Nat.pow_le_pow_right (by norm_num) ?_)
    unfold slice; simp; omega
  · split at hx
    · rename_i h0
      simp only [List.mem_singleton] at hx
      subst hx
      refine lt_of_lt_of_le (val_lt _) (Nat.pow_le_pow_right (by norm_num) ?_)
      have := Nat.div_add_mod q.length w
      have := Nat.mod_lt q.length (show w > 0 by omega)
      have e : q.length / w * w = w * (q.length / w) := Nat.mul_comm _ _
      simp; omega
    · simp at hx

theorem Freq.wf_cons {s c : Nat} {f : List (Nat × Nat)} :
    Freq.wf ((s, c) :: f) = true ↔ 0 < c ∧ (∀ p ∈ f.head?, s < p.1) ∧ Freq.wf f = true := by
  cases f with
  | nil => simp [Freq.wf]
  | cons p f => obtain ⟨t, d⟩ := p; simp [Freq.wf, and_assoc]

theorem Freq.head_bump {x s : Nat} {f : List (Nat × Nat)} (hs : s < x) (h : ∀ p ∈ f.head?, s < p.1) :
    ∀ p ∈ (Freq.bump x f).head?, s < p.1 := by
  cases f with
  | nil => simpa [Freq.bump] using hs
  | cons p f =>
    obtain ⟨t, c⟩ := p
    simp only [Freq.bump]
    split_ifs <;> simp_all

/-- Counting a symbol keeps the canonical form. -/
theorem Freq.wf_bump (x : Nat) {f : List (Nat × Nat)} (h : Freq.wf f = true) : Freq.wf (Freq.bump x f) = true := by
  induction f with
  | nil => simp [Freq.bump, Freq.wf]
  | cons p f ih =>
    obtain ⟨t, c⟩ := p
    rw [Freq.wf_cons] at h
    simp only [Freq.bump]
    split_ifs with h1 h2
    · rw [Freq.wf_cons]; exact ⟨by omega, h.2⟩
    · rw [Freq.wf_cons]; exact ⟨by omega, by simpa using h2, Freq.wf_cons.2 h⟩
    · rw [Freq.wf_cons]; exact ⟨h.1, Freq.head_bump (by omega) h.2.1, ih h.2.2⟩

/-- Any sequence of countings from the empty table leaves it in canonical form. -/
theorem Freq.wf_observe (w : Nat) (b : List Byte) : Freq.wf (observe w b) = true := by
  have key : ∀ (xs : List Nat) (f : List (Nat × Nat)), Freq.wf f = true →
      Freq.wf (xs.foldl (fun f x => Freq.bump x f) f) = true := by
    intro xs
    induction xs with
    | nil => intro f h; exact h
    | cons x xs ih => intro f h; exact ih _ (Freq.wf_bump x h)
  exact key _ _ rfl

theorem Freq.get_cons (t c s : Nat) (f : List (Nat × Nat)) :
    Freq.get ((t, c) :: f) s = if t = s then c else Freq.get f s := by
  unfold Freq.get
  by_cases h : t = s
  · simp [h]
  · rw [List.find?_cons_of_neg (by simpa using h), if_neg h]

/-- A symbol below every listed one is not listed. -/
theorem Freq.get_of_lt {s : Nat} {f : List (Nat × Nat)} (h : Freq.wf f = true) (hh : ∀ p ∈ f.head?, s < p.1) :
    Freq.get f s = 0 := by
  induction f with
  | nil => rfl
  | cons p f ih =>
    obtain ⟨t, c⟩ := p
    rw [Freq.wf_cons] at h
    have hst : s < t := by simpa using hh
    rw [Freq.get_cons, if_neg (by omega)]
    exact ih h.2.2 fun p hp => lt_trans hst (h.2.1 p hp)

/-- Read after write: counting x raises FREQ[x] by one and leaves every other count alone. -/
theorem Freq.get_bump (x s : Nat) {f : List (Nat × Nat)} (h : Freq.wf f = true) :
    Freq.get (Freq.bump x f) s = Freq.get f s + if x = s then 1 else 0 := by
  induction f with
  | nil => simp [Freq.bump, Freq.get_cons]; split_ifs <;> rfl
  | cons p f ih =>
    obtain ⟨t, c⟩ := p
    have h' := Freq.wf_cons.1 h
    simp only [Freq.bump]
    by_cases h1 : x = t
    · rw [if_pos h1]; subst h1; simp only [Freq.get_cons]; split_ifs <;> rfl
    · rw [if_neg h1]
      by_cases h2 : x < t
      · rw [if_pos h2, Freq.get_cons]
        have := Freq.get_of_lt (s := x) h (by simpa using h2)
        by_cases h3 : x = s
        · subst h3; simp [this]
        · simp [h3]
      · rw [if_neg h2, Freq.get_cons, Freq.get_cons, ih h'.2.2]
        by_cases h3 : t = s
        · subst h3; simp [h1]
        · simp [h3]

/-- Counting a symbol raises any weighted sum of the counts by that symbol's weight. -/
theorem Freq.weighted_bump (x : Nat) (f : List (Nat × Nat)) (g : Nat → Nat) :
    ((Freq.bump x f).map fun p => p.2 * g p.1).sum = (f.map fun p => p.2 * g p.1).sum + g x := by
  induction f with
  | nil => simp [Freq.bump]
  | cons p f ih =>
    obtain ⟨t, c⟩ := p
    simp only [Freq.bump]
    split_ifs <;> simp [ih] <;> (try subst t) <;> ring

theorem Freq.mem_keys_bump (x s : Nat) (f : List (Nat × Nat)) :
    s ∈ (Freq.bump x f).map Prod.fst ↔ s = x ∨ s ∈ f.map Prod.fst := by
  induction f with
  | nil => simp [Freq.bump]
  | cons p f ih =>
    obtain ⟨t, c⟩ := p
    simp only [Freq.bump]
    split_ifs with h1 h2
    · subst h1; simp
    · simp
    · simp only [List.map_cons, List.mem_cons, ih]; tauto

/-- The canonical form, as an order on the whole list. -/
theorem Freq.pairwise_of_wf {f : List (Nat × Nat)} (h : Freq.wf f = true) :
    f.Pairwise (fun a b => a.1 < b.1) ∧ ∀ p ∈ f, 0 < p.2 := by
  induction f with
  | nil => simp
  | cons p f ih =>
    obtain ⟨t, c⟩ := p
    obtain ⟨h1, h2, h3⟩ := Freq.wf_cons.1 h
    obtain ⟨i1, i2⟩ := ih h3
    refine ⟨List.pairwise_cons.2 ⟨?_, i1⟩, ?_⟩
    · intro q hq
      cases f with
      | nil => simp at hq
      | cons r f =>
        have hr : t < r.1 := h2 r (by simp)
        rcases List.mem_cons.1 hq with e | e
        · exact e ▸ hr
        · exact lt_trans hr (List.rel_of_pairwise_cons i1 e)
    · intro q hq
      rcases List.mem_cons.1 hq with e | e
      · exact e ▸ h1
      · exact i2 q e

theorem Freq.nodup_keys {f : List (Nat × Nat)} (h : Freq.wf f = true) : (f.map Prod.fst).Nodup := by
  have := (Freq.pairwise_of_wf h).1
  rw [List.Nodup, List.pairwise_map]
  exact this.imp (fun h => by omega)

end Sys2Proof.Machine
end

