-- ==== Sys2Proof/Laws/Ops.lean ====
section
/-! SUPPORT. The register map, the register read, and what any command or register access can answer. -/

namespace Sys2Proof.Machine

theorem regAt_offset (r : Reg) : regAt r.offset = some r := by cases r <;> rfl

/-- The map has a register exactly at the offsets of the host contract. -/
theorem isSome_regAt (o : Nat) : (regAt o).isSome ↔ o % 8 = 0 ∧ o ≤ 0x38 := by
  constructor
  · intro h
    unfold regAt at h
    split at h <;> simp_all
  · rintro ⟨h, h2⟩
    have : o = 0 ∨ o = 8 ∨ o = 16 ∨ o = 24 ∨ o = 32 ∨ o = 40 ∨ o = 48 ∨ o = 56 := by omega
    rcases this with h | h | h | h | h | h | h | h <;> subst h <;> rfl

theorem regAt_eq_cmd {o : Nat} (h : regAt o = some .cmd) : o = 0 := by
  unfold regAt at h
  split at h <;> simp_all

/-- Outside BUSY the STATUS word is its three fields; in BUSY it shows neither cause nor detail. -/
theorem status_of_not_busy {s : State} (h : s.state ≠ .busy) : s.status = statusWord s.state s.cause s.detail := by
  unfold State.status
  split
  · contradiction
  · rfl

/-- All a register read can do: it changes `rdata`, and draws a free value or none. -/
theorem readReg_cases (r : Reg) (s : State) :
    (s.state = .busy ∧ r.isResult = true ∧
      s.readReg r = { s with rdata := some (Config.freeWord s.freeCtr), freeCtr := s.freeCtr + 1 }) ∨
    (¬ (s.state = .busy ∧ r.isResult = true) ∧ s.readReg r = { s with rdata := some (s.regValue r) }) := by
  unfold State.readReg
  split
  · rename_i h; exact .inl ⟨h.1, h.2, rfl⟩
  · rename_i h; exact .inr ⟨h, rfl⟩

/-- Every command answers a next state. -/
theorem exec_next (i : Instr) (s : State) : ∃ t, exec i s = .next t := by
  cases i <;> simp only [exec, execNop, execCompress, execDecompress, execIllegal, execClear] <;>
    (try split_ifs) <;> exact ⟨_, rfl⟩

/-- All a command can do besides changing nothing: start, in IDLE or DONE; clear STATUS outside BUSY; raise
IllegalCommand in IDLE or DONE. -/
theorem exec_cases {i : Instr} {s t : State} (h : exec i s = .next t) :
    t = s ∨
    (i = .compress ∧ s.state.accepts = true ∧ t = (s.startCommand .cRead).setEng { s.eng with ibuf := [] }) ∨
    (i = .decompress ∧ s.state.accepts = true ∧ t = (s.startCommand .dHeader).setEng { s.eng with recv := [] }) ∨
    (i = .clear ∧ s.state.acceptsClear = true ∧ t = s.clearStatus) ∨
    (∃ w, i = .illegal w ∧ s.state.accepts = true ∧ t = s.raiseFault .illegalCommand .noDetail) := by
  cases i <;> simp only [exec, execNop, execCompress, execDecompress, execIllegal, execClear] at h
  · injection h with h; exact .inl h.symm
  · split at h
    · injection h with h; exact .inr (.inl ⟨rfl, ‹_›, h.symm⟩)
    · injection h with h; exact .inl h.symm
  · split at h
    · injection h with h; exact .inr (.inr (.inl ⟨rfl, ‹_›, h.symm⟩))
    · injection h with h; exact .inl h.symm
  · split at h
    · injection h with h; exact .inr (.inr (.inr (.inl ⟨rfl, ‹_›, h.symm⟩)))
    · injection h with h; exact .inl h.symm
  · split at h
    · injection h with h; exact .inr (.inr (.inr (.inr ⟨_, rfl, ‹_›, h.symm⟩)))
    · injection h with h; exact .inl h.symm

/-- All a register write can do when it answers a next state: at CMD it runs the decoded command; elsewhere nothing. -/
theorem busWrite_cases {bits offset : Nat} {v : Word} {s t : State} (h : busWrite bits offset v s = .next t) :
    (bits = 64 ∧ offset = 0 ∧ exec (decode v) s = .next t) ∨ (bits = 64 ∧ t = s) := by
  unfold busWrite busAccess at h
  split at h
  · rename_i hb
    split at h
    · rename_i r hr
      cases r <;> simp only at h
      · exact .inl ⟨hb, regAt_eq_cmd hr, h⟩
      all_goals (injection h with h; exact .inr ⟨hb, h.symm⟩)
    · cases h
  · cases h

/-- All a register read over the bus can do when it answers a next state. -/
theorem busRead_cases {bits offset : Nat} {s t : State} (h : busRead bits offset s = .next t) :
    ∃ r, bits = 64 ∧ regAt offset = some r ∧ t = s.readReg r := by
  unfold busRead busAccess at h
  split at h
  · rename_i hb
    split at h
    · rename_i r hr; injection h with h; exact ⟨r, hb, hr, h.symm⟩
    · cases h
  · cases h

end Sys2Proof.Machine
end

