-- ==== Sys2Proof/Laws/PerInstr.lean ====
section
/-! SUPPORT. Statements made once per constructor of Instr. -/

namespace Sys2Proof.Laws.RoundTrip

open Sys2Proof

/-- The table's first matching row, written as the comparisons it makes. -/
theorem decode_eq (w : Word) :
    decode w = if w = 0 then .nop else if w = 1 then .compress else if w = 2 then .decompress
      else if w = 3 then .clear else .illegal w := by
  have h : w &&& 0xFFFFFFFFFFFFFFFF#64 = w := BitVec.and_allOnes
  simp only [decode, opcodeRow?, opcodeTable, List.find?, h]
  by_cases h0 : w = 0 <;> by_cases h1 : w = 1 <;> by_cases h2 : w = 2 <;> by_cases h3 : w = 3 <;> simp_all
  simp [beq_eq_false_iff_ne.2 h0, beq_eq_false_iff_ne.2 h1, beq_eq_false_iff_ne.2 h2, beq_eq_false_iff_ne.2 h3]

/-- An encoded well-formed command decodes to itself. -/
def Statement (i : Instr) : Prop := i.wellFormed = true → decode (encode i) = i

theorem nop : Statement .nop := fun _ => by decide

theorem compress : Statement .compress := fun _ => by decide

theorem decompress : Statement .decompress := fun _ => by decide

theorem clear : Statement .clear := fun _ => by decide

theorem illegal (w : Word) : Statement (.illegal w) := by
  intro h
  rw [encode, decode_eq]
  have hne : ∀ k : Word, legalWord k = true → w ≠ k := by
    rintro k hk rfl
    simp [Instr.wellFormed, hk] at h
  rw [if_neg (hne 0 (by decide)), if_neg (hne 1 (by decide)), if_neg (hne 2 (by decide)), if_neg (hne 3 (by decide))]

end Sys2Proof.Laws.RoundTrip
end

