-- ==== Sys2Proof/Laws/Step.lean ====
section
/-! SUPPORT. The engine's step, phase by phase; what it leaves alone; what one step of host and engine can do; runs. -/

namespace Sys2Proof.Machine

theorem engineStep_idle {s : State} (h : s.phase = .idle) : s.engineStep = s := by
  unfold State.engineStep; rw [h]

theorem engineStep_cRead {s : State} (h : s.phase = .cRead) : s.engineStep = s.readStep := by
  unfold State.engineStep; rw [h]

theorem engineStep_cAnalyse {s : State} {w : Nat} (h : s.phase = .cAnalyse w) : s.engineStep = s.analyseStep w := by
  unfold State.engineStep; rw [h]

theorem engineStep_cSelect {s : State} (h : s.phase = .cSelect) : s.engineStep = s.selectStep := by
  unfold State.engineStep; rw [h]

theorem engineStep_cEmit {s : State} (h : s.phase = .cEmit) : s.engineStep = s.emitStep := by
  unfold State.engineStep; rw [h]

theorem engineStep_dHeader {s : State} (h : s.phase = .dHeader) :
    s.engineStep = s.readByte .truncHeader State.headerStep := by
  unfold State.engineStep; rw [h]

theorem engineStep_dDict {s : State} {i : Nat} (h : s.phase = .dDict i) :
    s.engineStep = s.readByte .truncDict (State.dictStep i) := by
  unfold State.engineStep; rw [h]

theorem engineStep_dPayload {s : State} (h : s.phase = .dPayload) : s.engineStep = s.payloadStep := by
  unfold State.engineStep; rw [h]

/-- The engine never touches what is the host's: its agenda, its attached stream, its read data; nor INPUT_CAP and the
free counter. -/
theorem engineStep_frame (s : State) :
    s.engineStep.agenda = s.agenda ∧ s.engineStep.inputCap = s.inputCap ∧ s.engineStep.attached = s.attached ∧
    s.engineStep.rdata = s.rdata ∧ s.engineStep.freeCtr = s.freeCtr := by
  unfold State.engineStep
  cases hp : s.phase with
  | idle => simp
  | cRead =>
    simp only [State.readStep, State.inRead]
    cases hi : s.input with
    | nil => simp
    | cons b rest => dsimp only; split <;> simp
  | cAnalyse w => simp [State.analyseStep]
  | cSelect => simp only [State.selectStep]; split <;> simp [State.startSerialize]
  | cEmit =>
    simp only [State.emitStep]
    split
    · simp
    · split
      · simp only [State.pushBit]; split <;> simp
      · split
        · simp
        · simp only [State.flush]; split <;> simp
  | dHeader =>
    simp only [State.readByte, State.inRead]
    cases hi : s.input with
    | nil => simp
    | cons b rest => simp only [State.headerStep, State.startDict, State.startPayload]; split_ifs <;> simp
  | dDict i =>
    simp only [State.readByte, State.inRead]
    cases hi : s.input with
    | nil => simp
    | cons b rest => simp only [State.dictStep, State.acceptEntry, State.startPayload]; split_ifs <;> simp
  | dPayload =>
    simp only [State.payloadStep]
    split
    · simp
    · cases hb : s.eng.pendBits with
      | cons bit bits =>
        by_cases hf : s.eng.ofill = 7
        · simp only [outBit_eight (s := s.setEng { s.eng with pendBits := bits }) hf]
          by_cases hd : s.eng.emitted + 1 = s.origLen.toNat <;> simp [hd]
        · simp [outBit_more (s := s.setEng { s.eng with pendBits := bits }) hf]
      | nil =>
        cases hn : s.nextBit with
        | none => simp
        | some p =>
          obtain ⟨bit, u⟩ := p
          have hf := nextBit_frame hn
          have hu : u.agenda = s.agenda ∧ u.inputCap = s.inputCap ∧ u.attached = s.attached ∧
              u.rdata = s.rdata ∧ u.freeCtr = s.freeCtr := by
            rw [hf]; exact ⟨rfl, rfl, rfl, rfl, rfl⟩
          simp only [State.matchKey]
          split
          · simp [hu]
          · split_ifs <;> simp [hu]

/-- All one step can do when it answers a next state, `u` being the state with the event taken off the agenda. -/
theorem step_cases {s t : State} (h : step s = .next t) :
    (s.agenda = [] ∧ t = s.engineStep) ∨
    ∃ e rest, s.agenda = e :: rest ∧ ∃ u, u = { s with agenda := rest } ∧
      ((e = .reset ∧ t = u.resetInput) ∨
      (∃ bs, e = .attach bs ∧ s.state ≠ .busy ∧ t = u.attach bs) ∨
      (∃ v, e = .write 64 0 v ∧ exec (decode v) u = .next t) ∨
      (∃ offset v, e = .write 64 offset v ∧ t = u) ∨
      (∃ offset r, e = .read 64 offset ∧ regAt offset = some r ∧ t = u.readReg r) ∨
      (e = .wait ∧ t = hostWait u) ∨
      (e = .engine ∧ t = u.engineStep)) := by
  unfold step at h
  split at h
  · rename_i ha; injection h with h; exact .inl ⟨ha, h.symm⟩
  · rename_i e rest ha
    refine .inr ⟨e, rest, ha, _, rfl, ?_⟩
    cases e <;> simp only [hostEvent] at h
    · injection h with h; exact .inl ⟨rfl, h.symm⟩
    · rename_i bs
      unfold hostAttach at h
      split at h
      · cases h
      · rename_i hb; injection h with h; exact .inr (.inl ⟨bs, rfl, hb, h.symm⟩)
    · rename_i bits offset v
      rcases busWrite_cases h with ⟨hb, ho, ht⟩ | ⟨hb, ht⟩
      · subst hb ho; exact .inr (.inr (.inl ⟨v, rfl, ht⟩))
      · subst hb; exact .inr (.inr (.inr (.inl ⟨offset, v, rfl, ht⟩)))
    · rename_i bits offset
      obtain ⟨r, hb, hr, ht⟩ := busRead_cases h
      subst hb
      exact .inr (.inr (.inr (.inr (.inl ⟨offset, r, rfl, hr, ht⟩))))
    · injection h with h; exact .inr (.inr (.inr (.inr (.inr (.inl ⟨rfl, h.symm⟩)))))
    · injection h with h; exact .inr (.inr (.inr (.inr (.inr (.inr ⟨rfl, h.symm⟩)))))

theorem run_of_next (M : Host.Core) {k : Nat} {s t : M.State} (h : M.step s = .next t) :
    M.run (k + 1) s = M.run k t := by
  simp only [Host.Core.run, h]

theorem run_of_refused (M : Host.Core) {k : Nat} {s : M.State} {r : M.Refusal} (h : M.step s = .refused r) :
    M.run (k + 1) s = .refused r := by
  simp only [Host.Core.run, h]

theorem core_run_next {k : Nat} {s t : State} (h : step s = .next t) :
    Sys2Proof.core.run (k + 1) s = Sys2Proof.core.run k t :=
  run_of_next Sys2Proof.core h

theorem core_run_refused {k : Nat} {s : State} {r : Refusal} (h : step s = .refused r) :
    Sys2Proof.core.run (k + 1) s = .refused r :=
  run_of_refused Sys2Proof.core h

theorem engineRun_add (j k : Nat) (s : State) : engineRun (j + k) s = engineRun k (engineRun j s) := by
  induction j generalizing s with
  | zero => simp [engineRun]
  | succ j ih => rw [Nat.add_right_comm, engineRun, ih]; rfl

/-- The last step of a run. -/
theorem engineRun_last (k : Nat) (s : State) : engineRun (k + 1) s = (engineRun k s).engineStep := by
  rw [engineRun_add]; rfl

theorem engineRun_idle {s : State} (h : s.phase = .idle) (k : Nat) : engineRun k s = s := by
  induction k with
  | zero => rfl
  | succ k ih => rw [engineRun, engineStep_idle h, ih]

theorem engineRun_agenda (k : Nat) (s : State) : (engineRun k s).agenda = s.agenda := by
  induction k generalizing s with
  | zero => rfl
  | succ k ih => rw [engineRun, ih, (engineStep_frame s).1]

/-- With nothing on the agenda the machine is the engine left alone. -/
theorem core_run_engine (k : Nat) {s : State} (h : s.agenda = []) :
    Sys2Proof.core.run k s = .next (engineRun k s) := by
  induction k generalizing s with
  | zero => rfl
  | succ k ih =>
    rw [core_run_next (t := s.engineStep) (by simp [step, h]), ih (by rw [(engineStep_frame s).1, h])]
    rfl

end Sys2Proof.Machine
end

