-- ==== Sys2Proof/Laws/Phases.lean ====
section
/-! SUPPORT. What each phase's step does in each of its cases, so that no later proof unfolds it. -/

namespace Sys2Proof.Machine

theorem readStep_end {s : State} (h : s.input = []) :
    s.readStep = (s.setOrigLen s.eng.n).setPhase (.cAnalyse Config.candFirst) := by
  unfold State.readStep State.inRead; rw [h]

theorem readStep_more {s : State} {b : Byte} {rest : List Byte} (h : s.input = b :: rest)
    (hc : s.eng.ibuf.length ≠ s.inputCap.val) :
    s.readStep =
      { s with input := rest, inCount := s.inCount + 1, eng := { s.eng with ibuf := s.eng.ibuf ++ [b] } } := by
  unfold State.readStep State.inRead; rw [h]; exact if_neg hc

theorem readStep_full {s : State} {b : Byte} {rest : List Byte} (h : s.input = b :: rest)
    (hc : s.eng.ibuf.length = s.inputCap.val) :
    s.readStep =
      ({ s with input := rest, inCount := s.inCount + 1 } : State).raiseFault .capacityExceeded .noDetail := by
  unfold State.readStep State.inRead; rw [h]; exact if_pos hc

@[simp] theorem analyse_ibuf (w : Nat) (e : Engine) : (e.analyse w).ibuf = e.ibuf := by
  unfold Engine.analyse; dsimp only; split <;> rfl

/-- A candidate becomes the best, or leaves the best as it was. -/
theorem analyse_best (w : Nat) (e : Engine) :
    ((e.analyse w).bestW = w ∧ (e.analyse w).bestEst = candEstimate w e.ibuf ∧
      (e.analyse w).bestTable = candTable w e.ibuf) ∨
    (w ≠ Config.candFirst ∧ e.bestEst ≤ candEstimate w e.ibuf ∧ (e.analyse w).bestW = e.bestW ∧
      (e.analyse w).bestEst = e.bestEst ∧ (e.analyse w).bestTable = e.bestTable) := by
  unfold Engine.analyse
  dsimp only
  split
  · exact .inl ⟨rfl, rfl, rfl⟩
  · rename_i h
    exact .inr ⟨fun h' => h (.inl h'), Nat.le_of_not_lt fun h' => h (.inr h'), rfl, rfl, rfl⟩

theorem emitStep_byte {s : State} {b : Byte} {bytes : List Byte} (h : s.eng.pendBytes = b :: bytes) :
    s.emitStep = (s.emitByte b).setEng { s.eng with pendBytes := bytes } := by
  unfold State.emitStep; rw [h]

theorem emitStep_bit {s : State} {bit : Bool} {bits : List Bool} (h : s.eng.pendBytes = [])
    (h2 : s.eng.pendBits = bit :: bits) :
    s.emitStep = (s.setEng { s.eng with pendBits := bits }).pushBit bit := by
  simp only [State.emitStep, h, h2]

theorem emitStep_symbol {s : State} {x : Nat} {syms : List Nat} (h : s.eng.pendBytes = []) (h2 : s.eng.pendBits = [])
    (h3 : s.eng.pendSyms = x :: syms) :
    s.emitStep = s.setEng { s.eng with pendSyms := syms, pendBits := codeBits s.eng.bestTable x } := by
  simp only [State.emitStep, h, h2, h3]

theorem emitStep_end {s : State} (h : s.eng.pendBytes = []) (h2 : s.eng.pendBits = []) (h3 : s.eng.pendSyms = []) :
    s.emitStep = s.flush.finish := by
  simp only [State.emitStep, h, h2, h3]

theorem readByte_end {s : State} {d : Detail} {k : List Byte → State → State} (h : s.input = []) :
    s.readByte d k = s.raiseFault .malformedContainer d := by
  unfold State.readByte State.inRead; rw [h]

theorem readByte_more {s : State} {d : Detail} {k : List Byte → State → State} {b : Byte} {rest : List Byte}
    (h : s.input = b :: rest) :
    s.readByte d k = k (s.eng.recv ++ [b]) { s with input := rest, inCount := s.inCount + 1 } := by
  unfold State.readByte State.inRead; rw [h]; rfl

theorem startDict_none {s : State} (h : s.dictCount.toNat = 0) :
    s.startDict = (s.setEng { s.eng with dict := [], lmax := 0, recv := [] }).startPayload :=
  if_pos h

theorem startDict_some {s : State} (h : s.dictCount.toNat ≠ 0) :
    s.startDict = (s.setEng { s.eng with dict := [], lmax := 0, recv := [] }).setPhase (.dDict 0) :=
  if_neg h

theorem badEntry_iff (e : Entry) : badEntry e = true ↔ e.len = 0 ∨ 64 < e.len ∨ 2 ^ e.len ≤ e.code := by
  simp [badEntry, Config.maxCodeLen, or_assoc]

theorem ok_of_not_badEntry {e : Entry} (h : ¬ badEntry e = true) : e.ok := by
  rw [badEntry_iff] at h
  exact ⟨by omega, by simp only [Config.maxCodeLen]; omega, by omega⟩

theorem isSome_lookup (d : List Entry) (len code : Nat) :
    (lookup? d len code).isSome = true ↔ ∃ e ∈ d, e.len = len ∧ e.code = code := by
  simp [lookup?, List.find?_isSome]

theorem mem_of_lookup {d : List Entry} {len code : Nat} {e : Entry} (h : lookup? d len code = some e) :
    e ∈ d ∧ e.len = len ∧ e.code = code := by
  have := List.find?_some h
  simp at this
  exact ⟨List.mem_of_find?_eq_some h, this⟩

theorem acceptEntry_bad {i : Nat} {e : Entry} {s : State} (h : badEntry e = true) :
    s.acceptEntry i e = s.raiseFault .malformedContainer .badEntry :=
  if_pos h

theorem acceptEntry_dup {i : Nat} {e : Entry} {s : State} (h : ¬ badEntry e = true)
    (h2 : (lookup? s.eng.dict e.len e.code).isSome = true) :
    s.acceptEntry i e = s.raiseFault .malformedContainer .dupKey :=
  (if_neg h).trans (if_pos h2)

theorem acceptEntry_more {i : Nat} {e : Entry} {s : State} (h : ¬ badEntry e = true)
    (h2 : ¬ (lookup? s.eng.dict e.len e.code).isSome = true) (h3 : i + 1 < s.dictCount.toNat) :
    s.acceptEntry i e =
      (s.setEng { s.eng with dict := s.eng.dict ++ [e], lmax := max s.eng.lmax e.len, recv := [] }).setPhase
        (.dDict (i + 1)) :=
  (if_neg h).trans ((if_neg h2).trans (if_pos h3))

theorem acceptEntry_last {i : Nat} {e : Entry} {s : State} (h : ¬ badEntry e = true)
    (h2 : ¬ (lookup? s.eng.dict e.len e.code).isSome = true) (h3 : ¬ i + 1 < s.dictCount.toNat) :
    s.acceptEntry i e =
      (s.setEng { s.eng with dict := s.eng.dict ++ [e], lmax := max s.eng.lmax e.len, recv := [] }).startPayload :=
  (if_neg h).trans ((if_neg h2).trans (if_neg h3))

/-- The twenty bytes of an entry read back as that entry. -/
theorem entryOfBytes_entryBytes {e : Entry} (h1 : e.len < 2 ^ 32) (h2 : e.code < 2 ^ 64) (h3 : e.sym < 2 ^ 64) :
    entryOfBytes (entryBytes e) = e := by
  have a1 : slice (entryBytes e) 0 4 = be e.len 4 := by
    simp [slice, entryBytes]
  have a2 : slice (entryBytes e) 4 12 = be e.code 8 := by
    unfold slice entryBytes
    rw [List.take_append_of_le_length (by simp), List.take_of_length_le (by simp),
      List.drop_append_of_le_length (by simp), List.drop_of_length_le (by simp)]
    rfl
  have a3 : slice (entryBytes e) 12 20 = be e.sym 8 := by
    unfold slice entryBytes
    rw [List.take_of_length_le (by simp), List.drop_append_of_le_length (by simp),
      List.drop_of_length_le (by simp)]
    rfl
  simp only [entryOfBytes, a1, a2, a3]
  rw [fromBe_be (by simpa using h1), fromBe_be (by simpa using h2), fromBe_be (by simpa using h3)]

theorem matchKey_hit {bit : Bool} {s : State} {e : Entry}
    (h : lookup? s.eng.dict (s.eng.klen + 1) (2 * s.eng.kval + bit.toNat) = some e) :
    s.matchKey bit = s.setEng { s.eng with klen := 0, kval := 0, pendBits := bitstring e.sym s.width.toNat } := by
  simp only [State.matchKey, h]

theorem matchKey_miss {bit : Bool} {s : State}
    (h : lookup? s.eng.dict (s.eng.klen + 1) (2 * s.eng.kval + bit.toNat) = none) :
    s.matchKey bit =
      if s.eng.lmax ≤ s.eng.klen + 1 then
        (s.setEng { s.eng with klen := s.eng.klen + 1, kval := 2 * s.eng.kval + bit.toNat }).raiseFault
          .unknownCode .noDetail
      else s.setEng { s.eng with klen := s.eng.klen + 1, kval := 2 * s.eng.kval + bit.toNat } := by
  simp only [State.matchKey, h]; rfl

theorem payloadStep_emit {s : State} {bit : Bool} {bits : List Bool} (hz : s.origLen.toNat ≠ 0)
    (h : s.eng.pendBits = bit :: bits) :
    s.payloadStep =
      if ((s.setEng { s.eng with pendBits := bits }).outBit bit).1 = true then
        ((s.setEng { s.eng with pendBits := bits }).outBit bit).2.finish
      else ((s.setEng { s.eng with pendBits := bits }).outBit bit).2 := by
  unfold State.payloadStep
  rw [if_neg hz, h]
  dsimp only
  split <;> rename_i heq <;> rw [heq] <;> simp

theorem payloadStep_next {s u : State} {bit : Bool} (hz : s.origLen.toNat ≠ 0) (h : s.eng.pendBits = [])
    (hn : s.nextBit = some (bit, u)) : s.payloadStep = u.matchKey bit := by
  unfold State.payloadStep
  rw [if_neg hz, h]
  dsimp only
  rw [hn]

end Sys2Proof.Machine
end

