-- ==== Sys2Proof/Laws/Tree.lean ====
section
/-! SUPPORT. The tree builder and the code assignment: reinsertion and merging keep the nodes and their order, the
pre-order walk gives prefix-free codes. -/

namespace Sys2Proof.Machine

theorem insertLeaf_perm (a : Nat × Nat) (l : List (Nat × Nat)) : (insertLeaf a l).Perm (a :: l) := by
  induction l with
  | nil => exact .refl _
  | cons b l ih =>
    simp only [insertLeaf]
    split
    · exact .refl _
    · exact (ih.cons b).trans (.swap _ _ _)

/-- The initial work list holds FREQ's pairs, in another order. -/
theorem foldr_insertLeaf_perm (f : List (Nat × Nat)) : (f.foldr insertLeaf []).Perm f := by
  induction f with
  | nil => exact .refl _
  | cons a f ih => exact (insertLeaf_perm _ _).trans (ih.cons a)

theorem leaves_initialWl (f : List (Nat × Nat)) : (initialWl f).flatMap HuffTree.leaves = f.foldr insertLeaf [] := by
  unfold initialWl
  generalize f.foldr insertLeaf [] = l
  induction l with
  | nil => rfl
  | cons a l ih => simp only [List.map_cons, List.flatMap_cons, ih]; rfl

theorem insertLeaf_sorted (a : Nat × Nat) {l : List (Nat × Nat)} (h : l.Pairwise fun x y => y.2 ≤ x.2) :
    (insertLeaf a l).Pairwise fun x y => y.2 ≤ x.2 := by
  induction l with
  | nil => simp [insertLeaf]
  | cons b l ih =>
    simp only [insertLeaf]
    rw [List.pairwise_cons] at h
    split
    · rename_i hb
      simp [leafBefore] at hb
      have hba : b.2 ≤ a.2 := by omega
      rw [List.pairwise_cons, List.pairwise_cons]
      refine ⟨?_, h⟩
      intro x hx
      rcases List.mem_cons.1 hx with e | e
      · exact e ▸ hba
      · exact le_trans (h.1 x e) hba
    · rename_i hb
      simp [leafBefore] at hb
      rw [List.pairwise_cons]
      refine ⟨?_, ih h.2⟩
      intro x hx
      rcases List.mem_cons.1 ((insertLeaf_perm a l).mem_iff.1 hx) with e | e
      · subst e; omega
      · exact h.1 x e

/-- Reinsertion adds its node and keeps the others. -/
theorem insertNode_perm (m : HuffTree) (wl : List HuffTree) : (insertNode m wl).Perm (m :: wl) := by
  unfold insertNode
  refine List.perm_middle.trans ?_
  rw [List.take_append_drop]

/-- Reinsertion at index |{e ∈ WL : e.freq ≥ m.freq}| keeps a list ordered by frequency descending. -/
theorem insertNode_sorted (m : HuffTree) {wl : List HuffTree} (h : wl.Pairwise fun a b => b.freq ≤ a.freq) :
    (insertNode m wl).Pairwise fun a b => b.freq ≤ a.freq := by
  unfold insertNode
  have key : ∀ wl : List HuffTree, (wl.Pairwise fun a b => b.freq ≤ a.freq) →
      let k := wl.countP fun e => decide (m.freq ≤ e.freq)
      (∀ x ∈ wl.take k, m.freq ≤ x.freq) ∧ (∀ x ∈ wl.drop k, x.freq ≤ m.freq) := by
    intro wl
    induction wl with
    | nil => simp
    | cons e wl ih =>
      intro h
      rw [List.pairwise_cons] at h
      obtain ⟨i1, i2⟩ := ih h.2
      intro k
      by_cases he : m.freq ≤ e.freq
      · have hk : k = wl.countP (fun e => decide (m.freq ≤ e.freq)) + 1 := by
          simp [k, he]
        rw [hk]
        simp only [List.take_succ_cons, List.drop_succ_cons]
        refine ⟨?_, i2⟩
        intro x hx
        rcases List.mem_cons.1 hx with e' | e'
        · exact e' ▸ he
        · exact i1 x e'
      · have hz : wl.countP (fun e => decide (m.freq ≤ e.freq)) = 0 := by
          rw [List.countP_eq_zero]
          intro x hx
          have := h.1 x hx
          simp; omega
        have hk : k = 0 := by simp [k, he, hz]
        rw [hk]
        simp only [List.take_zero, List.drop_zero, List.not_mem_nil, false_implies, implies_true, true_and]
        intro x hx
        rcases List.mem_cons.1 hx with e' | e'
        · subst e'; omega
        · have := h.1 x e'; omega
  obtain ⟨k1, k2⟩ := key wl h
  rw [List.pairwise_append]
  refine ⟨h.sublist (List.take_sublist _ _), ?_, ?_⟩
  · rw [List.pairwise_cons]; exact ⟨k2, h.sublist (List.drop_sublist _ _)⟩
  · intro x hx y hy
    rcases List.mem_cons.1 hy with e | e
    · exact e ▸ k1 x hx
    · exact le_trans (k2 y e) (k1 x hx)

/-- All a merge step can do: nothing to a list of fewer than two nodes; else the last node goes left, the one before it
right. -/
theorem mergeStep_cases (wl : List HuffTree) :
    (wl.length ≤ 1 ∧ mergeStep wl = wl) ∨
    ∃ r a b, wl = r ++ [b, a] ∧ mergeStep wl = insertNode (.node (a.freq + b.freq) a b) r := by
  unfold mergeStep
  split
  · rename_i a b rest h
    right
    refine ⟨rest.reverse, a, b, ?_, rfl⟩
    have := congrArg List.reverse h
    simpa using this
  · rename_i h
    left
    refine ⟨?_, rfl⟩
    by_contra hc
    match hh : wl.reverse with
    | [] => have := congrArg List.length hh; simp at this; simp [this] at hc
    | [a] => have := congrArg List.length hh; simp at this; simp [this] at hc
    | a :: b :: r => exact h _ _ _ hh

theorem depth_le_internals (t : HuffTree) : t.depth ≤ t.internals := by
  induction t with
  | leaf => simp [HuffTree.depth, HuffTree.internals]
  | node f l r ihl ihr => simp [HuffTree.depth, HuffTree.internals]; omega

theorem bitstring_double {v k : Nat} (b : Bool) (h : v < 2 ^ k) :
    bitstring (2 * v + b.toNat) (k + 1) = bitstring v k ++ [b] := by
  have := bitstring_val (bitstring v k ++ [b])
  rw [val_append_singleton, val_bitstring h] at this
  simpa using this

/-- All the walk below a node gives: one entry a leaf, in order; each code extends the node's path and fits its length;
no code is the beginning of another. -/
theorem assign_spec (t : HuffTree) (len v : Nat) (hv : v < 2 ^ len) :
    (assign len v t).map Entry.sym = t.leaves.map Prod.fst ∧
    (∀ e ∈ assign len v t, len ≤ e.len ∧ e.len ≤ len + t.depth ∧ e.code < 2 ^ e.len ∧
      ∃ suf, e.bits = bitstring v len ++ suf) ∧
    ∀ d ∈ assign len v t, ∀ e ∈ assign len v t, d.bits <+: e.bits → d = e := by
  induction t generalizing len v with
  | leaf s f =>
    simp only [assign, List.mem_singleton]
    refine ⟨rfl, ?_, ?_⟩
    · rintro e rfl; exact ⟨le_refl _, by simp [HuffTree.depth], hv, [], by simp [Entry.bits]⟩
    · rintro d rfl e rfl _; rfl
  | node f l r ihl ihr =>
    have hp : 2 ^ (len+1) = 2 * 2^len := by rw [Nat.pow_succ]; ring
    obtain ⟨l1, l2, l3⟩ := ihl (len+1) (2*v) (by omega)
    obtain ⟨r1, r2, r3⟩ := ihr (len+1) (2*v+1) (by omega)
    have b0 := bitstring_double false hv
    have b1 := bitstring_double true hv
    simp only [Bool.toNat_false, Bool.toNat_true, Nat.add_zero] at b0 b1
    rw [b0] at l2; rw [b1] at r2
    simp only [assign]
    refine ⟨by simp [HuffTree.leaves, l1, r1], ?_, ?_⟩
    · intro e he
      rcases List.mem_append.1 he with he | he
      · obtain ⟨a1, a2, a3, suf, a4⟩ := l2 e he
        exact ⟨by omega, by simp [HuffTree.depth]; omega, a3, false :: suf, by simp [a4]⟩
      · obtain ⟨a1, a2, a3, suf, a4⟩ := r2 e he
        exact ⟨by omega, by simp [HuffTree.depth]; omega, a3, true :: suf, by simp [a4]⟩
    · intro d hd e he hpre
      rcases List.mem_append.1 hd with hd | hd <;> rcases List.mem_append.1 he with he | he
      · exact l3 d hd e he hpre
      · obtain ⟨_, _, _, s1, a1⟩ := l2 d hd
        obtain ⟨_, _, _, s2, a2⟩ := r2 e he
        rw [a1, a2] at hpre
        simp at hpre
      · obtain ⟨_, _, _, s1, a1⟩ := r2 d hd
        obtain ⟨_, _, _, s2, a2⟩ := l2 e he
        rw [a1, a2] at hpre
        simp at hpre
      · exact r3 d hd e he hpre

theorem length_codeBits (t : List Entry) (s : Nat) : (codeBits t s).length = codeLen t s := by
  unfold codeBits codeLen; split <;> simp

theorem length_entryBytes (e : Entry) : (entryBytes e).length = 20 := by simp [entryBytes]

theorem length_dictBytes (d : List Entry) : (dictBytes d).length = 20 * d.length := by
  induction d with
  | nil => rfl
  | cons e d ih => simp [dictBytes, entryBytes] at *; omega

end Sys2Proof.Machine
end

