-- ==== Sys2Proof/Tests/Slice0.lean ====
section
/-! SUPPORT. Tests, each one decode, one function or one step, with its expected result from spec/95_test_vectors.md
(the vector's id in the docstring), and for every statement with hypotheses a state that meets them. -/

namespace Sys2Proof.Tests

open Sys2Proof Sys2Proof.Machine

/-- A state with no command executing and INPUT_CAP = 2. -/
def idleState : State := { State.reset with inputCap := 2 }

/-- The state a step answers, if it answers one. -/
def nextOf : Host.Outcome State Fault Refusal → Option State
  | .next s => some s
  | .fault _ => none
  | .refused _ => none

/-- What a test looks at after a command: STATE, CAUSE and the phase. -/
def look (o : Host.Outcome State Fault Refusal) : Option (RunState × Cause × Phase) :=
  (nextOf o).map fun s => (s.state, s.cause, s.phase)

/-- The refusal a step answers, if it answers one. -/
def refusalOf : Host.Outcome State Fault Refusal → Option Refusal
  | .next _ => none
  | .fault _ => none
  | .refused r => some r

/-- A state in FAULT with CAUSE = UnknownCode, WIDTH = 4 (the end of program P2's first command). -/
def faultState : State := { idleState with state := .fault, cause := .unknownCode, width := 4 }

/-- A state in DONE with DICT_COUNT = 2. -/
def doneState : State := { idleState with state := .done, dictCount := 2 }

/-- A COMPRESS that has read one byte. -/
def readingState : State :=
  { idleState with state := .busy, phase := .cRead, inCount := 1, eng := { ibuf := [1] }, input := [2, 3] }

/-- A DECOMPRESS at its first header byte. -/
def headerState (input : List Byte) : State := { idleState with state := .busy, phase := .dHeader, input := input }

/-- A DECOMPRESS in its payload, width 8, L = 3, with the dictionary of vector X14. -/
def payloadState (input : List Byte) : State :=
  { idleState with
    state := .busy, phase := .dPayload, width := 8, origLen := 3, dictCount := 1, input := input
    eng := { dict := [⟨2, 0, 0x41⟩], lmax := 2 } }

/- The ill-formed terms: `illegal` must carry an illegal word. -/

theorem test_illegal_nop_refused : (Instr.illegal 0x0000000000000000#64).wellFormed = false := by decide
theorem test_illegal_compress_refused : (Instr.illegal 0x0000000000000001#64).wellFormed = false := by decide
theorem test_illegal_decompress_refused : (Instr.illegal 0x0000000000000002#64).wellFormed = false := by decide
theorem test_illegal_clear_refused : (Instr.illegal 0x0000000000000003#64).wellFormed = false := by decide
theorem test_illegal_four_accepted : (Instr.illegal 0x0000000000000004#64).wellFormed = true := by decide

/- Decoding: RSV[63:8] ++ OPC[7:0] (30_encoding.md R60, R61), written out. -/

theorem test_word_nop : decode (0x00000000000000#56 ++ 0b00000000#8) = .nop := by decide
theorem test_word_compress : decode (0x00000000000000#56 ++ 0b00000001#8) = .compress := by decide
theorem test_word_decompress : decode (0x00000000000000#56 ++ 0b00000010#8) = .decompress := by decide
theorem test_word_clear : decode (0x00000000000000#56 ++ 0b00000011#8) = .clear := by decide
/-- K8. -/
theorem test_word_opc7 : decode (0x00000000000000#56 ++ 0b00000111#8) = .illegal 0x0000000000000007#64 := by decide
/-- K9: a nonzero reserved bit under a legal OPC. -/
theorem test_word_rsv : decode 0x0000000100000001#64 = .illegal 0x0000000100000001#64 := by decide
theorem test_word_rsv_bit8 : decode (0x00000000000001#56 ++ 0b00000001#8) = .illegal 0x0000000000000101#64 := by decide
theorem test_word_rsv_bit63 : decode (0x80000000000000#56 ++ 0b00000010#8) = .illegal 0x8000000000000002#64 := by
  decide
theorem test_access_32_bits_has_no_word : decodeAccess 32 1 = .error (.wrongWidth 32) := rfl
theorem test_table_word_compress : decodeTableWord 64 1 = some .compress := by decide

/- The commands, one step each. -/

/-- K1. -/
theorem test_nop_idle : look (exec .nop idleState) = some (.idle, .noFault, .idle) := by decide
/-- K2. -/
theorem test_nop_busy : nextOf (exec .nop readingState) = some readingState := by decide
/-- K3: ignored, the stream it would have taken untouched. -/
theorem test_compress_busy :
    nextOf (exec .compress { readingState with attached := some [7] }) =
      some { readingState with attached := some [7] } := by decide
/-- P1: `cmd COMPRESS` after reset. -/
theorem test_compress_idle :
    look (exec .compress { idleState with attached := some [0x00, 0xFF, 0x00] }) =
      some (.busy, .noFault, .cRead) := by decide
/-- K5: registers zeroed. -/
theorem test_decompress_done :
    (nextOf (exec .decompress { doneState with attached := some [] })).map
      (fun s => (s.state, s.phase, s.dictCount)) = some (.busy, .dHeader, 0) := by decide
/-- R131, FAULT row. -/
theorem test_decompress_fault : nextOf (exec .decompress faultState) = some faultState := by decide
/-- K4. -/
theorem test_clear_busy : nextOf (exec .clear readingState) = some readingState := by decide
/-- K7: result registers kept. -/
theorem test_clear_fault :
    (nextOf (exec .clear faultState)).map (fun s => (s.state, s.regValue .status, s.width)) =
      some (.idle, 0, 4) := by decide
/-- K8. -/
theorem test_illegal_idle :
    (nextOf (exec (.illegal 7) idleState)).map (State.regValue · .status) = some 0x0303#64 := by decide
/-- K10, with the first fault's cause. -/
theorem test_illegal_fault : nextOf (exec (.illegal 0xFF) faultState) = some faultState := by decide

/- The register block. -/

/-- R42: a 32-bit access, and offset 0x40. -/
theorem test_narrow_access : refusalOf (busRead 32 0x08 idleState) = some (.accessWidth 32) := by decide
theorem test_offset_past_end : refusalOf (busWrite 64 0x40 1 idleState) = some (.accessOffset 0x40) := by decide
/-- P2: STATUS = 0x0203. -/
theorem test_status_word : statusWord .fault .unknownCode .noDetail = 0x0203#64 := by decide
/-- X9: STATUS = 0x060103. -/
theorem test_status_detail : statusWord .fault .malformedContainer .dupKey = 0x060103#64 := by decide
theorem test_read_width : (nextOf (busRead 64 0x10 faultState)).bind State.rdata = some 4#64 := by decide
/-- R27: STATUS reads 1 while BUSY. -/
theorem test_read_status_busy : (nextOf (busRead 64 0x08 readingState)).bind State.rdata = some 1#64 := by decide

/- Bit cursor. -/

/-- B1. -/
theorem test_push_three :
    let t := ((idleState.pushBit true).pushBit false).pushBit true
    (t.output, t.eng.acc, t.eng.fill) = ([], 0b101#8, 3) := by decide
/-- B2. -/
theorem test_flush_three :
    ({ idleState with eng := { acc := 0b101, fill := 3 } } : State).flush.output = [0xA0#8] := by decide
/-- B5. -/
theorem test_push_nine :
    let t := [true, false, false, false, false, false, false, true, true].foldl (fun s b => s.pushBit b) idleState
    (t.output, t.eng.acc, t.eng.fill) = ([0x81#8], 1#8, 1) := by decide
/-- B7, the first bit. -/
theorem test_next_bit :
    ({ idleState with input := [0xA5] } : State).nextBit.map (fun p => (p.1, p.2.eng.pleft, p.2.inCount)) =
      some (true, 7, 1) := by decide
/-- B8. -/
theorem test_next_bit_end : idleState.nextBit = none := by decide
/-- B9, the eighth bit. -/
theorem test_out_bit :
    let r := ({ idleState with origLen := 1, eng := { oacc := 0b0100000, ofill := 7 } } : State).outBit true
    (r.1, r.2.output) = (true, [0x41#8]) := by decide

/- Frequency analyser. -/

/-- Q1. -/
theorem test_observe_3 : observe 3 [0xFF] = [(6, 1), (7, 2)] := by decide
/-- Q3. -/
theorem test_symbols_7 : symbols 7 [0x80, 0x01] = [0x40, 0x00, 0x20] := by decide
/-- Q5. -/
theorem test_observe_5 : observe 3 [0x00, 0xFF, 0x00] = [(0, 4), (1, 1), (4, 1), (7, 2)] := by decide
/-- Q7. -/
theorem test_observe_phantom : observe 6 [0x41] = [(0x10, 2)] := by decide

/- Tree and code table: (len, code, symbol). -/

/-- T1. -/
theorem test_tree_1 :
    deriveDictionary (build [(0, 1), (1, 1), (2, 1), (3, 1)]) =
      [⟨2, 0, 1⟩, ⟨2, 1, 0⟩, ⟨2, 2, 3⟩, ⟨2, 3, 2⟩] := by decide
/-- T3. -/
theorem test_tree_3 :
    deriveDictionary (build [(1, 3), (2, 3), (5, 3)]) = [⟨1, 0, 1⟩, ⟨2, 2, 5⟩, ⟨2, 3, 2⟩] := by decide
/-- T4: the tie that reinsertion breaks. -/
theorem test_tree_4 :
    deriveDictionary (build [(0, 5), (1, 2), (2, 2), (3, 1)]) =
      [⟨2, 0, 1⟩, ⟨3, 2, 3⟩, ⟨3, 3, 2⟩, ⟨1, 1, 0⟩] := by decide
/-- T6, T7. -/
theorem test_tree_single : deriveDictionary (build [(0xAA, 500)]) = [⟨1, 0, 0xAA⟩] := by decide
theorem test_tree_empty : deriveDictionary (build []) = [] := by decide
/-- E7, w = 3 and w = 8. -/
theorem test_estimate_0F : (candEstimate 3 [0x0F], candEstimate 8 [0x0F]) = (78, 38) := by decide
/-- V4: the last entry byte is the phantom symbol. -/
theorem test_entry_bytes :
    entryBytes ⟨1, 0, 0x10⟩ = [0, 0, 0, 1, 0, 0, 0, 0, 0, 0, 0, 0, 0, 0, 0, 0, 0, 0, 0, 0x10] := by decide
/-- V5: hdr(8, 5, 4). -/
theorem test_header_bytes :
    headerBytes 8 5 4 = [8, 0, 0, 0, 0, 0, 0, 0, 5, 0, 0, 0, 0, 0, 0, 0, 4] := by decide

/- One engine step. -/

/-- C1: the third byte with INPUT_CAP = 2. -/
theorem test_read_full :
    let t := ({ readingState with inCount := 2, eng := { ibuf := [1, 2] }, input := [3] } : State).engineStep
    (t.regValue .status, t.inCount, t.output) = (0x0403#64, 3, []) := by decide
/-- R105, no vector: an entry of 65 bits in the winning table. -/
theorem test_code_too_long :
    let t := ({ readingState with phase := .cSelect, eng := { bestW := 2, bestTable := [⟨65, 0, 0⟩] } } :
      State).engineStep
    (t.regValue .status, t.output) = (0x0503#64, []) := by decide
/-- X1. -/
theorem test_trunc_header : (headerState []).engineStep.regValue .status = 0x010103#64 := by decide
/-- X2. -/
theorem test_bad_width :
    let t := (headerState [9]).engineStep
    (t.regValue .status, t.width, t.inCount) = (0x040103#64, 9, 1) := by decide
/-- X4, X6 to X9: the checks. -/
theorem test_entry_checks :
    (badEntry ⟨0, 0, 5⟩, badEntry ⟨2, 4, 5⟩, badEntry ⟨65, 0, 5⟩, badEntry ⟨64, 0, 5⟩, badEntry ⟨2, 3, 5⟩) =
      (true, true, true, false, false) := by decide
theorem test_dup_key :
    (({ headerState [] with dictCount := 2, eng := { dict := [⟨1, 0, 5⟩] } } : State).acceptEntry 1
      ⟨1, 0, 6⟩).regValue .status = 0x060103#64 := by decide
/-- X12: Lmax = 0, the first bit. -/
theorem test_unknown_code :
    let t := ({ headerState [0xFF] with phase := .dPayload, origLen := 1 } : State).engineStep
    (t.regValue .status, t.output) = (0x0203#64, []) := by decide
/-- X13. -/
theorem test_trunc_payload :
    ({ headerState [] with phase := .dPayload, origLen := 1 } : State).engineStep.regValue .status =
      0x030103#64 := by decide
/-- X15: the symbol's bits above w are ignored. -/
theorem test_symbol_low_bits : bitstring 0x1F5 4 = [false, true, false, true] := by decide

/- Witnesses: for each statement with hypotheses, states that meet them, at the boundaries of its clauses. -/

/-- A host waiting for a COMPRESS that has read one byte meets the invariant. -/
theorem witness_inv_reading : MachineInv { readingState with agenda := [.wait] } :=
  ⟨by decide, by decide, by decide, fun _ => by decide, ⟨by decide, by decide, rfl⟩⟩

/-- A state in FAULT meets the invariant. -/
theorem witness_inv_fault : MachineInv faultState := ⟨by decide, by decide, by decide, by decide, trivial⟩

/-- A state in DONE meets the invariant. -/
theorem witness_inv_done : MachineInv doneState := ⟨by decide, by decide, by decide, by decide, trivial⟩

/-- WordIsLegalByReservedAndOpcode: OPC = 3 is the last legal value, 4 the first illegal one. -/
theorem witness_WordIsLegal :
    ((3#64).extractLsb' 8 56 = 0 ∧ (3#64).extractLsb' 0 8 = BitVec.ofNat 8 3) ∧
    ¬ ((4#64).extractLsb' 8 56 = 0 ∧ ∃ k < 4, (4#64).extractLsb' 0 8 = BitVec.ofNat 8 k) := by decide

theorem witness_DecodeAndEncodeAgree : (Instr.illegal 0x8000000000000000#64).wellFormed = true := by decide

theorem witness_StepRunsTheWrittenCommand :
    ({ idleState with agenda := [.write 64 0x00 3, .wait] } : State).agenda = .write 64 0x00 3 :: [.wait] := rfl

theorem witness_FetchWordRunsTheTableRow :
    decodeTableWord 64 3 = some .clear ∧ decodeTableWord 64 7 = some (.illegal 7) := by decide

theorem witness_StepRunsTheEngine :
    idleState.agenda = [] ∧ ({ readingState with agenda := [.engine] } : State).agenda = .engine :: [] := by decide

/-- CompressStarts, DecompressStarts: both STATE values, an empty stream and a longer one. -/
theorem witness_starts :
    (({ idleState with attached := some [] } : State).state = .idle ∧
      ({ idleState with attached := some [] } : State).attached = some []) ∧
    (({ doneState with attached := some [1, 2, 3] } : State).state = .done ∧
      ({ doneState with attached := some [1, 2, 3] } : State).attached = some [1, 2, 3]) := by decide

theorem witness_CommandsWithoutStream : idleState.state = .idle ∧ idleState.attached = none := by decide

/-- ClearLeavesFault, IllegalWordFaults, IgnoredCommandsChangeNothing: each STATE. -/
theorem witness_states :
    idleState.state = .idle ∧ readingState.state = .busy ∧ doneState.state = .done ∧ faultState.state = .fault ∧
    Instr.compress ≠ .clear := by decide

/-- ClearLeavesFault: its clause about IDLE and its clause about FAULT. -/
theorem witness_ClearLeavesFault :
    (idleState.state = .idle ∧ MachineInv idleState) ∧
    ((nextOf (exec .clear faultState)).map fun t => decide (t.state ≠ .fault)) = some true :=
  ⟨⟨by decide, by decide, by decide, by decide, by decide, trivial⟩, by decide⟩

/-- RegisterAccessContract: the last offset, the first past it, a misaligned one, a narrow access. -/
theorem witness_RegisterAccessContract :
    ((64 : Nat) = 64 ∧ (0x38 : Nat) % 8 = 0 ∧ (0x38 : Nat) ≤ 0x38) ∧
    ¬ ((64 : Nat) = 64 ∧ (0x40 : Nat) % 8 = 0 ∧ (0x40 : Nat) ≤ 0x38) ∧
    ¬ ((64 : Nat) = 64 ∧ (0x04 : Nat) % 8 = 0 ∧ (0x04 : Nat) ≤ 0x38) ∧
    ¬ ((32 : Nat) = 64 ∧ (0x08 : Nat) % 8 = 0 ∧ (0x08 : Nat) ≤ 0x38) ∧
    ({ idleState with agenda := [.read 64 0x38] } : State).agenda = .read 64 0x38 :: [] := by decide

/-- ReadOnlyRegistersIgnoreWrites: the first and the last read-only register. -/
theorem witness_ReadOnlyRegisters :
    ((0x08 : Nat) % 8 = 0 ∧ (0x08 : Nat) ≤ 0x08 ∧ (0x08 : Nat) ≤ 0x38) ∧
    ((0x38 : Nat) % 8 = 0 ∧ (0x08 : Nat) ≤ 0x38 ∧ (0x38 : Nat) ≤ 0x38) ∧
    ({ idleState with agenda := [.write 64 0x38 9] } : State).agenda = .write 64 0x38 9 :: [] := by decide

theorem witness_ReadsReturnTheRegisters :
    faultState.state ≠ .busy ∧
    ({ faultState with agenda := [rd .inputCap] } : State).agenda = rd .inputCap :: [] ∧
    (Reg.inputCap, BitVec.ofNat 64 faultState.inputCap.val) ∈ [(Reg.cmd, (0 : Word)),
      (.status, statusWord faultState.state faultState.cause faultState.detail), (.width, faultState.width.setWidth 64),
      (.origLen, faultState.origLen), (.dictCount, faultState.dictCount), (.inCount, faultState.inCount),
      (.outCount, faultState.outCount), (.inputCap, BitVec.ofNat 64 faultState.inputCap.val)] := by decide

/-- ReadsWhileBusy: one register of each clause. -/
theorem witness_ReadsWhileBusy :
    readingState.state = .busy ∧
    ({ readingState with agenda := [rd .status] } : State).agenda = rd .status :: [] ∧
    Reg.width ∈ [Reg.width, .origLen, .dictCount, .inCount, .outCount] ∧
    Reg.outCount ∈ [Reg.width, .origLen, .dictCount, .inCount, .outCount] ∧
    ({ readingState with agenda := [rd .inputCap] } : State).agenda = rd .inputCap :: [] ∧
    ({ readingState with agenda := [rd .cmd] } : State).agenda = rd .cmd :: [] := by decide

theorem witness_InputCapIsConstant :
    (nextOf (step { idleState with agenda := [rd .inputCap] })).map State.inputCap = some 2 := by decide

theorem witness_ResetInputAborts :
    ({ readingState with agenda := [.reset] } : State).agenda = .reset :: [] := rfl

theorem witness_FaultIsSticky :
    faultState.state = .fault ∧ (nextOf (step { faultState with agenda := [cmd (encode .nop)] })).isSome := by decide

/-- FaultedCompressWroteNothing: a COMPRESS of three bytes with INPUT_CAP = 0 ends in FAULT after one step. -/
theorem witness_FaultedCompress :
    ((nextOf (exec .compress { idleState with inputCap := 0, attached := some [1] })).map fun t =>
      (engineRun 1 t).state) = some .fault := by decide

theorem witness_PushedBits : idleState.eng.acc = 0 ∧ idleState.eng.fill = 0 := by decide

/-- UnpackedBitsAreReadOnDemand: every bit of the stream. -/
theorem witness_UnpackedBits :
    (headerState [0xA5, 1]).eng.pleft = 0 ∧ 16 ≤ 8 * (headerState [0xA5, 1]).input.length := by decide

/-- OutBitWritesEveryEighthBit: the last bit that is kept, and the one that writes. -/
theorem witness_OutBit :
    (({ idleState with eng := { ofill := 6, oacc := 63 } } : State).eng.ofill < 7 ∧
      ({ idleState with eng := { ofill := 6, oacc := 63 } } : State).eng.oacc.toNat < 2 ^ 6) ∧
    (({ idleState with eng := { ofill := 7, oacc := 127 } } : State).eng.ofill = 7 ∧
      ({ idleState with eng := { ofill := 7, oacc := 127 } } : State).eng.oacc.toNat < 2 ^ 7) := by decide

/-- SymbolsTileTheInput: width 3 on one byte has full groups and a partial one; FrequenciesSumToSymbolCount and
EstimateIsExact ask the same of the width. -/
theorem witness_Symbols :
    (1 ≤ 3 ∧ 3 ≤ 8) ∧ 1 < 8 * [(0xFF : Byte)].length / 3 ∧ 8 * [(0xFF : Byte)].length % 3 ≠ 0 ∧
    [(0xFF : Byte)] ≠ [] := by decide

theorem witness_Table : Freq.wf [(6, 1), (7, 2)] = true ∧ [(6, 1), (7, 2)] ≠ [] := by decide

theorem witness_CodesArePrefixFree :
    (⟨1, 0, 6⟩ : Entry) ∈ deriveDictionary (build [(6, 1), (7, 2)]) ∧
    ((⟨1, 0, 6⟩ : Entry).bits <+: (⟨1, 0, 6⟩ : Entry).bits) := by decide

theorem witness_Selection :
    ({ readingState with phase := .cAnalyse 2 } : State).phase = .cAnalyse 2 ∧
    2 ≤ 8 ∧ (8 : Nat) ≤ 8 := by decide

/-- CompressWritesTheContainer: an empty input. -/
theorem witness_CompressWrites :
    ([] : List Byte).length ≤ idleState.inputCap.val ∧ tooLong (candTable (winner []) []) = false ∧
    ({ idleState with attached := some [], agenda := [cmd (encode .compress)] } : State).agenda =
      [cmd (encode .compress)] := by decide

/-- CompressWritesTheContainer: an input of INPUT_CAP bytes. -/
theorem witness_CompressWrites_full :
    ([0x41, 0x42] : List Byte).length = idleState.inputCap.val ∧
    tooLong (candTable (winner [0x41, 0x42]) [0x41, 0x42]) = false ∧
    ({ idleState with attached := some [0x41, 0x42], agenda := [cmd (encode .compress)] } : State).attached =
      some [0x41, 0x42] := by decide

/-- SelectionRefusesLongCodes: the longest code that fits, and one bit more. -/
theorem witness_LongCodes :
    ({ readingState with phase := .cSelect, eng := { bestTable := [⟨64, 0, 0⟩] } } : State).phase = .cSelect ∧
    (∀ e ∈ [(⟨64, 0, 0⟩ : Entry)], e.len ≤ 64) ∧ (∃ e ∈ [(⟨65, 0, 0⟩ : Entry)], 64 < e.len) := by decide

/-- CompressStopsAtCapacity: one byte too many. -/
theorem witness_CompressStops :
    idleState.inputCap.val < [(1 : Byte), 2, 3].length ∧
    ({ idleState with attached := some [1, 2, 3], agenda := [cmd (encode .compress)] } : State).attached =
      some [1, 2, 3] := by decide

/-- HeaderReadsAndChecksWidth: the widths 1, 2, 8 and 9, and no byte. -/
theorem witness_Header :
    (headerState []).phase = .dHeader ∧ (headerState []).eng.recv = [] ∧ (headerState []).input = [] ∧
    (headerState [1]).input = 1 :: [] ∧ (1#8).toNat < 2 ∧ (2 ≤ (2#8).toNat ∧ (2#8).toNat ≤ 8) ∧
    (2 ≤ (8#8).toNat ∧ (8#8).toNat ≤ 8) ∧ 8 < (9#8).toNat := by decide

/-- HeaderReadsLengthAndCount: counts 256 and 257, and a stream one byte short. -/
theorem witness_HeaderCount :
    ({ headerState (be 1 8 ++ be 256 8 ++ []) with eng := { recv := [4] } } : State).eng.recv = [4] ∧
    (be 1 8).length = 8 ∧ (be 256 8).length = 8 ∧ fromBe (be 256 8) ≤ 256 ∧ fromBe (be 256 8) ≠ 0 ∧
    256 < fromBe (be 257 8) ∧ fromBe (be 0 8) = 0 ∧ (List.replicate 15 (0 : Byte)).length < 16 := by decide

/-- EntryIsReadAndChecked: the boundary entries of each check, a free key and a taken one. -/
theorem witness_Entry :
    ({ headerState (be 1 4 ++ be 0 8 ++ be 6 8 ++ []) with phase := .dDict 1, eng := { dict := [⟨1, 0, 5⟩] } } :
      State).eng.recv = [] ∧
    (64 < 65 ∧ 2 ^ 2 ≤ 4) ∧ ¬ (64 = 0 ∨ 64 < 64 ∨ 2 ^ 64 ≤ 2 ^ 64 - 1) ∧
    (∃ e ∈ [(⟨1, 0, 5⟩ : Entry)], e.len = 1 ∧ e.code = 0) ∧
    ¬ (∃ e ∈ [(⟨1, 0, 5⟩ : Entry)], e.len = 1 ∧ e.code = 1) := by decide

/-- TruncatedEntryFaults: one byte short. -/
theorem witness_TruncatedEntry :
    ({ headerState (List.replicate 19 0) with phase := .dDict 0 } : State).phase = .dDict 0 ∧
    (List.replicate 19 (0 : Byte)).length < 20 := by decide

/-- PayloadBitExtendsTheKey: a matched symbol's bit that completes the L-th byte, and one that completes none. -/
theorem witness_PayloadSymbolBit :
    let s : State := { payloadState [] with origLen := 1 }
    let full : State := s.setEng { s.eng with ofill := 7, pendBits := [] }
    let empty : State := s.setEng { s.eng with ofill := 0, pendBits := [] }
    s.phase = .dPayload ∧ s.origLen ≠ 0 ∧
    (full.outBit true).1 = true ∧ (empty.outBit true).1 = false := by decide

/-- PayloadBitExtendsTheKey: the end of the stream, a miss that goes on, a hit, and a miss at Lmax. -/
theorem witness_PayloadBit :
    (payloadState []).phase = .dPayload ∧ (payloadState []).origLen ≠ 0 ∧ (payloadState []).eng.pendBits = [] ∧
    (payloadState []).nextBit = none ∧
    ((payloadState [0x0F]).nextBit.map Prod.fst = some false ∧ (payloadState [0x0F]).eng.klen + 1 < 2) ∧
    (∃ e ∈ (payloadState []).eng.dict, e.len = 1 + 1 ∧ e.code = 2 * 0 + false.toNat) ∧
    (¬ (∃ e ∈ (payloadState []).eng.dict, e.len = 1 + 1 ∧ e.code = 2 * 0 + true.toNat)) ∧
    (payloadState []).eng.lmax ≤ 1 + 1 := by decide

theorem witness_ZeroLength :
    ({ headerState [0xFF] with phase := .dPayload } : State).phase = .dPayload ∧
    ({ headerState [0xFF] with phase := .dPayload } : State).origLen = 0 := by decide

/-- DecompressWritesExactlyTheDeclaredLength: the container V3 has ended DONE after its 17 header bytes and one step. -/
theorem witness_DecompressLength :
    ((nextOf (exec .decompress { idleState with attached := some (2 :: List.replicate 16 0) })).map fun t =>
      (engineRun 18 t).state) = some .done := by decide

theorem witness_CompressOrder :
    readingState.phase = .cRead ∧ ({ readingState with phase := .cSelect } : State).phase = .cSelect ∧
    ({ readingState with phase := .cEmit } : State).phase = .cEmit := by decide

/-- ResultRegistersAreKept: a DONE state, and the reads of its registers. -/
theorem witness_ResultRegisters :
    doneState.state ≠ .busy ∧ (nextOf (step { doneState with agenda := [rd .width] })).isSome := by decide

/-- InternalStateIsNeverObserved: an idle state and the same with other internal state. -/
theorem witness_InternalState :
    idleState.phase = .idle ∧ SameOutside idleState { idleState with eng := { ibuf := [1], fill := 3 } } :=
  ⟨by decide, rfl⟩

/-- DecompressUndoesCompress, EmptyInputRoundTrips: the COMPRESS of no bytes has ended DONE with the container V3, and
that is the stream of the DECOMPRESS. -/
theorem witness_RoundTrip :
    (nextOf (Sys2Proof.core.run 28
      { idleState with attached := some [], agenda := [cmd (encode .compress)] })).map
        (fun t => (t.state, t.agenda, t.output)) = some (.done, [], 2 :: List.replicate 16 0) ∧
    ({ idleState with attached := some (2 :: List.replicate 16 0), agenda := [cmd (encode .decompress)] } :
      State).attached = some (2 :: List.replicate 16 0) := by decide

theorem witness_Attach :
    doneState.state ≠ .busy ∧ readingState.state = .busy ∧
    ({ doneState with agenda := [.attach [1]] } : State).agenda = .attach [1] :: [] := by decide

end Sys2Proof.Tests
end

section
/-! PROOFS. The ports: an engine step makes at most one access, which the counters count (20_memory.md R52, R54). -/

namespace Sys2Proof.Machine

/-- Neither stream and neither counter differs. -/
def SamePorts (s t : State) : Prop :=
  t.input = s.input ∧ t.inCount = s.inCount ∧ t.output = s.output ∧ t.outCount = s.outCount

/-- No port access, or one byte taken and counted, or one byte written and counted. -/
def OnePortAccess (s t : State) : Prop :=
  SamePorts s t ∨
  (∃ b, s.input = b :: t.input ∧ t.inCount = s.inCount + 1 ∧ t.output = s.output ∧ t.outCount = s.outCount) ∨
  (∃ b, t.output = s.output ++ [b] ∧ t.outCount = s.outCount + 1 ∧ t.input = s.input ∧ t.inCount = s.inCount)

theorem samePorts_refl (s : State) : SamePorts s s := ⟨rfl, rfl, rfl, rfl⟩

theorem OnePortAccess.trans_samePorts {s t u : State} (h : OnePortAccess s t) (hu : SamePorts t u) :
    OnePortAccess s u := by
  obtain ⟨hi, hic, ho, hoc⟩ := hu
  unfold OnePortAccess SamePorts
  rw [hi, hic, ho, hoc]
  exact h

/-- Writing a byte and then anything that leaves the ports alone is one access. -/
theorem onePortAccess_emitByte {s t : State} {b : Byte} (h : SamePorts (s.emitByte b) t) : OnePortAccess s t :=
  OnePortAccess.trans_samePorts (t := s.emitByte b) (.inr (.inr ⟨b, rfl, rfl, rfl, rfl⟩)) h

/-- Taking and counting the next byte and then anything that leaves the ports alone is one access. -/
theorem onePortAccess_take {s t : State} {b : Byte} {rest : List Byte} (hi : s.input = b :: rest)
    (h : SamePorts { s with input := rest, inCount := s.inCount + 1 } t) : OnePortAccess s t :=
  OnePortAccess.trans_samePorts (t := { s with input := rest, inCount := s.inCount + 1 })
    (.inr (.inl ⟨b, hi, rfl, rfl, rfl⟩)) h

theorem onePortAccess_pushBit (bit : Bool) (s : State) : OnePortAccess s (s.pushBit bit) := by
  by_cases hf : s.eng.fill = 7
  · rw [pushBit_eight hf]; exact onePortAccess_emitByte (samePorts_refl _)
  · rw [pushBit_more hf]; exact .inl (samePorts_refl _)

theorem flush_rest {s : State} (h : 0 < s.eng.fill) :
    s.flush = (s.emitByte (s.eng.acc <<< (8 - s.eng.fill))).setEng { s.eng with acc := 0, fill := 0 } :=
  if_pos h

theorem onePortAccess_flush (s : State) : OnePortAccess s s.flush := by
  by_cases hf : s.eng.fill = 0
  · rw [flush_empty hf]; exact .inl (samePorts_refl _)
  · rw [flush_rest (by omega)]; exact onePortAccess_emitByte (samePorts_refl _)

theorem onePortAccess_outBit (bit : Bool) (s : State) : OnePortAccess s (s.outBit bit).2 := by
  by_cases hf : s.eng.ofill = 7
  · rw [outBit_eight hf]; exact onePortAccess_emitByte (samePorts_refl _)
  · rw [outBit_more hf]; exact .inl (samePorts_refl _)

/-- A bit that is left in the current byte. -/
theorem nextBit_left {s : State} (h : s.eng.pleft ≠ 0) :
    s.nextBit = some (s.eng.pbyte.getLsbD (s.eng.pleft - 1), s.setEng { s.eng with pleft := s.eng.pleft - 1 }) :=
  if_neg h

theorem nextBit_end {s : State} (h : s.eng.pleft = 0) (hi : s.input = []) : s.nextBit = none := by
  simp only [State.nextBit, State.inRead, h, hi, if_true]

/-- The first bit of a new payload byte. -/
theorem nextBit_byte {s : State} {b : Byte} {rest : List Byte} (h : s.eng.pleft = 0) (hi : s.input = b :: rest) :
    s.nextBit = some (b.getLsbD 7,
      { s with input := rest, inCount := s.inCount + 1, eng := { s.eng with pbyte := b, pleft := 7 } }) := by
  simp only [State.nextBit, State.inRead, h, hi, if_true]
  rfl

/-- All nextBit can do when it answers a bit: use one that is left, or take a byte. -/
theorem nextBit_cases {s u : State} {bit : Bool} (h : s.nextBit = some (bit, u)) :
    (s.eng.pleft ≠ 0 ∧ u = s.setEng { s.eng with pleft := s.eng.pleft - 1 }) ∨
    (s.eng.pleft = 0 ∧ ∃ b rest, s.input = b :: rest ∧
      u = { s with input := rest, inCount := s.inCount + 1, eng := { s.eng with pbyte := b, pleft := 7 } }) := by
  by_cases hp : s.eng.pleft = 0
  · refine .inr ⟨hp, ?_⟩
    cases hi : s.input with
    | nil => rw [nextBit_end hp hi] at h; cases h
    | cons b rest => rw [nextBit_byte hp hi] at h; cases h; exact ⟨b, rest, rfl, rfl⟩
  · rw [nextBit_left hp] at h; cases h; exact .inl ⟨hp, rfl⟩

theorem onePortAccess_nextBit {s u : State} {bit : Bool} (h : s.nextBit = some (bit, u)) : OnePortAccess s u := by
  obtain ⟨-, rfl⟩ | ⟨-, b, rest, hi, rfl⟩ := nextBit_cases h
  · exact .inl (samePorts_refl _)
  · exact onePortAccess_take hi (samePorts_refl _)

theorem samePorts_matchKey (bit : Bool) (s : State) : SamePorts s (s.matchKey bit) := by
  cases hl : lookup? s.eng.dict (s.eng.klen + 1) (2 * s.eng.kval + bit.toNat) with
  | some e => rw [matchKey_hit hl]; exact samePorts_refl _
  | none => rw [matchKey_miss hl]; split <;> exact samePorts_refl _

theorem samePorts_startDict (s : State) : SamePorts s s.startDict := by
  by_cases h : s.dictCount.toNat = 0
  · rw [startDict_none h]; exact samePorts_refl _
  · rw [startDict_some h]; exact samePorts_refl _

/-- All the header bytes received so far can settle (43_codec.md R115 to R118), `u` being the state that holds them. -/
theorem headerStep_cases (r : List Byte) (s : State) : ∃ u, u = s.setEng { s.eng with recv := r } ∧
    ((r.length = 1 ∧ (fromBe (slice r 0 1) < Config.candFirst ∨ Config.candLast < fromBe (slice r 0 1)) ∧
      s.headerStep r =
        (u.setWidth (BitVec.ofNat 8 (fromBe (slice r 0 1)))).raiseFault .malformedContainer .badWidth) ∨
    (r.length = 1 ∧ Config.candFirst ≤ fromBe (slice r 0 1) ∧ fromBe (slice r 0 1) ≤ Config.candLast ∧
      s.headerStep r = u.setWidth (BitVec.ofNat 8 (fromBe (slice r 0 1)))) ∨
    (r.length = 9 ∧ s.headerStep r = u.setOrigLen (fromBe (slice r 1 9))) ∨
    (r.length = Config.hdrBytes ∧ Config.dictCap < fromBe (slice r 9 17) ∧
      s.headerStep r = (u.setDictCount (fromBe (slice r 9 17))).raiseFault .malformedContainer .dictTooLarge) ∨
    (r.length = Config.hdrBytes ∧ fromBe (slice r 9 17) ≤ Config.dictCap ∧
      s.headerStep r = (u.setDictCount (fromBe (slice r 9 17))).startDict) ∨
    (r.length ≠ 1 ∧ r.length ≠ 9 ∧ r.length ≠ Config.hdrBytes ∧ s.headerStep r = u)) := by
  refine ⟨_, rfl, ?_⟩
  unfold State.headerStep
  dsimp only
  by_cases h1 : r.length = 1
  · rw [if_pos h1]
    split
    · rename_i hw; exact .inl ⟨h1, hw, rfl⟩
    · rename_i hw; exact .inr (.inl ⟨h1, by omega, by omega, rfl⟩)
  rw [if_neg h1]
  by_cases h9 : r.length = 9
  · rw [if_pos h9]; exact .inr (.inr (.inl ⟨h9, rfl⟩))
  rw [if_neg h9]
  by_cases h17 : r.length = Config.hdrBytes
  · rw [if_pos h17]
    split
    · rename_i hc; exact .inr (.inr (.inr (.inl ⟨h17, hc, rfl⟩)))
    · rename_i hc; exact .inr (.inr (.inr (.inr (.inl ⟨h17, Nat.le_of_not_lt hc, rfl⟩))))
  · rw [if_neg h17]; exact .inr (.inr (.inr (.inr (.inr ⟨h1, h9, h17, rfl⟩))))

theorem samePorts_headerStep (r : List Byte) (s : State) : SamePorts s (s.headerStep r) := by
  obtain ⟨u, rfl, ⟨-, -, h⟩ | ⟨-, -, -, h⟩ | ⟨-, h⟩ | ⟨-, -, h⟩ | ⟨-, -, h⟩ | ⟨-, -, -, h⟩⟩ := headerStep_cases r s
  case inr.inr.inr.inr.inl => rw [h]; exact samePorts_startDict _
  all_goals rw [h]; exact samePorts_refl _

theorem samePorts_acceptEntry (i : Nat) (e : Entry) (s : State) : SamePorts s (s.acceptEntry i e) := by
  by_cases hb : badEntry e = true
  · rw [acceptEntry_bad hb]; exact samePorts_refl _
  by_cases hd : (lookup? s.eng.dict e.len e.code).isSome = true
  · rw [acceptEntry_dup hb hd]; exact samePorts_refl _
  by_cases hm : i + 1 < s.dictCount.toNat
  · rw [acceptEntry_more hb hd hm]; exact samePorts_refl _
  · rw [acceptEntry_last hb hd hm]; exact samePorts_refl _

theorem dictStep_full {i : Nat} {r : List Byte} {s : State} (h : r.length = Config.entryBytes) :
    s.dictStep i r = (s.setEng { s.eng with recv := r }).acceptEntry i (entryOfBytes r) :=
  if_pos h

theorem dictStep_part {i : Nat} {r : List Byte} {s : State} (h : r.length ≠ Config.entryBytes) :
    s.dictStep i r = s.setEng { s.eng with recv := r } :=
  if_neg h

theorem samePorts_dictStep (i : Nat) (r : List Byte) (s : State) : SamePorts s (s.dictStep i r) := by
  by_cases h : r.length = Config.entryBytes
  · rw [dictStep_full h]; exact samePorts_acceptEntry _ _ _
  · rw [dictStep_part h]; exact samePorts_refl _

theorem onePortAccess_readByte {k : List Byte → State → State} (hk : ∀ r u, SamePorts u (k r u)) (d : Detail)
    (s : State) : OnePortAccess s (s.readByte d k) := by
  cases hi : s.input with
  | nil => rw [readByte_end hi]; exact .inl (samePorts_refl _)
  | cons b rest => rw [readByte_more hi]; exact onePortAccess_take hi (hk _ _)

theorem onePortAccess_readStep (s : State) : OnePortAccess s s.readStep := by
  cases hi : s.input with
  | nil => rw [readStep_end hi]; exact .inl (samePorts_refl _)
  | cons b rest =>
    by_cases hc : s.eng.ibuf.length = s.inputCap.val
    · rw [readStep_full hi hc]; exact onePortAccess_take hi (samePorts_refl _)
    · rw [readStep_more hi hc]; exact onePortAccess_take hi (samePorts_refl _)

theorem selectStep_long {s : State} (h : tooLong s.eng.bestTable = true) :
    s.selectStep = ((s.setWidth (BitVec.ofNat 8 s.eng.bestW)).setDictCount s.eng.bestTable.length).raiseFault
      .codeTooLong .noDetail :=
  if_pos h

theorem selectStep_emit {s : State} (h : ¬ tooLong s.eng.bestTable = true) :
    s.selectStep = ((s.setWidth (BitVec.ofNat 8 s.eng.bestW)).setDictCount
      s.eng.bestTable.length).startSerialize.setPhase .cEmit :=
  if_neg h

theorem onePortAccess_selectStep (s : State) : OnePortAccess s s.selectStep := by
  by_cases h : tooLong s.eng.bestTable = true
  · rw [selectStep_long h]; exact .inl (samePorts_refl _)
  · rw [selectStep_emit h]; exact .inl (samePorts_refl _)

theorem onePortAccess_emitStep (s : State) : OnePortAccess s s.emitStep := by
  cases hp : s.eng.pendBytes with
  | cons b bytes => rw [emitStep_byte hp]; exact onePortAccess_emitByte (samePorts_refl _)
  | nil =>
    cases hb : s.eng.pendBits with
    | cons bit bits => rw [emitStep_bit hp hb]; exact onePortAccess_pushBit bit (s.setEng _)
    | nil =>
      cases hs : s.eng.pendSyms with
      | cons x syms => rw [emitStep_symbol hp hb hs]; exact .inl (samePorts_refl _)
      | nil => rw [emitStep_end hp hb hs]; exact onePortAccess_flush s

theorem payloadStep_zero {s : State} (h : s.origLen.toNat = 0) : s.payloadStep = s.finish := if_pos h

theorem payloadStep_end {s : State} (hz : s.origLen.toNat ≠ 0) (h : s.eng.pendBits = []) (hn : s.nextBit = none) :
    s.payloadStep = s.raiseFault .malformedContainer .truncPayload := by
  unfold State.payloadStep
  rw [if_neg hz, h]
  dsimp only
  rw [hn]

theorem onePortAccess_payloadStep (s : State) : OnePortAccess s s.payloadStep := by
  by_cases hz : s.origLen.toNat = 0
  · rw [payloadStep_zero hz]; exact .inl (samePorts_refl _)
  cases hb : s.eng.pendBits with
  | cons bit bits =>
    rw [payloadStep_emit hz hb]
    split <;> exact onePortAccess_outBit bit (s.setEng _)
  | nil =>
    cases hn : s.nextBit with
    | none => rw [payloadStep_end hz hb hn]; exact .inl (samePorts_refl _)
    | some p =>
      rw [payloadStep_next hz hb hn]
      exact (onePortAccess_nextBit hn).trans_samePorts (samePorts_matchKey _ _)

/-- Every phase's step makes at most one access. -/
theorem onePortAccess_engineStep (s : State) : OnePortAccess s s.engineStep := by
  cases hp : s.phase with
  | idle => rw [engineStep_idle hp]; exact .inl (samePorts_refl _)
  | cRead => rw [engineStep_cRead hp]; exact onePortAccess_readStep s
  | cAnalyse w => rw [engineStep_cAnalyse hp]; exact .inl (samePorts_refl _)
  | cSelect => rw [engineStep_cSelect hp]; exact onePortAccess_selectStep s
  | cEmit => rw [engineStep_cEmit hp]; exact onePortAccess_emitStep s
  | dHeader => rw [engineStep_dHeader hp]; exact onePortAccess_readByte samePorts_headerStep _ s
  | dDict i => rw [engineStep_dDict hp]; exact onePortAccess_readByte (samePorts_dictStep i) _ s
  | dPayload => rw [engineStep_dPayload hp]; exact onePortAccess_payloadStep s

/-- Settles O49, by the phase: each phase's step is one access at most. -/
theorem engineStepMakesOnePortAccess : Obligations.EngineStepMakesOnePortAccess :=
  onePortAccess_engineStep

end Sys2Proof.Machine
end

section
/-! PROOFS. The invariant is kept by every step: what each phase's step comes to, then the host's events. -/

namespace Sys2Proof.Machine

theorem holds_cRead {s : State} : Phase.holds .cRead s ↔ ReadSoFar s := Iff.rfl

theorem holds_cAnalyse {w : Nat} {s : State} : Phase.holds (.cAnalyse w) s ↔
    ReadSoFar s ∧ s.origLen = BitVec.ofNat 64 s.eng.n ∧ Config.candFirst ≤ w ∧ w ≤ Config.candLast ∧
      (Config.candFirst < w → Config.candFirst ≤ s.eng.bestW ∧ s.eng.bestW < w) := Iff.rfl

theorem holds_cSelect {s : State} : Phase.holds .cSelect s ↔
    ReadSoFar s ∧ s.origLen = BitVec.ofNat 64 s.eng.n ∧ Config.candFirst ≤ s.eng.bestW ∧
      s.eng.bestW ≤ Config.candLast := Iff.rfl

theorem holds_cEmit {s : State} : Phase.holds .cEmit s ↔
    s.eng.n ≤ s.inputCap.val ∧ s.inCount = BitVec.ofNat 64 s.eng.n ∧ s.origLen = BitVec.ofNat 64 s.eng.n ∧
      s.eng.fill < 8 ∧ s.eng.acc.toNat < 2 ^ s.eng.fill := Iff.rfl

theorem holds_dHeader {s : State} : Phase.holds .dHeader s ↔ s.output = [] ∧ s.eng.recv.length < Config.hdrBytes :=
  Iff.rfl

theorem holds_dDict {i : Nat} {s : State} : Phase.holds (.dDict i) s ↔
    s.output = [] ∧ DictSoFar s ∧ i < s.dictCount.toNat ∧ s.eng.dict.length = i ∧
      s.eng.recv.length < Config.entryBytes := Iff.rfl

theorem holds_dPayload {s : State} : Phase.holds .dPayload s ↔
    DictSoFar s ∧ s.eng.dict.length = s.dictCount.toNat ∧ s.eng.pleft < 8 ∧ s.eng.klen ≤ s.eng.lmax ∧
      s.eng.kval < 2 ^ s.eng.klen ∧ s.eng.ofill < 8 ∧ s.eng.oacc.toNat < 2 ^ s.eng.ofill ∧
      s.output.length = s.eng.emitted ∧ (s.origLen.toNat ≠ 0 → s.eng.emitted < s.origLen.toNat) := Iff.rfl

/-- What COMPRESS has read depends on these fields alone. -/
theorem ReadSoFar.of_eq {s t : State} (h : ReadSoFar s) (hb : t.eng.ibuf = s.eng.ibuf)
    (hc : t.inputCap = s.inputCap) (hi : t.inCount = s.inCount) (ho : t.output = s.output) : ReadSoFar t := by
  obtain ⟨hw, hn, hs⟩ := h
  constructor <;> simp only [Engine.n, hb, hc, hi, ho] <;> assumption

/-- What DECOMPRESS has read of the dictionary depends on these fields alone. -/
theorem DictSoFar.of_eq {s t : State} (h : DictSoFar s) (hn : t.dictCount = s.dictCount)
    (hd : t.eng.dict = s.eng.dict) (hl : t.eng.lmax = s.eng.lmax) : DictSoFar t := by
  obtain ⟨hc, ho, hk, hm⟩ := h
  constructor <;> simp only [hn, hd, hl] <;> assumption

/-- STATUS is the same. -/
def SameStatus (s t : State) : Prop := t.state = s.state ∧ t.cause = s.cause ∧ t.detail = s.detail

theorem sameStatus_refl (s : State) : SameStatus s s := ⟨rfl, rfl, rfl⟩

/-- While a phase runs, STATUS shows BUSY and no fault. -/
theorem MachineInv.running {s : State} (h : MachineInv s) (hp : s.phase ≠ .idle) :
    s.state = .busy ∧ s.cause = .noFault ∧ s.detail = .noDetail := by
  have hb : s.state = .busy := h.busy_iff.2 hp
  have hc : s.cause = .noFault := by
    by_contra hc
    have := h.cause_iff.2 hc
    simp [hb] at this
  refine ⟨hb, hc, ?_⟩
  by_contra hd
  have := h.detail_iff.1 hd
  simp [hc] at this

/-- Outside BUSY the engine waits in Idle. -/
theorem MachineInv.phase_idle {s : State} (h : MachineInv s) (hb : s.state ≠ .busy) : s.phase = .idle := by
  by_contra hp
  exact hb (h.busy_iff.2 hp)

/-- Fault entry meets the invariant from any state (60_exceptions.md R148, R150). -/
theorem machineInv_raiseFault {c : Cause} {d : Detail} (s : State) (hc : c ≠ .noFault)
    (hd : d ≠ .noDetail ↔ c = .malformedContainer) : MachineInv (s.raiseFault c d) where
  busy_iff := by simp
  cause_iff := by simpa using hc
  detail_iff := hd
  counted := by simp
  holds := trivial

/-- A state in Idle that is neither BUSY nor in FAULT meets the invariant when it reports no fault. -/
theorem machineInv_idle {s : State} (hp : s.phase = .idle) (hb : s.state ≠ .busy) (hf : s.state ≠ .fault)
    (hc : s.cause = .noFault) (hd : s.detail = .noDetail) : MachineInv s where
  busy_iff := by simp [hp, hb]
  cause_iff := by simp [hc, hf]
  detail_iff := by simp [hc, hd]
  counted h := absurd h hb
  holds := by rw [hp]; trivial

/-- A state in which a phase runs meets the invariant when STATUS shows BUSY and no fault, OUT_COUNT counts the output
and the engine fits the phase. -/
theorem machineInv_busy {s : State} (hp : s.phase ≠ .idle) (hb : s.state = .busy) (hc : s.cause = .noFault)
    (hd : s.detail = .noDetail) (hn : s.outCount = BitVec.ofNat 64 s.output.length) (hh : s.phase.holds s) :
    MachineInv s where
  busy_iff := by simp [hp, hb]
  cause_iff := by simp [hb, hc]
  detail_iff := by simp [hc, hd]
  counted _ := hn
  holds := hh

/-- An access at most keeps OUT_COUNT the number of bytes written. -/
theorem OnePortAccess.counted {s t : State} (h : OnePortAccess s t)
    (hs : s.outCount = BitVec.ofNat 64 s.output.length) : t.outCount = BitVec.ofNat 64 t.output.length := by
  obtain ⟨-, -, ho, hc⟩ | ⟨_, -, -, ho, hc⟩ | ⟨b, ho, hc, -, -⟩ := h
  · rw [ho, hc, hs]
  · rw [ho, hc, hs]
  · rw [ho, hc, hs, List.length_append, BitVec.ofNat_add]; rfl

/-- What the step of a running phase comes to: the command goes on in a phase whose engine fits it, it ends DONE, or
it faults. -/
inductive PhaseOutcome (s : State) : State → Prop where
  | goesOn {t : State} (p : Phase) : t.phase = p → p ≠ .idle → SameStatus s t → p.holds t → PhaseOutcome s t
  | ends (u : State) : SameStatus s u → PhaseOutcome s u.finish
  | faults (u : State) {c : Cause} {d : Detail} :
      c ≠ .noFault → (d ≠ .noDetail ↔ c = .malformedContainer) → PhaseOutcome s (u.raiseFault c d)

/-- Each outcome keeps the invariant, the ports being accessed once at most. -/
theorem PhaseOutcome.machineInv {s t : State} (ho : PhaseOutcome s t) (h : MachineInv s) (hp : s.phase ≠ .idle)
    (ha : OnePortAccess s t) : MachineInv t := by
  obtain ⟨hb, hc, hd⟩ := h.running hp
  cases ho with
  | goesOn p hq hi hs hh =>
    obtain ⟨es, ec, ed⟩ := hs
    subst hq
    exact machineInv_busy hi (es.trans hb) (ec.trans hc) (ed.trans hd) (ha.counted (h.counted hb)) hh
  | ends u hs =>
    obtain ⟨-, ec, ed⟩ := hs
    exact machineInv_idle rfl (by simp) (by simp) (ec.trans hc) (ed.trans hd)
  | faults u hc hd => exact machineInv_raiseFault u hc hd

/-- C_Read (44_compressor.md R134): the end of the stream, a byte within INPUT_CAP, or one too many. -/
theorem phaseOutcome_readStep {s : State} (hr : ReadSoFar s) (hp : s.phase = .cRead) : PhaseOutcome s s.readStep := by
  cases hi : s.input with
  | nil =>
    rw [readStep_end hi]
    refine .goesOn _ rfl (by simp) ⟨rfl, rfl, rfl⟩ (holds_cAnalyse.2 ⟨hr.of_eq rfl rfl rfl rfl, rfl, ?_⟩)
    exact ⟨le_refl _, by decide, fun h => absurd h (lt_irrefl _)⟩
  | cons b rest =>
    by_cases hc : s.eng.ibuf.length = s.inputCap.val
    · rw [readStep_full hi hc]; exact .faults _ (by simp) (by simp)
    · rw [readStep_more hi hc]
      refine .goesOn .cRead hp (by simp) ⟨rfl, rfl, rfl⟩ (holds_cRead.2 ⟨?_, ?_, hr.silent⟩)
      · have := hr.within
        simp only [Engine.n, List.length_append, List.length_singleton] at this ⊢
        omega
      · simp only [Engine.n, List.length_append, List.length_singleton, BitVec.ofNat_add, hr.counted]; rfl

/-- C_Analyse(w) (44_compressor.md R135): the best width so far is 2..w. -/
theorem phaseOutcome_analyseStep {s : State} {w : Nat} (hh : Phase.holds (.cAnalyse w) s) :
    PhaseOutcome s (s.analyseStep w) := by
  obtain ⟨hr, hl, h2, h8, hbest⟩ := holds_cAnalyse.1 hh
  have hw : Config.candFirst ≤ (s.eng.analyse w).bestW ∧ (s.eng.analyse w).bestW ≤ w := by
    obtain ⟨hb, -, -⟩ | ⟨hne, -, hb, -, -⟩ := analyse_best w s.eng
    · rw [hb]; exact ⟨h2, le_refl _⟩
    · rw [hb]; have := hbest (by omega); omega
  have hr' : ReadSoFar (s.analyseStep w) := hr.of_eq (analyse_ibuf w s.eng) rfl rfl rfl
  have hl' : (s.analyseStep w).origLen = BitVec.ofNat 64 (s.analyseStep w).eng.n :=
    hl.trans (by simp [State.analyseStep, Engine.n])
  by_cases hlast : w < Config.candLast
  · refine .goesOn (.cAnalyse (w + 1)) (if_pos hlast) (by simp) ⟨rfl, rfl, rfl⟩
      (holds_cAnalyse.2 ⟨hr', hl', by omega, by omega, fun _ => ⟨hw.1, Nat.lt_succ_of_le hw.2⟩⟩)
  · exact .goesOn .cSelect (if_neg hlast) (by simp) ⟨rfl, rfl, rfl⟩
      (holds_cSelect.2 ⟨hr', hl', hw.1, le_trans hw.2 h8⟩)

/-- C_Select (44_compressor.md R137): CodeTooLong, or C_Emit with an empty accumulator. -/
theorem phaseOutcome_selectStep {s : State} (hh : Phase.holds .cSelect s) : PhaseOutcome s s.selectStep := by
  obtain ⟨⟨hn, hc, -⟩, hl, -, -⟩ := holds_cSelect.1 hh
  by_cases h : tooLong s.eng.bestTable = true
  · rw [selectStep_long h]; exact .faults _ (by simp) (by simp)
  · rw [selectStep_emit h]
    exact .goesOn .cEmit rfl (by simp) ⟨rfl, rfl, rfl⟩
      (holds_cEmit.2 ⟨hn, hc, hl, (by decide : 0 < 8), (by decide : (0 : Byte).toNat < 2 ^ 0)⟩)

/-- Shifting a bit into an accumulator that holds k bits gives one that holds k + 1. -/
theorem toNat_shiftIn_lt {acc : Byte} {k : Nat} (bit : Bool) (h : acc.toNat < 2 ^ k) :
    (shiftIn acc bit).toNat < 2 ^ (k + 1) := by
  have hb := Bool.toNat_lt bit
  rw [shiftIn_eq, BitVec.toNat_ofNat, Nat.pow_succ]
  exact lt_of_le_of_lt (Nat.mod_le _ _) (by omega)

/-- `pushBit` keeps what C_Emit holds of the accumulator (40_bitcursor.md R81). -/
theorem phaseOutcome_pushBit {s u : State} (bit : Bool) (hs : SameStatus s u) (hp : u.phase = .cEmit)
    (hh : Phase.holds .cEmit u) : PhaseOutcome s (u.pushBit bit) := by
  obtain ⟨hn, hc, hl, hf, ha⟩ := holds_cEmit.1 hh
  by_cases h7 : u.eng.fill = 7
  · rw [pushBit_eight h7]
    exact .goesOn .cEmit hp (by simp) hs
      (holds_cEmit.2 ⟨hn, hc, hl, (by decide : 0 < 8), (by decide : (0 : Byte).toNat < 2 ^ 0)⟩)
  · rw [pushBit_more h7]
    exact .goesOn .cEmit hp (by simp) hs
      (holds_cEmit.2 ⟨hn, hc, hl, by simp only [State.setEng_eng]; omega, toNat_shiftIn_lt bit ha⟩)

/-- C_Emit (43_codec.md R109): a byte, a bit, the next symbol's code, or the end. -/
theorem phaseOutcome_emitStep {s : State} (hh : Phase.holds .cEmit s) (hp : s.phase = .cEmit) :
    PhaseOutcome s s.emitStep := by
  cases hy : s.eng.pendBytes with
  | cons b bytes => rw [emitStep_byte hy]; exact .goesOn .cEmit hp (by simp) ⟨rfl, rfl, rfl⟩ hh
  | nil =>
    cases hb : s.eng.pendBits with
    | cons bit bits => rw [emitStep_bit hy hb]; exact phaseOutcome_pushBit bit ⟨rfl, rfl, rfl⟩ hp hh
    | nil =>
      cases hs : s.eng.pendSyms with
      | cons x syms => rw [emitStep_symbol hy hb hs]; exact .goesOn .cEmit hp (by simp) ⟨rfl, rfl, rfl⟩ hh
      | nil =>
        rw [emitStep_end hy hb hs]
        refine .ends _ ?_
        unfold State.flush
        split <;> exact ⟨rfl, rfl, rfl⟩

/-- One InRead of DECOMPRESS (43_codec.md R115, R119): a truncated stream, or what the bytes received then settle. -/
theorem phaseOutcome_readByte {s : State} {d : Detail} {k : List Byte → State → State} (hd : d ≠ .noDetail)
    (hk : ∀ b rest, s.input = b :: rest →
      PhaseOutcome s (k (s.eng.recv ++ [b]) { s with input := rest, inCount := s.inCount + 1 })) :
    PhaseOutcome s (s.readByte d k) := by
  cases hi : s.input with
  | nil => rw [readByte_end hi]; exact .faults _ (by simp) (by simpa using hd)
  | cons b rest => rw [readByte_more hi]; exact hk b rest hi

/-- The payload starts with every reader and accumulator empty (43_codec.md R122). -/
theorem phaseOutcome_startPayload {s u : State} (hs : SameStatus s u) (hd : DictSoFar u)
    (hn : u.eng.dict.length = u.dictCount.toNat) (ho : u.output = []) : PhaseOutcome s u.startPayload := by
  refine .goesOn .dPayload rfl (by simp) hs (holds_dPayload.2
    ⟨hd.of_eq rfl rfl rfl, hn, (by decide : 0 < 8), Nat.zero_le _, (by decide : 0 < 2 ^ 0), (by decide : 0 < 8),
      (by decide : (0 : Byte).toNat < 2 ^ 0), List.length_eq_zero_iff.2 ho, Nat.pos_of_ne_zero⟩)

/-- The dictionary starts empty, of a count within DICT_CAP (43_codec.md R118). -/
theorem phaseOutcome_startDict {s u : State} (hs : SameStatus s u) (ho : u.output = [])
    (hc : u.dictCount.toNat ≤ Config.dictCap) : PhaseOutcome s u.startDict := by
  have hd : DictSoFar (u.setEng { u.eng with dict := [], lmax := 0, recv := [] }) :=
    ⟨hc, by simp, by simp, by simp⟩
  by_cases hz : u.dictCount.toNat = 0
  · rw [startDict_none hz]; exact phaseOutcome_startPayload hs hd hz.symm ho
  · rw [startDict_some hz]
    exact .goesOn (.dDict 0) rfl (by simp) hs
      (holds_dDict.2 ⟨ho, hd.of_eq rfl rfl rfl, Nat.pos_of_ne_zero hz, rfl, (by decide : 0 < Config.entryBytes)⟩)

/-- The header bytes received so far (43_codec.md R115 to R118). -/
theorem phaseOutcome_headerStep {s u : State} {r : List Byte} (hs : SameStatus s u) (hp : u.phase = .dHeader)
    (ho : u.output = []) (hr : r.length ≤ Config.hdrBytes) : PhaseOutcome s (u.headerStep r) := by
  obtain ⟨v, hv, h⟩ := headerStep_cases r u
  have hs' : SameStatus s v := by rw [hv]; exact hs
  have hp' : v.phase = .dHeader := by rw [hv]; exact hp
  have ho' : v.output = [] := by rw [hv]; exact ho
  have hrecv : v.eng.recv = r := by rw [hv]; rfl
  obtain ⟨-, -, h⟩ | ⟨h1, -, -, h⟩ | ⟨h9, h⟩ | ⟨-, -, h⟩ | ⟨-, hcap, h⟩ | ⟨-, -, h17, h⟩ := h <;> rw [h]
  · exact .faults _ (by simp) (by simp)
  · exact .goesOn .dHeader hp' (by simp) hs' (holds_dHeader.2 ⟨ho', by simp [hrecv, h1, Config.hdrBytes]⟩)
  · exact .goesOn .dHeader hp' (by simp) hs' (holds_dHeader.2 ⟨ho', by simp [hrecv, h9, Config.hdrBytes]⟩)
  · exact .faults _ (by simp) (by simp)
  · refine phaseOutcome_startDict hs' ho' (le_trans ?_ hcap)
    rw [State.setDictCount_dictCount, BitVec.toNat_ofNat]
    exact Nat.mod_le _ _
  · exact .goesOn .dHeader hp' (by simp) hs' (holds_dHeader.2 ⟨ho', by rw [hrecv]; omega⟩)

theorem foldr_max_init (l : List Nat) (m : Nat) : l.foldr max m = max (l.foldr max 0) m := by
  induction l with
  | nil => simp
  | cons a l ih => simp only [List.foldr_cons, ih, max_assoc]

/-- The accepted entry joins DICT, whose keys stay distinct and whose largest length is Lmax (43_codec.md R120,
R121). -/
theorem dictSoFar_append {s : State} {e : Entry} (hd : DictSoFar s) (hok : e.ok)
    (hnew : ¬ (lookup? s.eng.dict e.len e.code).isSome = true) :
    DictSoFar (s.setEng { s.eng with dict := s.eng.dict ++ [e], lmax := max s.eng.lmax e.len, recv := [] }) where
  capped := hd.capped
  legal := by
    intro d hmem
    rcases List.mem_append.1 hmem with hmem | hmem
    · exact hd.legal d hmem
    · exact List.mem_singleton.1 hmem ▸ hok
  keys := by
    rw [isSome_lookup] at hnew
    simp only [State.setEng_eng, List.map_append, List.map_cons, List.map_nil]
    rw [List.nodup_append]
    refine ⟨hd.keys, List.nodup_singleton _, ?_⟩
    rintro k hk k' hk' rfl
    obtain ⟨d, hmem, hde⟩ := List.mem_map.1 hk
    rw [List.mem_singleton.1 hk', Prod.mk.injEq] at hde
    exact hnew ⟨d, hmem, hde⟩
  lmax := by
    simp only [State.setEng_eng, List.map_append, List.map_cons, List.map_nil, List.foldr_append, List.foldr_cons,
      List.foldr_nil, max_eq_left (Nat.zero_le _)]
    rw [foldr_max_init, hd.lmax]

/-- Entry i with all its bytes (43_codec.md R120, R121): BadEntry, DupKey, the next entry, or the payload. -/
theorem phaseOutcome_acceptEntry {s u : State} {i : Nat} (e : Entry) (hs : SameStatus s u) (ho : u.output = [])
    (hd : DictSoFar u) (hi : i < u.dictCount.toNat) (hl : u.eng.dict.length = i) :
    PhaseOutcome s (u.acceptEntry i e) := by
  by_cases hb : badEntry e = true
  · rw [acceptEntry_bad hb]; exact .faults _ (by simp) (by simp)
  by_cases hk : (lookup? u.eng.dict e.len e.code).isSome = true
  · rw [acceptEntry_dup hb hk]; exact .faults _ (by simp) (by simp)
  have hd' := dictSoFar_append hd (ok_of_not_badEntry hb) hk
  have hl' : (u.eng.dict ++ [e]).length = i + 1 := by simp [hl]
  by_cases hm : i + 1 < u.dictCount.toNat
  · rw [acceptEntry_more hb hk hm]
    exact .goesOn (.dDict (i + 1)) rfl (by simp) hs
      (holds_dDict.2 ⟨ho, hd'.of_eq rfl rfl rfl, hm, hl', (by decide : 0 < Config.entryBytes)⟩)
  · rw [acceptEntry_last hb hk hm]
    exact phaseOutcome_startPayload hs hd' (hl'.trans (by simp only [State.setEng_dictCount]; omega)) ho

/-- The bytes of entry i received so far (43_codec.md R119). -/
theorem phaseOutcome_dictStep {s u : State} {i : Nat} {r : List Byte} (hs : SameStatus s u)
    (hp : u.phase = .dDict i) (ho : u.output = []) (hd : DictSoFar u) (hi : i < u.dictCount.toNat)
    (hl : u.eng.dict.length = i) (hr : r.length ≤ Config.entryBytes) : PhaseOutcome s (u.dictStep i r) := by
  by_cases hf : r.length = Config.entryBytes
  · rw [dictStep_full hf]; exact phaseOutcome_acceptEntry _ hs ho (hd.of_eq rfl rfl rfl) hi hl
  · rw [dictStep_part hf]
    exact .goesOn (.dDict i) hp (by simp) hs
      (holds_dDict.2 ⟨ho, hd.of_eq rfl rfl rfl, hi, hl, by simp only [State.setEng_eng]; omega⟩)

/-- A bit of a matched symbol (43_codec.md R127, R128): the command ends with the L-th byte. -/
theorem phaseOutcome_outBit {s u : State} (bit : Bool) (hs : SameStatus s u) (hp : u.phase = .dPayload)
    (hh : Phase.holds .dPayload u) (hz : u.origLen.toNat ≠ 0) :
    PhaseOutcome s (if (u.outBit bit).1 = true then (u.outBit bit).2.finish else (u.outBit bit).2) := by
  obtain ⟨hd, hn, hpl, hk, hv, hf, ha, ho, hlt⟩ := holds_dPayload.1 hh
  have hgo := hlt hz
  by_cases h7 : u.eng.ofill = 7
  · rw [outBit_eight h7]
    by_cases hlast : u.eng.emitted + 1 = u.origLen.toNat
    · rw [if_pos (by simpa using hlast)]; exact .ends _ hs
    · rw [if_neg (by simpa using hlast)]
      refine .goesOn .dPayload hp (by simp) hs (holds_dPayload.2 ⟨hd.of_eq rfl rfl rfl, hn, hpl, hk, hv,
        (by decide : 0 < 8), (by decide : (0 : Byte).toNat < 2 ^ 0), by simp [ho], fun _ => ?_⟩)
      simp only [State.setEng_eng, State.setEng_origLen, State.emitByte_origLen]
      omega
  · rw [outBit_more h7, if_neg (by simp)]
    exact .goesOn .dPayload hp (by simp) hs (holds_dPayload.2 ⟨hd.of_eq rfl rfl rfl, hn, hpl, hk, hv,
      by simp only [State.setEng_eng]; omega, toNat_shiftIn_lt bit ha, ho, hlt⟩)

/-- nextBit keeps what the payload phase holds. -/
theorem holds_dPayload_nextBit {s u : State} {bit : Bool} (hh : Phase.holds .dPayload s)
    (h : s.nextBit = some (bit, u)) : Phase.holds .dPayload u := by
  obtain ⟨hd, hn, hpl, hrest⟩ := holds_dPayload.1 hh
  obtain ⟨-, rfl⟩ | ⟨-, b, rest, -, rfl⟩ := nextBit_cases h
  · exact holds_dPayload.2 ⟨hd.of_eq rfl rfl rfl, hn, by simp only [State.setEng_eng]; omega, hrest⟩
  · exact holds_dPayload.2 ⟨hd.of_eq rfl rfl rfl, hn, (by decide : 7 < 8), hrest⟩

/-- The key after one more bit (43_codec.md R124 to R126): a hit, UnknownCode, or a longer key. -/
theorem phaseOutcome_matchKey {s u : State} (bit : Bool) (hs : SameStatus s u) (hp : u.phase = .dPayload)
    (hh : Phase.holds .dPayload u) : PhaseOutcome s (u.matchKey bit) := by
  obtain ⟨hd, hn, hpl, hk, hv, hrest⟩ := holds_dPayload.1 hh
  cases hl : lookup? u.eng.dict (u.eng.klen + 1) (2 * u.eng.kval + bit.toNat) with
  | some e =>
    rw [matchKey_hit hl]
    exact .goesOn .dPayload hp (by simp) hs
      (holds_dPayload.2 ⟨hd.of_eq rfl rfl rfl, hn, hpl, Nat.zero_le _, (by decide : 0 < 2 ^ 0), hrest⟩)
  | none =>
    rw [matchKey_miss hl]
    split
    · exact .faults _ (by simp) (by simp)
    · rename_i hm
      refine .goesOn .dPayload hp (by simp) hs
        (holds_dPayload.2 ⟨hd.of_eq rfl rfl rfl, hn, hpl, by simp only [State.setEng_eng]; omega, ?_, hrest⟩)
      have hb := Bool.toNat_lt bit
      simp only [State.setEng_eng, Nat.pow_succ]
      omega

/-- D_Payload (43_codec.md R122 to R128). -/
theorem phaseOutcome_payloadStep {s : State} (hh : Phase.holds .dPayload s) (hp : s.phase = .dPayload) :
    PhaseOutcome s s.payloadStep := by
  by_cases hz : s.origLen.toNat = 0
  · rw [payloadStep_zero hz]; exact .ends s (sameStatus_refl s)
  cases hb : s.eng.pendBits with
  | cons bit bits =>
    rw [payloadStep_emit hz hb]
    obtain ⟨hd, hrest⟩ := holds_dPayload.1 hh
    exact phaseOutcome_outBit bit ⟨rfl, rfl, rfl⟩ hp (holds_dPayload.2 ⟨hd.of_eq rfl rfl rfl, hrest⟩) hz
  | nil =>
    cases hn : s.nextBit with
    | none => rw [payloadStep_end hz hb hn]; exact .faults _ (by simp) (by simp)
    | some p =>
      obtain ⟨bit, u⟩ := p
      rw [payloadStep_next hz hb hn]
      have hf := nextBit_frame hn
      exact phaseOutcome_matchKey bit (by rw [hf]; exact ⟨rfl, rfl, rfl⟩) (by rw [hf]; exact hp)
        (holds_dPayload_nextBit hh hn)

/-- The step of a running phase goes on, ends, or faults. -/
theorem phaseOutcome_engineStep {s : State} (h : s.phase.holds s) (hp : s.phase ≠ .idle) :
    PhaseOutcome s s.engineStep := by
  cases hq : s.phase with
  | idle => exact absurd hq hp
  | cRead => rw [engineStep_cRead hq]; exact phaseOutcome_readStep (holds_cRead.1 (hq ▸ h)) hq
  | cAnalyse w => rw [engineStep_cAnalyse hq]; exact phaseOutcome_analyseStep (hq ▸ h)
  | cSelect => rw [engineStep_cSelect hq]; exact phaseOutcome_selectStep (hq ▸ h)
  | cEmit => rw [engineStep_cEmit hq]; exact phaseOutcome_emitStep (hq ▸ h) hq
  | dHeader =>
    obtain ⟨ho, hr⟩ := holds_dHeader.1 (hq ▸ h)
    rw [engineStep_dHeader hq]
    exact phaseOutcome_readByte (by simp) fun b rest _ =>
      phaseOutcome_headerStep ⟨rfl, rfl, rfl⟩ hq ho (by simp only [List.length_append, List.length_singleton]; omega)
  | dDict i =>
    obtain ⟨ho, hd, hi, hl, hr⟩ := holds_dDict.1 (hq ▸ h)
    rw [engineStep_dDict hq]
    exact phaseOutcome_readByte (by simp) fun b rest _ =>
      phaseOutcome_dictStep ⟨rfl, rfl, rfl⟩ hq ho (hd.of_eq rfl rfl rfl) hi hl
        (by simp only [List.length_append, List.length_singleton]; omega)
  | dPayload => rw [engineStep_dPayload hq]; exact phaseOutcome_payloadStep (hq ▸ h) hq

theorem machineInv_engineStep {s : State} (h : MachineInv s) : MachineInv s.engineStep := by
  by_cases hp : s.phase = .idle
  · rw [engineStep_idle hp]; exact h
  · exact (phaseOutcome_engineStep h.holds hp).machineInv h hp (onePortAccess_engineStep s)

/-- The invariant says nothing of what is the host's: the attached stream, the agenda, the word read and the free
values drawn. -/
theorem machineInv_of_host {s : State} (h : MachineInv s) (a : Option (List Byte)) (g : List Event)
    (r : Option Word) (n : Nat) :
    MachineInv { s with attached := a, agenda := g, rdata := r, freeCtr := n } := by
  obtain ⟨hb, hc, hd, hn, hh⟩ := h
  refine ⟨hb, hc, hd, hn, ?_⟩
  cases hp : s.phase <;> rw [hp] at hh
  case idle => trivial
  case cRead => exact ReadSoFar.of_eq hh rfl rfl rfl rfl
  case cAnalyse => obtain ⟨hr, hrest⟩ := hh; exact ⟨hr.of_eq rfl rfl rfl rfl, hrest⟩
  case cSelect => obtain ⟨hr, hrest⟩ := hh; exact ⟨hr.of_eq rfl rfl rfl rfl, hrest⟩
  case cEmit => exact hh
  case dHeader => exact hh
  case dDict => obtain ⟨ho, hr, hrest⟩ := hh; exact ⟨ho, hr.of_eq rfl rfl rfl, hrest⟩
  case dPayload => obtain ⟨hr, hrest⟩ := hh; exact ⟨hr.of_eq rfl rfl rfl, hrest⟩

/-- Every command keeps the invariant (44_compressor.md R131). -/
theorem machineInv_exec {i : Instr} {s t : State} (h : MachineInv s) (he : exec i s = .next t) : MachineInv t := by
  obtain rfl | ⟨-, -, rfl⟩ | ⟨-, -, rfl⟩ | ⟨-, hc, rfl⟩ | ⟨w, -, -, rfl⟩ := exec_cases he
  · exact h
  · exact machineInv_busy (by simp) rfl rfl rfl rfl (holds_cRead.2 ⟨Nat.zero_le _, rfl, rfl⟩)
  · exact machineInv_busy (by simp) rfl rfl rfl rfl (holds_dHeader.2 ⟨rfl, (by decide : 0 < Config.hdrBytes)⟩)
  · have hb : s.state ≠ .busy := by intro hb; simp [hb, RunState.acceptsClear] at hc
    exact machineInv_idle (h.phase_idle hb) (by simp) (by simp) rfl rfl
  · exact machineInv_raiseFault _ (by simp) (by simp)

theorem machineInv_readReg {s : State} (h : MachineInv s) (r : Reg) : MachineInv (s.readReg r) := by
  obtain ⟨-, -, he⟩ | ⟨-, he⟩ := readReg_cases r s <;> rw [he]
  · exact machineInv_of_host h s.attached s.agenda _ _
  · exact machineInv_of_host h s.attached s.agenda _ s.freeCtr

theorem machineInv_hostWait {s : State} (h : MachineInv s) : MachineInv (hostWait s) := by
  have hr := machineInv_readReg h .status
  unfold hostWait
  split
  · exact machineInv_of_host hr _ _ _ _
  · exact hr

/-- Settles O54, by the events of the agenda: the host's keep the invariant, and so does each phase of the engine. -/
theorem invariantIsKept : Obligations.InvariantIsKept := by
  intro s t h hstep
  obtain ⟨-, rfl⟩ | ⟨e, rest, -, u, hu, he⟩ := step_cases hstep
  · exact machineInv_engineStep h
  have hi : MachineInv u := by rw [hu]; exact machineInv_of_host h _ rest _ _
  obtain ⟨-, rfl⟩ | ⟨bs, -, -, rfl⟩ | ⟨v, -, hx⟩ | ⟨_, _, -, rfl⟩ | ⟨_, r, -, -, rfl⟩ | ⟨-, rfl⟩ | ⟨-, rfl⟩ := he
  · exact machineInv_idle rfl (by simp) (by simp) rfl rfl
  · exact machineInv_of_host hi _ _ _ _
  · exact machineInv_exec hi hx
  · exact hi
  · exact machineInv_readReg hi r
  · exact machineInv_hostWait hi
  · exact machineInv_engineStep hi

/-- Settles O53. -/
theorem invariantAtReset : Obligations.InvariantAtReset :=
  machineInv_idle rfl (by decide) (by decide) rfl rfl

end Sys2Proof.Machine
end

section
/-! PROOFS. Nothing a host observes depends on the internal state between commands (10_state.md R39): each phase reads
only a part of the engine, and between commands that part is empty. -/

namespace Sys2Proof.Machine

/-- The part of the engine that phase `p` or a later one can still read before it is written; the rest at its initial
value. -/
def Engine.live : Phase → Engine → Engine
  | .idle, _ => {}
  | .cRead, e => { ibuf := e.ibuf }
  | .cAnalyse w, e =>
    if w = Config.candFirst then { ibuf := e.ibuf }
    else { ibuf := e.ibuf, bestW := e.bestW, bestEst := e.bestEst, bestTable := e.bestTable }
  | .cSelect, e => { ibuf := e.ibuf, bestW := e.bestW, bestTable := e.bestTable }
  | .cEmit, e =>
    { bestTable := e.bestTable, pendBytes := e.pendBytes, pendSyms := e.pendSyms, pendBits := e.pendBits
      acc := e.acc, fill := e.fill }
  | .dHeader, e => { recv := e.recv }
  | .dDict _, e => { recv := e.recv, dict := e.dict, lmax := e.lmax }
  | .dPayload, e =>
    { pendBits := e.pendBits, dict := e.dict, lmax := e.lmax, pbyte := if e.pleft = 0 then 0 else e.pbyte
      pleft := e.pleft, klen := e.klen, kval := e.kval, oacc := e.oacc, ofill := e.ofill, emitted := e.emitted }

/-- The state with only the live part of its engine. -/
def State.live (s : State) : State := s.setEng (s.eng.live s.phase)

theorem Engine.live_live (p : Phase) (e : Engine) : (e.live p).live p = e.live p := by
  cases p with
  | cAnalyse w => simp only [Engine.live]; split <;> rfl
  | dPayload => simp only [Engine.live]; split <;> rfl
  | _ => rfl

theorem live_eq {s : State} {p : Phase} (h : s.phase = p) : s.live = s.setEng (s.eng.live p) := by
  rw [← h]; rfl

theorem live_congr {s t : State} {p : Phase} (hs : s.phase = p) (ht : t.phase = p)
    (h : s.setEng (s.eng.live p) = t.setEng (t.eng.live p)) : s.live = t.live := by
  rw [live_eq hs, live_eq ht, h]

theorem live_live (s : State) : s.live.live = s.live :=
  congrArg (State.setEng · s) (Engine.live_live s.phase s.eng)

/-- States with the same live part differ in the internal state at most. -/
theorem sameOutside_of_live {s t : State} (h : s.live = t.live) : SameOutside s t := by
  show s.live.setEng t.eng = t.live.setEng t.eng
  rw [h]

/-- Between commands no part of the engine is live. -/
theorem live_of_sameOutside {s t : State} (hp : s.phase = .idle) (h : SameOutside s t) : s.live = t.live := by
  rw [← h]
  exact live_congr (p := .idle) hp hp rfl

/-- What C_Read does depends on IBUF alone. -/
theorem live_readStep {s : State} (hp : s.phase = .cRead) : s.live.readStep.live = s.readStep.live := by
  rw [live_eq hp]
  cases hi : s.input with
  | nil => rw [readStep_end hi, readStep_end (s := s.setEng (s.eng.live .cRead)) hi]; rfl
  | cons b rest =>
    by_cases hc : s.eng.ibuf.length = s.inputCap.val
    · rw [readStep_full hi hc, readStep_full (s := s.setEng (s.eng.live .cRead)) hi hc]; rfl
    · rw [readStep_more hi hc, readStep_more (s := s.setEng (s.eng.live .cRead)) hi hc]
      exact live_congr (p := .cRead) hp hp rfl

/-- What C_Analyse(w) leaves of the best candidate depends on IBUF and, after the first candidate, on the best so
far. -/
theorem live_analyse (w : Nat) (e : Engine) :
    ((e.live (.cAnalyse w)).analyse w).ibuf = (e.analyse w).ibuf ∧
    ((e.live (.cAnalyse w)).analyse w).bestW = (e.analyse w).bestW ∧
    ((e.live (.cAnalyse w)).analyse w).bestEst = (e.analyse w).bestEst ∧
    ((e.live (.cAnalyse w)).analyse w).bestTable = (e.analyse w).bestTable := by
  by_cases hw : w = Config.candFirst
  · simp [Engine.live, Engine.analyse, hw]
  · simp only [Engine.live, Engine.analyse, hw, if_false, false_or]
    split <;> exact ⟨rfl, rfl, rfl, rfl⟩

/-- After a candidate only IBUF and the best so far are live. -/
theorem live_eq_of_best {e f : Engine} (hi : e.ibuf = f.ibuf) (hw : e.bestW = f.bestW) (he : e.bestEst = f.bestEst)
    (ht : e.bestTable = f.bestTable) :
    (∀ w, e.live (.cAnalyse w) = f.live (.cAnalyse w)) ∧ e.live .cSelect = f.live .cSelect := by
  simp only [Engine.live, hi, hw, he, ht, implies_true, and_self]

@[simp] theorem State.setEng_setEng (s : State) (e f : Engine) : (s.setEng e).setEng f = s.setEng f := rfl

theorem live_setPhase {s : State} {p : Phase} {e f : Engine} (h : e.live p = f.live p) :
    ((s.setEng e).setPhase p).live = ((s.setEng f).setPhase p).live :=
  live_congr (p := p) rfl rfl (congrArg (State.setEng · (s.setPhase p)) h)

theorem live_analyseStep {s : State} {w : Nat} (hp : s.phase = .cAnalyse w) :
    (s.live.analyseStep w).live = (s.analyseStep w).live := by
  obtain ⟨hi, hw, he, ht⟩ := live_analyse w s.eng
  obtain ⟨hnext, hsel⟩ := live_eq_of_best hi hw he ht
  simp only [live_eq hp, State.analyseStep, State.setEng_eng, State.setEng_setEng]
  split
  · exact live_setPhase (hnext _)
  · exact live_setPhase hsel

/-- What C_Select does depends on IBUF and the best candidate. -/
theorem live_selectStep {s : State} (hp : s.phase = .cSelect) : s.live.selectStep.live = s.selectStep.live := by
  rw [live_eq hp]
  by_cases h : tooLong s.eng.bestTable = true
  · rw [selectStep_long h, selectStep_long (s := s.setEng (s.eng.live .cSelect)) h]; rfl
  · rw [selectStep_emit h, selectStep_emit (s := s.setEng (s.eng.live .cSelect)) h]; rfl

theorem live_pushBit {s : State} (bit : Bool) (hp : s.phase = .cEmit) :
    ((s.setEng (s.eng.live .cEmit)).pushBit bit).live = (s.pushBit bit).live := by
  by_cases h7 : s.eng.fill = 7
  · rw [pushBit_eight h7, pushBit_eight (s := s.setEng (s.eng.live .cEmit)) h7]
    exact live_congr (p := .cEmit) hp hp rfl
  · rw [pushBit_more h7, pushBit_more (s := s.setEng (s.eng.live .cEmit)) h7]
    exact live_congr (p := .cEmit) hp hp rfl

theorem live_flush_finish (s : State) : (s.setEng (s.eng.live .cEmit)).flush.finish.live = s.flush.finish.live := by
  by_cases hf : s.eng.fill = 0
  · rw [flush_empty hf, flush_empty (s := s.setEng (s.eng.live .cEmit)) hf]; rfl
  · have hf : 0 < s.eng.fill := Nat.pos_of_ne_zero hf
    rw [flush_rest hf, flush_rest (s := s.setEng (s.eng.live .cEmit)) hf]; rfl

/-- What C_Emit does depends on the table, the work that is pending and the accumulator. -/
theorem live_emitStep {s : State} (hp : s.phase = .cEmit) : s.live.emitStep.live = s.emitStep.live := by
  rw [live_eq hp]
  cases hy : s.eng.pendBytes with
  | cons b bytes =>
    rw [emitStep_byte hy, emitStep_byte (s := s.setEng (s.eng.live .cEmit)) hy]
    exact live_congr (p := .cEmit) hp hp rfl
  | nil =>
    cases hb : s.eng.pendBits with
    | cons bit bits =>
      rw [emitStep_bit hy hb, emitStep_bit (s := s.setEng (s.eng.live .cEmit)) hy hb]
      exact live_pushBit (s := s.setEng { s.eng with pendBits := bits }) bit hp
    | nil =>
      cases hs : s.eng.pendSyms with
      | cons x syms =>
        rw [emitStep_symbol hy hb hs, emitStep_symbol (s := s.setEng (s.eng.live .cEmit)) hy hb hs]
        exact live_congr (p := .cEmit) hp hp rfl
      | nil =>
        rw [emitStep_end hy hb hs, emitStep_end (s := s.setEng (s.eng.live .cEmit)) hy hb hs]
        exact live_flush_finish s

/-- The start of the payload reads DICT and Lmax alone: of PBYTE nothing is left to read. -/
theorem live_startPayload {s : State} {e : Engine} (hd : e.dict = s.eng.dict) (hl : e.lmax = s.eng.lmax) :
    (s.setEng e).startPayload.live = s.startPayload.live := by
  refine live_congr (p := .dPayload) rfl rfl ?_
  simp only [State.startPayload, State.setPhase_eng, State.setEng_eng, Engine.live, if_true, hd, hl]
  rfl

/-- The start of the dictionary reads nothing of the engine. -/
theorem live_startDict (s : State) (e : Engine) : (s.setEng e).startDict.live = s.startDict.live := by
  by_cases hz : s.dictCount.toNat = 0
  · rw [startDict_none hz, startDict_none (s := s.setEng e) hz]
    exact live_startPayload (s := s.setEng { s.eng with dict := [], lmax := 0, recv := [] }) rfl rfl
  · rw [startDict_some hz, startDict_some (s := s.setEng e) hz]; rfl

/-- What D_Header does depends on the header bytes alone. -/
theorem live_headerStep {s : State} (r : List Byte) (hp : s.phase = .dHeader) :
    ((s.setEng (s.eng.live .dHeader)).headerStep r).live = (s.headerStep r).live := by
  unfold State.headerStep
  dsimp only
  split
  · split
    · rfl
    · exact live_congr (p := .dHeader) hp hp rfl
  split
  · exact live_congr (p := .dHeader) hp hp rfl
  split
  · split
    · rfl
    · exact live_startDict ((s.setEng { s.eng with recv := r }).setDictCount _) _
  · exact live_congr (p := .dHeader) hp hp rfl

theorem live_acceptEntry {s : State} (i : Nat) (e : Entry) :
    ((s.setEng (s.eng.live (.dDict i))).acceptEntry i e).live = (s.acceptEntry i e).live := by
  by_cases hb : badEntry e = true
  · rw [acceptEntry_bad hb, acceptEntry_bad hb]; rfl
  by_cases hk : (lookup? s.eng.dict e.len e.code).isSome = true
  · rw [acceptEntry_dup hb hk, acceptEntry_dup (s := s.setEng (s.eng.live (.dDict i))) hb hk]; rfl
  by_cases hm : i + 1 < s.dictCount.toNat
  · rw [acceptEntry_more hb hk hm, acceptEntry_more (s := s.setEng (s.eng.live (.dDict i))) hb hk hm]; rfl
  · rw [acceptEntry_last hb hk hm, acceptEntry_last (s := s.setEng (s.eng.live (.dDict i))) hb hk hm]
    exact live_startPayload
      (s := s.setEng { s.eng with dict := s.eng.dict ++ [e], lmax := max s.eng.lmax e.len, recv := [] }) rfl rfl

/-- What D_Dict(i) does depends on the entry's bytes, DICT and Lmax. -/
theorem live_dictStep {s : State} {i : Nat} (r : List Byte) (hp : s.phase = .dDict i) :
    ((s.setEng (s.eng.live (.dDict i))).dictStep i r).live = (s.dictStep i r).live := by
  by_cases hf : r.length = Config.entryBytes
  · rw [dictStep_full hf, dictStep_full hf]
    exact live_acceptEntry (s := s.setEng { s.eng with recv := r }) i _
  · rw [dictStep_part hf, dictStep_part hf]
    exact live_congr (p := .dDict i) hp hp rfl

/-- An InRead of DECOMPRESS depends on the bytes received and on what their examination `k` depends on. -/
theorem live_readByte {s : State} {p : Phase} {k : List Byte → State → State} (d : Detail) (hp : s.phase = p)
    (hr : (s.eng.live p).recv = s.eng.recv)
    (hk : ∀ (r : List Byte) (u : State), u.phase = p → (k r (u.setEng (u.eng.live p))).live = (k r u).live) :
    (s.live.readByte d k).live = (s.readByte d k).live := by
  rw [live_eq hp]
  cases hi : s.input with
  | nil => rw [readByte_end hi, readByte_end (s := s.setEng (s.eng.live p)) hi]; rfl
  | cons b rest =>
    rw [readByte_more hi, readByte_more (s := s.setEng (s.eng.live p)) hi, State.setEng_eng, hr]
    exact hk _ { s with input := rest, inCount := s.inCount + 1 } hp

theorem live_finish {s t : State} (h : s.live = t.live) : s.finish.live = t.finish.live := by
  show s.live.finish.live = t.live.finish.live
  rw [h]

theorem live_outBit {s : State} (bit : Bool) (hp : s.phase = .dPayload) :
    ((s.setEng (s.eng.live .dPayload)).outBit bit).1 = (s.outBit bit).1 ∧
    ((s.setEng (s.eng.live .dPayload)).outBit bit).2.live = (s.outBit bit).2.live := by
  by_cases h7 : s.eng.ofill = 7
  · rw [outBit_eight h7, outBit_eight (s := s.setEng (s.eng.live .dPayload)) h7]
    refine ⟨rfl, live_congr (p := .dPayload) hp hp ?_⟩
    exact congrArg (fun e : Engine => (s.emitByte _).setEng { e with oacc := 0, ofill := 0, emitted := e.emitted + 1 })
      (Engine.live_live .dPayload s.eng)
  · rw [outBit_more h7, outBit_more (s := s.setEng (s.eng.live .dPayload)) h7]
    refine ⟨rfl, live_congr (p := .dPayload) hp hp ?_⟩
    exact congrArg (fun e : Engine => s.setEng { e with oacc := shiftIn e.oacc bit, ofill := e.ofill + 1 })
      (Engine.live_live .dPayload s.eng)

theorem live_outBit_finish {s : State} (bit : Bool) (hp : s.phase = .dPayload) :
    (if ((s.setEng (s.eng.live .dPayload)).outBit bit).1 = true then
        ((s.setEng (s.eng.live .dPayload)).outBit bit).2.finish
      else ((s.setEng (s.eng.live .dPayload)).outBit bit).2).live =
    (if (s.outBit bit).1 = true then (s.outBit bit).2.finish else (s.outBit bit).2).live := by
  obtain ⟨hdone, hlive⟩ := live_outBit bit hp
  rw [hdone]
  split
  · exact live_finish hlive
  · exact hlive

/-- A miss at Lmax bits or more. -/
theorem matchKey_unknown {s : State} {bit : Bool}
    (h : lookup? s.eng.dict (s.eng.klen + 1) (2 * s.eng.kval + bit.toNat) = none) (hm : s.eng.lmax ≤ s.eng.klen + 1) :
    s.matchKey bit =
      (s.setEng { s.eng with klen := s.eng.klen + 1, kval := 2 * s.eng.kval + bit.toNat }).raiseFault
        .unknownCode .noDetail :=
  (matchKey_miss h).trans (if_pos hm)

/-- Any other miss keeps the longer key. -/
theorem matchKey_longer {s : State} {bit : Bool}
    (h : lookup? s.eng.dict (s.eng.klen + 1) (2 * s.eng.kval + bit.toNat) = none)
    (hm : ¬ s.eng.lmax ≤ s.eng.klen + 1) :
    s.matchKey bit = s.setEng { s.eng with klen := s.eng.klen + 1, kval := 2 * s.eng.kval + bit.toNat } :=
  (matchKey_miss h).trans (if_neg hm)

theorem live_matchKey {s : State} (bit : Bool) (hp : s.phase = .dPayload) :
    (s.live.matchKey bit).live = (s.matchKey bit).live := by
  rw [live_eq hp]
  have hl := Engine.live_live .dPayload s.eng
  cases hk : lookup? s.eng.dict (s.eng.klen + 1) (2 * s.eng.kval + bit.toNat) with
  | some e =>
    rw [matchKey_hit hk, matchKey_hit (s := s.setEng (s.eng.live .dPayload)) hk]
    exact live_congr (p := .dPayload) hp hp (congrArg (fun x : Engine =>
      s.setEng { x with klen := 0, kval := 0, pendBits := bitstring e.sym s.width.toNat }) hl)
  | none =>
    by_cases hm : s.eng.lmax ≤ s.eng.klen + 1
    · rw [matchKey_unknown hk hm, matchKey_unknown (s := s.setEng (s.eng.live .dPayload)) hk hm]; rfl
    · rw [matchKey_longer hk hm, matchKey_longer (s := s.setEng (s.eng.live .dPayload)) hk hm]
      exact live_congr (p := .dPayload) hp hp (congrArg (fun x : Engine =>
        s.setEng { x with klen := x.klen + 1, kval := 2 * x.kval + bit.toNat }) hl)

/-- nextBit reads PBYTE only where bits of it are left. -/
theorem live_nextBit {s : State} (hp : s.phase = .dPayload) :
    (s.nextBit = none ∧ s.live.nextBit = none) ∨
    ∃ bit u v, s.nextBit = some (bit, u) ∧ s.live.nextBit = some (bit, v) ∧ u.phase = .dPayload ∧
      v.phase = .dPayload ∧ v.live = u.live := by
  rw [live_eq hp]
  by_cases hl : s.eng.pleft = 0
  · cases hi : s.input with
    | nil => exact .inl ⟨nextBit_end hl hi, nextBit_end (s := s.setEng (s.eng.live .dPayload)) hl hi⟩
    | cons b rest =>
      exact .inr ⟨_, _, _, nextBit_byte hl hi, nextBit_byte (s := s.setEng (s.eng.live .dPayload)) hl hi, hp, hp,
        live_congr (p := .dPayload) hp hp rfl⟩
  · have hb : (s.eng.live .dPayload).pbyte = s.eng.pbyte := if_neg hl
    have hv := nextBit_left (s := s.setEng (s.eng.live .dPayload)) hl
    rw [State.setEng_eng, hb] at hv
    refine .inr ⟨_, _, _, nextBit_left hl, hv, hp, hp, live_congr (p := .dPayload) hp hp ?_⟩
    simp only [State.setEng_eng, Engine.live, if_neg hl]
    rfl

/-- What D_Payload does depends on the live part of the readers, the accumulators and the dictionary. -/
theorem live_payloadStep {s : State} (hp : s.phase = .dPayload) : s.live.payloadStep.live = s.payloadStep.live := by
  have hle := live_eq hp
  by_cases hz : s.origLen.toNat = 0
  · rw [payloadStep_zero hz, payloadStep_zero (s := s.live) hz]; rfl
  cases hb : s.eng.pendBits with
  | cons bit bits =>
    rw [hle, payloadStep_emit hz hb, payloadStep_emit (s := s.setEng (s.eng.live .dPayload)) hz hb]
    exact live_outBit_finish (s := s.setEng { s.eng with pendBits := bits }) bit hp
  | nil =>
    have hb' : s.live.eng.pendBits = [] := by rw [hle]; exact hb
    obtain ⟨hn, hn'⟩ | ⟨bit, u, v, hn, hn', hu, hv, huv⟩ := live_nextBit hp
    · rw [payloadStep_end hz hb hn, payloadStep_end (s := s.live) hz hb' hn']; rfl
    · rw [payloadStep_next hz hb hn, payloadStep_next (s := s.live) hz hb' hn', ← live_matchKey bit hv, huv,
        live_matchKey bit hu]

/-- What the engine does depends on the live part of its state. -/
theorem live_engineStep (s : State) : s.live.engineStep.live = s.engineStep.live := by
  cases hp : s.phase with
  | idle => rw [engineStep_idle hp, engineStep_idle (s := s.live) hp, live_live]
  | cRead => rw [engineStep_cRead hp, engineStep_cRead (s := s.live) hp, live_readStep hp]
  | cAnalyse w => rw [engineStep_cAnalyse hp, engineStep_cAnalyse (s := s.live) hp, live_analyseStep hp]
  | cSelect => rw [engineStep_cSelect hp, engineStep_cSelect (s := s.live) hp, live_selectStep hp]
  | cEmit => rw [engineStep_cEmit hp, engineStep_cEmit (s := s.live) hp, live_emitStep hp]
  | dHeader =>
    rw [engineStep_dHeader hp, engineStep_dHeader (s := s.live) hp]
    exact live_readByte _ hp rfl fun r _ hu => live_headerStep r hu
  | dDict i =>
    rw [engineStep_dDict hp, engineStep_dDict (s := s.live) hp]
    exact live_readByte _ hp rfl fun r _ hu => live_dictStep r hu
  | dPayload => rw [engineStep_dPayload hp, engineStep_dPayload (s := s.live) hp, live_payloadStep hp]

/-- A state that is the live part of another is its own live part. -/
theorem live_of_eq_live {s t : State} (h : s = t.live) : s.live = t.live := by
  rw [h, live_live]

/-- An outcome up to what is not live. -/
def liveOutcome : Host.Outcome State Fault Refusal → Host.Outcome State Fault Refusal
  | .next s => .next s.live
  | .fault f => .fault f
  | .refused r => .refused r

theorem liveOutcome_next {s t : State} (h : s.live = t.live) : liveOutcome (.next s) = liveOutcome (.next t) :=
  congrArg Host.Outcome.next h

theorem liveOutcome_ite {c : Prop} [Decidable c] {o p q r : Host.Outcome State Fault Refusal}
    (h : liveOutcome o = liveOutcome p) (h' : liveOutcome q = liveOutcome r) :
    liveOutcome (if c then o else q) = liveOutcome (if c then p else r) := by
  split
  · exact h
  · exact h'

/-- What a command does depends on no internal state (44_compressor.md R131). -/
theorem liveOutcome_exec (i : Instr) (s : State) : liveOutcome (exec i s.live) = liveOutcome (exec i s) := by
  have hs : liveOutcome (.next s.live) = liveOutcome (.next s) := liveOutcome_next (live_live s)
  cases i with
  | nop => exact hs
  | compress => exact liveOutcome_ite (liveOutcome_next (live_congr (p := .cRead) rfl rfl rfl)) hs
  | decompress => exact liveOutcome_ite (liveOutcome_next (live_congr (p := .dHeader) rfl rfl rfl)) hs
  | clear => exact liveOutcome_ite (liveOutcome_next (live_of_eq_live (t := s.clearStatus) rfl)) hs
  | illegal w => exact liveOutcome_ite (liveOutcome_next (live_congr (p := .idle) rfl rfl rfl)) hs

/-- A register access depends on what `k` depends on. -/
theorem liveOutcome_busAccess {k l : Reg → Host.Outcome State Fault Refusal} (bits offset : Nat)
    (h : ∀ r, liveOutcome (k r) = liveOutcome (l r)) :
    liveOutcome (busAccess bits offset k) = liveOutcome (busAccess bits offset l) := by
  refine liveOutcome_ite ?_ rfl
  cases regAt offset with
  | some r => exact h r
  | none => rfl

/-- No register shows internal state. -/
theorem readReg_live (r : Reg) (s : State) : s.live.readReg r = (s.readReg r).live := by
  obtain ⟨hb, hr, h⟩ | ⟨hn, h⟩ := readReg_cases r s
  · rw [h]; exact if_pos ⟨hb, hr⟩
  · rw [h]
    refine (if_neg hn).trans ?_
    cases r <;> rfl

theorem live_hostWait (s : State) : (hostWait s.live).live = (hostWait s).live := by
  have hr := readReg_live .status s
  unfold hostWait
  by_cases hb : s.state = .busy
  · rw [if_pos hb, if_pos (show s.live.state = .busy from hb), hr]
    exact live_of_eq_live rfl
  · rw [if_neg hb, if_neg (show ¬ s.live.state = .busy from hb), hr, live_live]

/-- What an event of the host does depends on the live part of the engine. -/
theorem liveOutcome_hostEvent (e : Event) (s : State) :
    liveOutcome (hostEvent e s.live) = liveOutcome (hostEvent e s) := by
  cases e with
  | reset => exact liveOutcome_next rfl
  | attach bs => exact liveOutcome_ite rfl (liveOutcome_next (live_of_eq_live (t := s.attach bs) rfl))
  | write bits offset v =>
    refine liveOutcome_busAccess bits offset fun r => ?_
    cases r with
    | cmd => exact liveOutcome_exec _ s
    | _ => exact liveOutcome_next (live_live s)
  | read bits offset =>
    exact liveOutcome_busAccess bits offset fun r => liveOutcome_next (by rw [readReg_live, live_live])
  | wait => exact liveOutcome_next (live_hostWait s)
  | engine => exact liveOutcome_next (live_engineStep s)

theorem liveOutcome_step (s : State) : liveOutcome (step s.live) = liveOutcome (step s) := by
  unfold step
  rw [show s.live.agenda = s.agenda from rfl]
  cases s.agenda with
  | nil => exact liveOutcome_next (live_engineStep s)
  | cons e rest => exact liveOutcome_hostEvent e { s with agenda := rest }

theorem liveOutcome_eq_next {o : Host.Outcome State Fault Refusal} {s : State} (h : liveOutcome o = .next s) :
    ∃ t, o = .next t ∧ t.live = s := by
  cases o with
  | next t => exact ⟨t, rfl, Host.Outcome.next.inj h⟩
  | fault f => cases h
  | refused r => cases h

/-- Runs of states with the same live part keep it the same, step by step. -/
theorem liveOutcome_run (k : Nat) {s t : State} (h : s.live = t.live) :
    liveOutcome (Sys2Proof.core.run k s) = liveOutcome (Sys2Proof.core.run k t) := by
  induction k generalizing s t with
  | zero => exact liveOutcome_next h
  | succ k ih =>
    have hst : liveOutcome (step s) = liveOutcome (step t) := by
      rw [← liveOutcome_step s, h, liveOutcome_step]
    cases hs : step s with
    | next u =>
      rw [hs] at hst
      obtain ⟨v, hv, huv⟩ := liveOutcome_eq_next hst.symm
      rw [core_run_next hs, core_run_next hv]
      exact ih huv.symm
    | fault f => cases f
    | refused r =>
      cases ht : step t with
      | next v => rw [hs, ht] at hst; cases hst
      | fault f => cases f
      | refused q =>
        rw [hs, ht] at hst
        rw [core_run_refused hs, core_run_refused ht]
        exact hst

theorem sameOutcome_of_liveOutcome {o p : Host.Outcome State Fault Refusal} (h : liveOutcome o = liveOutcome p) :
    SameOutcome o p := by
  cases o with
  | next s =>
    obtain ⟨t, rfl, ht⟩ := liveOutcome_eq_next h.symm
    exact sameOutside_of_live ht.symm
  | fault f => cases f
  | refused r =>
    cases p with
    | next t => cases h
    | fault f => cases f
    | refused q => exact Host.Outcome.refused.inj h

/-- Settles O55, by induction over the run: the states keep the same live part. -/
theorem internalStateIsNeverObserved : Obligations.InternalStateIsNeverObserved := by
  intro s t k hp h
  exact sameOutcome_of_liveOutcome (liveOutcome_run k (live_of_sameOutside hp h))

end Sys2Proof.Machine
end

section
/-! PROOFS. What a host reads and writes: the register accesses, the STATUS word, the registers that stay. -/

namespace Sys2Proof.Machine

theorem step_event {s : State} {e : Event} {rest : List Event} (h : s.agenda = e :: rest) :
    step s = hostEvent e { s with agenda := rest } := by
  unfold step; rw [h]

/-- A 64-bit access at a register's offset reaches that register (20_memory.md R42). -/
theorem busAccess_offset (r : Reg) (k : Reg → Host.Outcome State Fault Refusal) : busAccess 64 r.offset k = k r := by
  simp only [busAccess, if_true, regAt_offset]

/-- A result register read while BUSY returns a fresh free value (10_state.md R27). -/
theorem step_rd_free {s : State} {r : Reg} {rest : List Event} (h : s.agenda = rd r :: rest) (hb : s.state = .busy)
    (hr : r.isResult = true) :
    step s = .next
      { s with agenda := rest, rdata := some (Config.freeWord s.freeCtr), freeCtr := s.freeCtr + 1 } :=
  ((step_event h).trans (busAccess_offset r _)).trans (congrArg Host.Outcome.next (if_pos ⟨hb, hr⟩))

/-- Any other read returns what the register holds. -/
theorem step_rd_held {s : State} {r : Reg} {rest : List Event} (h : s.agenda = rd r :: rest)
    (hn : ¬ (s.state = .busy ∧ r.isResult = true)) :
    step s = .next { s with agenda := rest, rdata := some (s.regValue r) } :=
  ((step_event h).trans (busAccess_offset r _)).trans (congrArg Host.Outcome.next (if_neg hn))

/-- Settles O4. -/
theorem stepRunsTheWrittenCommand : Obligations.StepRunsTheWrittenCommand := fun s w rest h =>
  (step_event h).trans (busAccess_offset .cmd fun _ => exec (decode w) { s with agenda := rest })

/-- A table row's word is the 64-bit value that the decoder is asked about. -/
theorem decodeTableWord_eq_some {nbits w : Nat} {i : Instr} (h : decodeTableWord nbits w = some i) :
    decode (tableWord nbits w) = i := by
  unfold decodeTableWord at h
  split at h
  · simpa [decodeAccess, Except.toOption] using h
  · cases h

/-- Settles O5: the event placed is the write of O4, and taking it off the agenda again leaves the state as it was. -/
theorem fetchWordRunsTheTableRow : Obligations.FetchWordRunsTheTableRow := by
  intro s nbits w i h
  rw [← decodeTableWord_eq_some h]
  exact stepRunsTheWrittenCommand (s.withFetchWord nbits w) (tableWord nbits w) s.agenda rfl

theorem RunState.code_lt (st : RunState) : st.code < 2 ^ 2 := by cases st <;> decide

theorem Cause.code_lt (c : Cause) : c.code < 2 ^ 8 := by cases c <;> decide

theorem Detail.code_lt (d : Detail) : d.code < 2 ^ 8 := by cases d <;> decide

/-- The fields of a STATUS word (10_state.md R18). -/
theorem statusWord_fields (st : RunState) (c : Cause) (d : Detail) :
    (statusWord st c d).extractLsb' 0 2 = BitVec.ofNat 2 st.code ∧
    (statusWord st c d).extractLsb' 2 6 = 0 ∧
    (statusWord st c d).extractLsb' 8 8 = BitVec.ofNat 8 c.code ∧
    (statusWord st c d).extractLsb' 16 8 = BitVec.ofNat 8 d.code ∧
    (statusWord st c d).extractLsb' 24 40 = 0 := by
  have hs := st.code_lt
  have hc := c.code_lt
  have hd := d.code_lt
  refine ⟨?_, ?_, ?_, ?_, ?_⟩ <;> apply BitVec.eq_of_toNat_eq <;>
    simp [statusWord, BitVec.extractLsb'_toNat, Nat.shiftRight_eq_div_pow] <;> omega

/-- Whatever STATE is, what STATUS holds is a STATUS word. -/
theorem exists_status_eq (s : State) : ∃ st c d, s.status = statusWord st c d := by
  by_cases h : s.state = .busy
  · exact ⟨.busy, .noFault, .noDetail, by simp only [State.status, h]⟩
  · exact ⟨_, _, _, status_of_not_busy h⟩

/-- In a state of the invariant STATUS shows its three fields, in BUSY too. -/
theorem MachineInv.status_eq {s : State} (h : MachineInv s) : s.status = statusWord s.state s.cause s.detail := by
  by_cases hb : s.state = .busy
  · obtain ⟨-, hc, hd⟩ := h.running (h.busy_iff.1 hb)
    simp only [State.status, hb, hc, hd]
  · exact status_of_not_busy hb

/-- A 64-bit write at a register other than CMD has no effect (10_state.md R26). -/
theorem busWrite_readOnly {offset : Nat} {v : Word} {s : State} (h8 : offset % 8 = 0) (h0 : 0x08 ≤ offset)
    (h38 : offset ≤ 0x38) : busWrite 64 offset v s = .next s := by
  obtain ⟨r, hr⟩ := Option.isSome_iff_exists.1 ((isSome_regAt offset).2 ⟨h8, h38⟩)
  unfold busWrite busAccess
  rw [if_pos rfl, hr]
  cases r with
  | cmd => have := regAt_eq_cmd hr; omega
  | _ => rfl

/-- Settles O15. -/
theorem readOnlyRegistersIgnoreWrites : Obligations.ReadOnlyRegistersIgnoreWrites := by
  refine ⟨fun s offset v rest h8 h0 h38 h => ?_, fun s => ⟨?_, ?_⟩, fun s v rest h => ?_⟩
  · exact (step_event h).trans (busWrite_readOnly h8 h0 h38)
  · have := s.width.isLt
    simp only [State.regValue, BitVec.toNat_setWidth]
    omega
  · obtain ⟨st, c, d, hs⟩ := exists_status_eq s
    obtain ⟨-, h2, -, -, h24⟩ := statusWord_fields st c d
    rw [show s.regValue .status = statusWord st c d from hs]
    exact ⟨h2, h24⟩
  · rw [stepRunsTheWrittenCommand s v rest h]
    exact exec_next _ _

/-- Settles O16, by the register. -/
theorem readsReturnTheRegisters : Obligations.ReadsReturnTheRegisters := by
  intro s rest r v hb hv h
  have hval : s.regValue r = v := by
    cases r with
    | status =>
      obtain rfl : v = statusWord s.state s.cause s.detail := by simpa using hv
      exact status_of_not_busy hb
    | _ => simp at hv; exact hv.symm
  rw [step_rd_held h (fun hc => hb hc.1), hval]

/-- Settles O17: a result register read while BUSY is free, every other read shows what the register holds. -/
theorem readsWhileBusy : Obligations.ReadsWhileBusy := by
  intro s rest r h
  refine ⟨?_, ?_, ?_, ?_⟩
  · rintro hb rfl
    have hone : s.regValue .status = 1 := by
      simp [State.regValue, State.status, hb, statusWord, RunState.code, Cause.code, Detail.code]
    rw [step_rd_held h (by simp [Reg.isResult]), hone]
  · intro hb hr
    have hres : r.isResult = true := by fin_cases hr <;> rfl
    exact step_rd_free h hb hres
  · rintro rfl
    exact step_rd_held h (by simp [Reg.isResult])
  · rintro rfl
    exact step_rd_held h (by simp [Reg.isResult])

/-- Settles O18. -/
theorem statusFields : Obligations.StatusFields := by
  refine ⟨rfl, rfl, rfl, fun s h => ?_⟩
  rw [show s.regValue .status = statusWord s.state s.cause s.detail from h.status_eq]
  exact statusWord_fields _ _ _

/-- No command changes INPUT_CAP. -/
theorem exec_inputCap {i : Instr} {s t : State} (h : exec i s = .next t) : t.inputCap = s.inputCap := by
  obtain rfl | ⟨-, -, rfl⟩ | ⟨-, -, rfl⟩ | ⟨-, -, rfl⟩ | ⟨w, -, -, rfl⟩ := exec_cases h <;> rfl

/-- A read keeps every register. -/
theorem readReg_frame (r : Reg) (s : State) :
    s.readReg r = { s with rdata := (s.readReg r).rdata, freeCtr := (s.readReg r).freeCtr } := by
  obtain ⟨-, -, h⟩ | ⟨-, h⟩ := readReg_cases r s <;> rw [h]

/-- A round of `wait` keeps every register. -/
theorem hostWait_frame (s : State) :
    hostWait s = { s with
      rdata := (hostWait s).rdata, freeCtr := (hostWait s).freeCtr, agenda := (hostWait s).agenda } := by
  unfold hostWait
  rw [readReg_frame]
  split <;> rfl

/-- No step changes INPUT_CAP. -/
theorem step_inputCap {s t : State} (h : step s = .next t) : t.inputCap = s.inputCap := by
  obtain ⟨-, rfl⟩ | ⟨e, rest, -, u, rfl, he⟩ := step_cases h
  · exact (engineStep_frame s).2.1
  obtain ⟨-, rfl⟩ | ⟨bs, -, -, rfl⟩ | ⟨v, -, hx⟩ | ⟨_, _, -, rfl⟩ | ⟨_, r, -, -, rfl⟩ | ⟨-, rfl⟩ | ⟨-, rfl⟩ := he
  · rfl
  · rfl
  · exact (exec_inputCap hx).trans rfl
  · rfl
  · rw [readReg_frame]
  · rw [hostWait_frame]
  · exact (engineStep_frame _).2.1

/-- Settles O19. -/
theorem inputCapIsConstant : Obligations.InputCapIsConstant := by
  refine ⟨rfl, fun s t h => step_inputCap h, fun s t rest h hstep => ?_⟩
  rw [step_rd_held (r := .inputCap) h (by simp [Reg.isResult])] at hstep
  injection hstep with hstep
  rw [← hstep]
  rfl

/-- Settles O20. -/
theorem resetValues : Obligations.ResetValues :=
  ⟨rfl, rfl, rfl, rfl, rfl, rfl, rfl, rfl, rfl, rfl, rfl, engineStep_idle rfl⟩

/-- The five result registers are the same. -/
def SameResults (s t : State) : Prop :=
  t.width = s.width ∧ t.origLen = s.origLen ∧ t.dictCount = s.dictCount ∧ t.inCount = s.inCount ∧
    t.outCount = s.outCount

/-- A command keeps the result registers, unless it is a COMPRESS or DECOMPRESS that starts, which zeroes them. -/
theorem exec_results {i : Instr} {s t : State} (h : exec i s = .next t) :
    SameResults s t ∨
    (t.state = .busy ∧ t.width = 0 ∧ t.origLen = 0 ∧ t.dictCount = 0 ∧ t.inCount = 0 ∧ t.outCount = 0 ∧
      (i = .compress ∨ i = .decompress)) := by
  obtain rfl | ⟨hi, -, rfl⟩ | ⟨hi, -, rfl⟩ | ⟨-, -, rfl⟩ | ⟨w, -, -, rfl⟩ := exec_cases h
  · exact .inl ⟨rfl, rfl, rfl, rfl, rfl⟩
  · exact .inr ⟨rfl, rfl, rfl, rfl, rfl, rfl, .inl hi⟩
  · exact .inr ⟨rfl, rfl, rfl, rfl, rfl, rfl, .inr hi⟩
  · exact .inl ⟨rfl, rfl, rfl, rfl, rfl⟩
  · exact .inl ⟨rfl, rfl, rfl, rfl, rfl⟩

/-- Settles O52: outside BUSY the engine waits, and of the host's events only a reset or a starting command writes a
result register. -/
theorem resultRegistersAreKept : Obligations.ResultRegistersAreKept := by
  intro s t hinv hb hstep
  have hp := hinv.phase_idle hb
  obtain ⟨-, rfl⟩ | ⟨e, rest, ha, u, rfl, he⟩ := step_cases hstep
  · rw [engineStep_idle hp]; exact .inl ⟨rfl, rfl, rfl, rfl, rfl⟩
  obtain ⟨rfl, -⟩ | ⟨bs, -, -, rfl⟩ | ⟨v, rfl, hx⟩ | ⟨_, _, -, rfl⟩ | ⟨_, r, -, -, rfl⟩ | ⟨-, rfl⟩ | ⟨-, rfl⟩ := he
  · exact .inr (.inl ⟨rest, ha⟩)
  · exact .inl ⟨rfl, rfl, rfl, rfl, rfl⟩
  · obtain h | ⟨hs, hw, ho, hd, hi, hc, hcmd⟩ := exec_results hx
    · exact .inl h
    · exact .inr (.inr ⟨hs, hw, ho, hd, hi, hc, v, rest, ha, hcmd⟩)
  · exact .inl ⟨rfl, rfl, rfl, rfl, rfl⟩
  · rw [readReg_frame]; exact .inl ⟨rfl, rfl, rfl, rfl, rfl⟩
  · rw [hostWait_frame]; exact .inl ⟨rfl, rfl, rfl, rfl, rfl⟩
  · rw [engineStep_idle (s := { s with agenda := rest }) hp]; exact .inl ⟨rfl, rfl, rfl, rfl, rfl⟩

end Sys2Proof.Machine
end

section
/-! PROOFS. The host contract of a register access (20_memory.md R42), and the order of COMPRESS's port accesses: its
reads in C_Read, its writes in C_Emit (44_compressor.md R134 to R137). -/

namespace Sys2Proof.Machine

/-- An access within the contract reaches a register. -/
theorem busAccess_reaches {bits offset : Nat} (k : Reg → Host.Outcome State Fault Refusal)
    (h : bits = 64 ∧ offset % 8 = 0 ∧ offset ≤ 0x38) : ∃ r, busAccess bits offset k = k r := by
  obtain ⟨rfl, hin⟩ := h
  obtain ⟨r, hr⟩ := Option.isSome_iff_exists.1 ((isSome_regAt offset).2 hin)
  exact ⟨r, by simp only [busAccess, if_true, hr]⟩

/-- An access outside the contract is refused: for its width, or for an offset where no register is. -/
theorem busAccess_refuses {bits offset : Nat} (k : Reg → Host.Outcome State Fault Refusal)
    (h : ¬ (bits = 64 ∧ offset % 8 = 0 ∧ offset ≤ 0x38)) : ∃ q, busAccess bits offset k = .refused q := by
  by_cases hb : bits = 64
  · have hr : regAt offset = none :=
      Option.not_isSome_iff_eq_none.1 fun hs => h ⟨hb, (isSome_regAt offset).1 hs⟩
    exact ⟨.accessOffset offset, by simp only [busAccess, hb, if_true, hr]⟩
  · exact ⟨.accessWidth bits, if_neg hb⟩

theorem busRead_next {bits offset : Nat} (s : State) (h : bits = 64 ∧ offset % 8 = 0 ∧ offset ≤ 0x38) :
    ∃ t, busRead bits offset s = .next t := by
  unfold busRead
  obtain ⟨r, hr⟩ := busAccess_reaches _ h
  exact ⟨_, hr⟩

/-- A write that reaches a register answers a next state: CMD runs a command, the others ignore it. -/
theorem busWrite_next {bits offset : Nat} (v : Word) (s : State)
    (h : bits = 64 ∧ offset % 8 = 0 ∧ offset ≤ 0x38) : ∃ t, busWrite bits offset v s = .next t := by
  unfold busWrite
  obtain ⟨r, hr⟩ := busAccess_reaches _ h
  rw [hr]
  cases r with
  | cmd => exact exec_next _ _
  | _ => exact ⟨s, rfl⟩

/-- Settles O14, by the direction of the access: reads and writes go through the one contract check. -/
theorem registerAccessContract : Obligations.RegisterAccessContract := by
  rintro s bits offset v rest e (rfl | rfl) h <;> rw [step_event h]
  · exact ⟨fun hin => busRead_next _ hin, fun hout => busAccess_refuses _ hout⟩
  · exact ⟨fun hin => busWrite_next v _ hin, fun hout => busAccess_refuses _ hout⟩

/-- C_Read writes no byte, whether it takes one, finds the stream at its end or exceeds the capacity. -/
theorem readStep_output (s : State) : s.readStep.output = s.output := by
  cases hi : s.input with
  | nil => rw [readStep_end hi]; rfl
  | cons b rest =>
    by_cases hc : s.eng.ibuf.length = s.inputCap.val
    · rw [readStep_full hi hc]; rfl
    · rw [readStep_more hi hc]

/-- C_Select accesses neither port, whether it refuses the winner's codes or goes on to C_Emit. -/
theorem samePorts_selectStep (s : State) : SamePorts s s.selectStep := by
  by_cases h : tooLong s.eng.bestTable = true
  · rw [selectStep_long h]; exact samePorts_refl _
  · rw [selectStep_emit h]; exact samePorts_refl _

/-- The bit packer reads nothing and leaves the phase. -/
theorem pushBit_input_phase (bit : Bool) (s : State) :
    (s.pushBit bit).input = s.input ∧ (s.pushBit bit).phase = s.phase := by
  by_cases hf : s.eng.fill = 7
  · rw [pushBit_eight hf]; exact ⟨rfl, rfl⟩
  · rw [pushBit_more hf]; exact ⟨rfl, rfl⟩

theorem flush_input (s : State) : s.flush.input = s.input := by
  by_cases hf : s.eng.fill = 0
  · rw [flush_empty hf]
  · rw [flush_rest (by omega)]; rfl

/-- C_Emit reads nothing; it goes on until header, dictionary and payload are written, and then ends. -/
theorem emitStep_input_phase (s : State) :
    s.emitStep.input = s.input ∧ (s.emitStep.phase = s.phase ∨ s.emitStep.phase = .idle) := by
  cases hp : s.eng.pendBytes with
  | cons b bytes => rw [emitStep_byte hp]; exact ⟨rfl, .inl rfl⟩
  | nil =>
    cases hb : s.eng.pendBits with
    | cons bit bits =>
      rw [emitStep_bit hp hb]
      obtain ⟨hi, hph⟩ := pushBit_input_phase bit (s.setEng { s.eng with pendBits := bits })
      exact ⟨hi, .inl hph⟩
    | nil =>
      cases hs : s.eng.pendSyms with
      | cons x syms => rw [emitStep_symbol hp hb hs]; exact ⟨rfl, .inl rfl⟩
      | nil => rw [emitStep_end hp hb hs]; exact ⟨flush_input s, .inr rfl⟩

/-- Settles O50, by the phase of COMPRESS. -/
theorem compressReadsBeforeItWrites : Obligations.CompressReadsBeforeItWrites := by
  refine fun s => ⟨fun hp => ?_, ?_, fun hp => ?_⟩
  · rw [engineStep_cRead hp]; exact readStep_output s
  · rintro (⟨w, hp⟩ | hp)
    · rw [engineStep_cAnalyse hp]; exact ⟨rfl, rfl⟩
    · obtain ⟨hi, -, ho, -⟩ := samePorts_selectStep s
      rw [engineStep_cSelect hp]
      exact ⟨ho, hi⟩
  · rw [engineStep_cEmit hp, ← hp]
    exact emitStep_input_phase s

end Sys2Proof.Machine
end

section
/-! PROOFS. The command word (30_encoding.md R60 to R62): the decoder and the encoder undo each other. -/

namespace Sys2Proof

open Laws

theorem toNat_lt_of_legalWord {w : Word} (h : legalWord w = true) : w.toNat < 4 := by
  simp only [legalWord, Bool.and_eq_true, beq_iff_eq, decide_eq_true_eq, BitVec.toNat_eq, BitVec.extractLsb'_toNat,
    Nat.shiftRight_eq_div_pow] at h
  obtain ⟨hrsv, hopc⟩ := h
  have := w.isLt
  simp at hrsv
  omega

/-- A word the decoder meets is the encoding of one of the four commands, or it is illegal and decodes to ILLEGAL
carrying itself. -/
theorem decode_cases (w : Word) :
    (legalWord w = true ∧ encode (decode w) = w ∧ decode w ∈ [Instr.nop, .compress, .decompress, .clear]) ∨
    (legalWord w = false ∧ decode w = .illegal w) := by
  rw [RoundTrip.decode_eq]
  split_ifs with h0 h1 h2 h3
  · subst h0; exact .inl (by decide)
  · subst h1; exact .inl (by decide)
  · subst h2; exact .inl (by decide)
  · subst h3; exact .inl (by decide)
  · refine .inr ⟨Bool.eq_false_iff.2 fun hl => ?_, rfl⟩
    have := toNat_lt_of_legalWord hl
    bv_omega

/-- The two fields of a legal word as R60 names them: RSV is 0 and OPC one of the four values. -/
theorem legalWord_iff (w : Word) :
    legalWord w = true ↔ w.extractLsb' 8 56 = 0 ∧ ∃ k < 4, w.extractLsb' 0 8 = BitVec.ofNat 8 k := by
  have hopc : (w.extractLsb' 0 8).toNat < 4 ↔ ∃ k < 4, w.extractLsb' 0 8 = BitVec.ofNat 8 k := by
    constructor
    · exact fun h => ⟨_, h, by rw [BitVec.ofNat_toNat, BitVec.setWidth_eq]⟩
    · rintro ⟨k, hk, h⟩
      rw [h, BitVec.toNat_ofNat]
      omega
  simp only [legalWord, Bool.and_eq_true, beq_iff_eq, decide_eq_true_eq, hopc]

/-- Settles O3, by the command in the one direction and by the word in the other. -/
theorem decodeAndEncodeAgree : Obligations.DecodeAndEncodeAgree := by
  refine ⟨fun i => ?_, fun w => ?_⟩
  · cases i with
    | nop => exact RoundTrip.nop
    | compress => exact RoundTrip.compress
    | decompress => exact RoundTrip.decompress
    | clear => exact RoundTrip.clear
    | illegal w => exact RoundTrip.illegal w
  · obtain ⟨-, he, hmem⟩ | ⟨hl, hd⟩ := decode_cases w
    · refine ⟨he, ?_⟩
      generalize decode w = i at hmem
      fin_cases hmem <;> rfl
    · rw [hd]; exact ⟨rfl, by simp [Instr.wellFormed, hl]⟩

/-- Settles O1. -/
theorem commandWordsDecode : Obligations.CommandWordsDecode :=
  ⟨RoundTrip.nop rfl, RoundTrip.compress rfl, RoundTrip.decompress rfl, RoundTrip.clear rfl⟩

/-- Settles O2. -/
theorem wordIsLegalByReservedAndOpcode : Obligations.WordIsLegalByReservedAndOpcode := by
  intro w
  rw [← legalWord_iff]
  obtain ⟨hl, -, hmem⟩ | ⟨hl, hd⟩ := decode_cases w
  · refine ⟨fun _ x hx => ?_, fun h => absurd hl h⟩
    rw [hx] at hmem
    simp at hmem
  · exact ⟨fun h => by simp [hl] at h, fun _ => hd⟩

end Sys2Proof
end

section
/-! PROOFS. Every command ends (43_codec.md R130): each engine step enters a later phase or leaves less work to its
phase. So `wait`, which lets the engine step between its reads of STATUS, ends too (30_encoding.md R65). -/

namespace Sys2Proof.Machine

/-- A bound on the phases still to come, 0 in `Idle` alone. The three phases of DECOMPRESS count as one: they share
their measure of work. -/
def Phase.rank : Phase → Nat
  | .idle => 0
  | .cRead => 10
  | .cAnalyse w => 3 + (Config.candLast - w)
  | .cSelect => 2
  | .cEmit => 1
  | .dHeader => 1
  | .dDict _ => 1
  | .dPayload => 1

/-- A bound on the steps still to come in a phase. In DECOMPRESS each unread bit counts 256, more than the bits of the
symbol it can complete, since WIDTH is one byte. -/
def Phase.work : Phase → State → Nat
  | .idle, _ => 0
  | .cRead, s => s.input.length
  | .cAnalyse _, _ => 0
  | .cSelect, _ => 0
  | .cEmit, s =>
    s.eng.pendBytes.length + s.eng.pendBits.length +
      (s.eng.pendSyms.map fun x => 1 + (codeBits s.eng.bestTable x).length).sum
  | .dHeader, s => 256 * (8 * s.input.length)
  | .dDict _, s => 256 * (8 * s.input.length)
  | .dPayload, s => 256 * (8 * s.input.length + s.eng.pleft) + s.eng.pendBits.length

/-- `t` is nearer to the end of the command than `s`. -/
def Nearer (t s : State) : Prop :=
  Prod.Lex (· < ·) (· < ·) (t.phase.rank, t.phase.work t) (s.phase.rank, s.phase.work s)

theorem nearer_of_rank {s t : State} (h : t.phase.rank < s.phase.rank) : Nearer t s := Prod.Lex.left _ _ h

theorem nearer_of_work {s t : State} {p q : Phase} (hs : s.phase = p) (ht : t.phase = q) (hr : q.rank = p.rank)
    (hw : q.work t < p.work s) : Nearer t s := by
  subst hs ht
  exact Prod.lex_def.2 (.inr ⟨hr, hw⟩)

theorem rank_pos {p : Phase} (hp : p ≠ .idle) : 0 < p.rank := by
  cases p with
  | idle => exact absurd rfl hp
  | cAnalyse w => simp only [Phase.rank]; omega
  | _ => exact Nat.succ_pos _

/-- The end of the command, DONE or in FAULT, is nearer than any phase that runs. -/
theorem nearer_idle {s t : State} (hp : s.phase ≠ .idle) (ht : t.phase = .idle) : Nearer t s :=
  nearer_of_rank (by rw [ht]; exact rank_pos hp)

theorem nearer_readStep {s : State} (hp : s.phase = .cRead) : Nearer s.readStep s := by
  cases hi : s.input with
  | nil =>
    rw [readStep_end hi]
    refine nearer_of_rank ?_
    rw [hp]
    exact (by decide : (Phase.cAnalyse Config.candFirst).rank < Phase.cRead.rank)
  | cons b rest =>
    by_cases hc : s.eng.ibuf.length = s.inputCap.val
    · rw [readStep_full hi hc]; exact nearer_idle (by simp [hp]) rfl
    · rw [readStep_more hi hc]
      exact nearer_of_work hp hp rfl (by simp [Phase.work, hi])

theorem nearer_analyseStep {s : State} {w : Nat} (hp : s.phase = .cAnalyse w) : Nearer (s.analyseStep w) s := by
  refine nearer_of_rank ?_
  rw [hp, State.analyseStep, State.setPhase_phase]
  split <;> simp only [Phase.rank] <;> omega

theorem nearer_selectStep {s : State} (hp : s.phase = .cSelect) : Nearer s.selectStep s := by
  refine nearer_of_rank ?_
  rw [hp]
  by_cases h : tooLong s.eng.bestTable = true
  · rw [selectStep_long h]; exact (by decide : Phase.idle.rank < Phase.cSelect.rank)
  · rw [selectStep_emit h]; exact (by decide : Phase.cEmit.rank < Phase.cSelect.rank)

/-- The bit packer leaves what is still to be written. -/
theorem work_pushBit (bit : Bool) (s : State) : Phase.work .cEmit (s.pushBit bit) = Phase.work .cEmit s := by
  by_cases hf : s.eng.fill = 7
  · rw [pushBit_eight hf]; rfl
  · rw [pushBit_more hf]; rfl

theorem nearer_emitStep {s : State} (hp : s.phase = .cEmit) : Nearer s.emitStep s := by
  cases hy : s.eng.pendBytes with
  | cons b bytes =>
    rw [emitStep_byte hy]
    exact nearer_of_work hp hp rfl (by simp [Phase.work, hy])
  | nil =>
    cases hb : s.eng.pendBits with
    | cons bit bits =>
      rw [emitStep_bit hy hb]
      refine nearer_of_work hp ((pushBit_input_phase bit _).2.trans hp) rfl ?_
      rw [work_pushBit]
      simp [Phase.work, hb]
    | nil =>
      cases hs : s.eng.pendSyms with
      | cons x syms =>
        rw [emitStep_symbol hy hb hs]
        refine nearer_of_work hp hp rfl ?_
        simp only [Phase.work, State.setEng_eng, hb, hs, List.map_cons, List.sum_cons, List.length_nil]
        omega
      | nil => rw [emitStep_end hy hb hs]; exact nearer_idle (by simp [hp]) rfl

/-- What the examination of the bytes received comes to: the command faults, or it goes on in a phase of DECOMPRESS
with no more to do than read what is left of the input. -/
def FaultsOrReadsOn (u t : State) : Prop :=
  t.phase = .idle ∨ (t.phase.rank = 1 ∧ t.phase.work t = 256 * (8 * u.input.length))

theorem faultsOrReadsOn_startDict (u : State) : FaultsOrReadsOn u u.startDict := by
  by_cases hz : u.dictCount.toNat = 0
  · rw [startDict_none hz]; exact .inr ⟨rfl, rfl⟩
  · rw [startDict_some hz]; exact .inr ⟨rfl, rfl⟩

theorem faultsOrReadsOn_headerStep (r : List Byte) {u : State} (hp : u.phase = .dHeader) :
    FaultsOrReadsOn u (u.headerStep r) := by
  have hgo : ∀ v : State, v.phase = u.phase → v.input = u.input → FaultsOrReadsOn u v := by
    intro v hv hi
    refine .inr ?_
    rw [hv, hp, ← hi]
    exact ⟨rfl, rfl⟩
  obtain ⟨v, rfl, ⟨-, -, h⟩ | ⟨-, -, -, h⟩ | ⟨-, h⟩ | ⟨-, -, h⟩ | ⟨-, -, h⟩ | ⟨-, -, -, h⟩⟩ :=
    headerStep_cases r u <;> rw [h]
  · exact .inl rfl
  · exact hgo _ rfl rfl
  · exact hgo _ rfl rfl
  · exact .inl rfl
  · exact faultsOrReadsOn_startDict _
  · exact hgo _ rfl rfl

theorem faultsOrReadsOn_acceptEntry (i : Nat) (e : Entry) (u : State) : FaultsOrReadsOn u (u.acceptEntry i e) := by
  by_cases hb : badEntry e = true
  · rw [acceptEntry_bad hb]; exact .inl rfl
  by_cases hd : (lookup? u.eng.dict e.len e.code).isSome = true
  · rw [acceptEntry_dup hb hd]; exact .inl rfl
  by_cases hm : i + 1 < u.dictCount.toNat
  · rw [acceptEntry_more hb hd hm]; exact .inr ⟨rfl, rfl⟩
  · rw [acceptEntry_last hb hd hm]; exact .inr ⟨rfl, rfl⟩

theorem faultsOrReadsOn_dictStep {i : Nat} (r : List Byte) {u : State} (hp : u.phase = .dDict i) :
    FaultsOrReadsOn u (u.dictStep i r) := by
  by_cases hf : r.length = Config.entryBytes
  · rw [dictStep_full hf]; exact faultsOrReadsOn_acceptEntry _ _ _
  · rw [dictStep_part hf]
    refine .inr ?_
    rw [State.setEng_phase, hp]
    exact ⟨rfl, rfl⟩

/-- An InRead of DECOMPRESS takes a byte, or faults at the end of the stream. -/
theorem nearer_readByte {s : State} {d : Detail} {k : List Byte → State → State} (hr : s.phase.rank = 1)
    (hw : s.phase.work s = 256 * (8 * s.input.length))
    (hk : ∀ r u, u.phase = s.phase → FaultsOrReadsOn u (k r u)) : Nearer (s.readByte d k) s := by
  have hp : s.phase ≠ .idle := by intro h; simp [h, Phase.rank] at hr
  cases hi : s.input with
  | nil => rw [readByte_end hi]; exact nearer_idle hp rfl
  | cons b rest =>
    rw [readByte_more hi]
    obtain h | ⟨hr', hw'⟩ :=
      hk (s.eng.recv ++ [b]) { s with input := rest, inCount := s.inCount + 1 } rfl
    · exact nearer_idle hp h
    · refine nearer_of_work rfl rfl (hr'.trans hr.symm) ?_
      simp only [hw', hw, hi, List.length_cons]
      omega

/-- The output accumulator leaves what is still to be read. -/
theorem outBit_phase_work (bit : Bool) (s : State) :
    (s.outBit bit).2.phase = s.phase ∧ Phase.work .dPayload (s.outBit bit).2 = Phase.work .dPayload s := by
  by_cases hf : s.eng.ofill = 7
  · rw [outBit_eight hf]; exact ⟨rfl, rfl⟩
  · rw [outBit_more hf]; exact ⟨rfl, rfl⟩

/-- A payload bit is worth more than the bits of the symbol it completes, which are at most 255. -/
theorem matchKey_phase_work (bit : Bool) (u : State) :
    (u.matchKey bit).phase = .idle ∨
    ((u.matchKey bit).phase = u.phase ∧ Phase.work .dPayload (u.matchKey bit) < Phase.work .dPayload u + 256) := by
  cases hl : lookup? u.eng.dict (u.eng.klen + 1) (2 * u.eng.kval + bit.toNat) with
  | some e =>
    rw [matchKey_hit hl]
    have := u.width.isLt
    refine .inr ⟨rfl, ?_⟩
    simp only [Phase.work, State.setEng_eng, State.setEng_input, length_bitstring]
    omega
  | none =>
    rw [matchKey_miss hl]
    split
    · exact .inl rfl
    · exact .inr ⟨rfl, Nat.lt_add_of_pos_right (by decide)⟩

theorem nextBit_work {s u : State} {bit : Bool} (h : s.nextBit = some (bit, u)) :
    Phase.work .dPayload u + 256 = Phase.work .dPayload s := by
  have hc := nextBit_count h
  have hb : u.eng.pendBits = s.eng.pendBits := by rw [nextBit_frame h]
  simp only [Phase.work, hb]
  omega

theorem nearer_payloadStep {s : State} (hp : s.phase = .dPayload) : Nearer s.payloadStep s := by
  have hrun : s.phase ≠ .idle := by simp [hp]
  by_cases hz : s.origLen.toNat = 0
  · rw [payloadStep_zero hz]; exact nearer_idle hrun rfl
  cases hb : s.eng.pendBits with
  | cons bit bits =>
    rw [payloadStep_emit hz hb]
    split
    · exact nearer_idle hrun rfl
    · obtain ⟨hq, hw⟩ := outBit_phase_work bit (s.setEng { s.eng with pendBits := bits })
      refine nearer_of_work hp (hq.trans hp) rfl ?_
      rw [hw]
      simp [Phase.work, hb]
  | nil =>
    cases hn : s.nextBit with
    | none => rw [payloadStep_end hz hb hn]; exact nearer_idle hrun rfl
    | some p =>
      obtain ⟨bit, u⟩ := p
      rw [payloadStep_next hz hb hn]
      have hu : u.phase = .dPayload := by rw [nextBit_frame hn]; exact hp
      obtain h | ⟨hq, hw⟩ := matchKey_phase_work bit u
      · exact nearer_idle hrun h
      · exact nearer_of_work hp (hq.trans hu) rfl (nextBit_work hn ▸ hw)

/-- Every step of a running phase comes nearer to the end of the command. -/
theorem nearer_engineStep {s : State} (hp : s.phase ≠ .idle) : Nearer s.engineStep s := by
  cases hq : s.phase with
  | idle => exact absurd hq hp
  | cRead => rw [engineStep_cRead hq]; exact nearer_readStep hq
  | cAnalyse w => rw [engineStep_cAnalyse hq]; exact nearer_analyseStep hq
  | cSelect => rw [engineStep_cSelect hq]; exact nearer_selectStep hq
  | cEmit => rw [engineStep_cEmit hq]; exact nearer_emitStep hq
  | dHeader =>
    rw [engineStep_dHeader hq]
    exact nearer_readByte (by rw [hq]; rfl) (by rw [hq]; rfl)
      fun r u hu => faultsOrReadsOn_headerStep r (hu.trans hq)
  | dDict i =>
    rw [engineStep_dDict hq]
    exact nearer_readByte (by rw [hq]; rfl) (by rw [hq]; rfl)
      fun r u hu => faultsOrReadsOn_dictStep r (hu.trans hq)
  | dPayload => rw [engineStep_dPayload hq]; exact nearer_payloadStep hq

/-- The host has read STATUS and goes on with the agenda `g`. -/
def State.statusRead (s : State) (g : List Event) : State :=
  { s with rdata := some (s.regValue .status), agenda := g }

/-- A read is no work of the engine's. -/
theorem work_statusRead (p : Phase) (s : State) (g : List Event) : p.work (s.statusRead g) = p.work s := by
  cases p <;> rfl

theorem readReg_status (s : State) : s.readReg .status = { s with rdata := some (s.regValue .status) } :=
  if_neg (by simp [Reg.isResult])

/-- Outside BUSY `wait` reads STATUS and is over. -/
theorem step_wait_ends {s : State} {rest : List Event} (h : s.agenda = .wait :: rest) (hb : s.state ≠ .busy) :
    step s = .next (s.statusRead rest) := by
  rw [step_event h, hostEvent, hostWait, if_neg hb, readReg_status]
  rfl

/-- While BUSY `wait` reads STATUS, lets the engine step and waits on. -/
theorem step_wait_busy {s : State} {rest : List Event} (h : s.agenda = .wait :: rest) (hb : s.state = .busy) :
    step s = .next (s.statusRead (.engine :: .wait :: rest)) := by
  rw [step_event h, hostEvent, hostWait, if_pos hb, readReg_status]
  rfl

/-- The second step of a round of `wait` while BUSY is the engine's. -/
theorem step_statusRead_engine (s : State) (g : List Event) :
    step (s.statusRead (.engine :: g)) = .next (s.statusRead g).engineStep :=
  step_event (s := s.statusRead (.engine :: g)) rfl

/-- Settles O59, by induction on the engine's distance from the end of its command: a round of `wait` while BUSY is one
step nearer, and once STATE is not BUSY the next read of STATUS is the last. -/
theorem waitSeesTheEnd : Obligations.WaitSeesTheEnd := by
  intro s h ha
  by_cases hb : s.state = .busy
  · have hp := h.busy_iff.1 hb
    have h1 := step_wait_busy ha hb
    have h2 := step_statusRead_engine s [.wait]
    obtain ⟨k, t, hrun, ht⟩ := waitSeesTheEnd (s.statusRead [.wait]).engineStep
      (invariantIsKept _ _ (invariantIsKept _ _ h h1) h2) (engineStep_frame _).1
    exact ⟨k + 2, t, by rw [core_run_next h1, core_run_next h2, hrun], ht⟩
  · exact ⟨1, s.statusRead [], core_run_next (k := 0) (step_wait_ends ha hb), hb, rfl, rfl⟩
termination_by s => (s.phase.rank, s.phase.work s)
decreasing_by
  rw [← work_statusRead s.phase s [.wait]]
  exact nearer_engineStep (s := s.statusRead [.wait]) hp

end Sys2Proof.Machine
end

section
/-! PROOFS. The bit cursor (40_bitcursor.md): pushing bits and flushing packs them, taking bits one by one unpacks
them and reads a byte only when it needs one, and each eighth bit given to `outBit` writes a byte. -/

namespace Sys2Proof.Machine

/-- Rounding up to whole bytes adds fewer than eight bits. -/
theorem ceilDiv_eight (k : Nat) : k ≤ 8 * ceilDiv k 8 ∧ 8 * ceilDiv k 8 < k + 8 := by
  rw [ceilDiv]
  omega

@[simp] theorem length_packBits (p : List Bool) : (packBits p).length = ceilDiv p.length 8 := by
  rw [packBits, List.length_map, List.length_range]

/-- The first byte of a payload is its first eight bits. -/
theorem payloadByte_append_zero {x : List Bool} (hx : x.length = 8) (q : List Bool) :
    payloadByte (x ++ q) 0 = BitVec.ofNat 8 (val x) := by
  rw [payloadByte, slice, List.append_assoc, Nat.mul_zero, Nat.zero_add, List.take_left' hx, List.drop_zero]

/-- Eight bits in front of a payload make its other bytes one place later. -/
theorem payloadByte_append_succ {x : List Bool} (hx : x.length = 8) (q : List Bool) (j : Nat) :
    payloadByte (x ++ q) (j + 1) = payloadByte q j := by
  have hi : 8 * (j + 1) = x.length + 8 * j := by omega
  rw [payloadByte, payloadByte, slice, slice, List.append_assoc, hi, Nat.add_assoc, List.take_length_add_append,
    List.drop_length_add_append]

/-- A full group of eight bits is one byte of the payload (30_encoding.md R73). -/
theorem packBits_append {x : List Bool} (hx : x.length = 8) (q : List Bool) :
    packBits (x ++ q) = BitVec.ofNat 8 (val x) :: packBits q := by
  have hn : ceilDiv (x ++ q).length 8 = ceilDiv q.length 8 + 1 := by
    have hl := ceilDiv_eight (x ++ q).length
    have hr := ceilDiv_eight q.length
    rw [List.length_append] at hl ⊢
    omega
  rw [packBits, hn, List.range_succ_eq_map, List.map_cons, List.map_map, payloadByte_append_zero hx]
  exact congrArg _ (List.map_congr_left fun j _ => payloadByte_append_succ hx q j)

/-- A last group of fewer than eight bits is one byte, zeros standing after the last bit (30_encoding.md R73). -/
theorem packBits_short {ds : List Bool} (h0 : ds ≠ []) (h8 : ds.length < 8) :
    packBits ds = [BitVec.ofNat 8 (val ds * 2 ^ (8 - ds.length))] := by
  have hpos := List.length_pos_iff.2 h0
  have hn : ceilDiv ds.length 8 = 1 := by have := ceilDiv_eight ds.length; omega
  have hs : slice (ds ++ List.replicate 8 false) (8 * 0) (8 * 0 + 8) = ds ++ List.replicate (8 - ds.length) false := by
    simp only [slice, List.take_append, List.take_of_length_le h8.le, List.take_replicate, Nat.mul_zero, Nat.zero_add,
      List.drop_zero, Nat.min_eq_left (Nat.sub_le 8 ds.length)]
  rw [packBits, hn, List.range_one, List.map_singleton, payloadByte, hs, val_append, val_replicate_false, Nat.add_zero,
    List.length_replicate]

/-- The accumulator holds the bits `ds` of an unfinished byte (10_state.md R34). -/
def State.HoldsBits (s : State) (ds : List Bool) : Prop :=
  ds.length < 8 ∧ s.eng.fill = ds.length ∧ s.eng.acc = BitVec.ofNat 8 (val ds)

/-- The bits `q` written as whole bytes and counted, the accumulator left empty. -/
def State.packed (q : List Bool) (s : State) : State :=
  { s with
    output := s.output ++ packBits q
    outCount := s.outCount + BitVec.ofNat 64 (packBits q).length
    eng := { s.eng with acc := 0, fill := 0 } }

/-- Shifting a bit into an accumulator appends it to the bits held. -/
theorem shiftIn_val (ds : List Bool) (bit : Bool) :
    shiftIn (BitVec.ofNat 8 (val ds)) bit = BitVec.ofNat 8 (val (ds ++ [bit])) := by
  rw [shiftIn_eq, val_append_singleton]
  apply BitVec.eq_of_toNat_eq
  simp only [BitVec.toNat_ofNat]
  omega

/-- Writing no bits leaves a state with an empty accumulator as it is. -/
theorem packed_nil {s : State} (ha : s.eng.acc = 0) (hf : s.eng.fill = 0) : s.packed [] = s := by
  have ho : s.output ++ packBits [] = s.output := List.append_nil _
  have hc : s.outCount + BitVec.ofNat 64 (packBits []).length = s.outCount := BitVec.add_zero _
  rw [State.packed, ho, hc, ← ha, ← hf]

/-- `packed` does not look at the accumulator. -/
theorem packed_setEng_acc (s : State) (acc : Byte) (fill : Nat) (q : List Bool) :
    (s.setEng { s.eng with acc := acc, fill := fill }).packed q = s.packed q := rfl

theorem packed_append {x : List Bool} (hx : x.length = 8) (q : List Bool) (s : State) :
    s.packed (x ++ q) =
      ((s.emitByte (BitVec.ofNat 8 (val x))).setEng { s.eng with acc := 0, fill := 0 }).packed q := by
  have hc : s.outCount + BitVec.ofNat 64 ((packBits q).length + 1) =
      s.outCount + 1 + BitVec.ofNat 64 (packBits q).length := by
    rw [Nat.add_comm, BitVec.ofNat_add, ← BitVec.add_assoc]; rfl
  simp only [State.packed, packBits_append hx, List.length_cons, hc, State.setEng_output, State.setEng_outCount,
    State.emitByte_output, State.emitByte_outCount, List.append_assoc, List.singleton_append]
  rfl

/-- Flushing writes the bits held (40_bitcursor.md R83). -/
theorem flush_holdsBits {s : State} {ds : List Bool} (h : s.HoldsBits ds) : s.flush = s.packed ds := by
  obtain ⟨h8, hf, ha⟩ := h
  by_cases h0 : ds = []
  · subst h0
    rw [flush_empty hf, packed_nil ha hf]
  · have hacc : s.eng.acc <<< (8 - s.eng.fill) = BitVec.ofNat 8 (val ds * 2 ^ (8 - ds.length)) := by
      rw [ha, hf]
      apply BitVec.eq_of_toNat_eq
      simp [Nat.shiftLeft_eq, Nat.mod_mul_mod]
    rw [flush_rest (hf ▸ List.length_pos_iff.2 h0), hacc, State.packed, packBits_short h0 h8]
    rfl

/-- Pushing bits onto those held and flushing writes them all (40_bitcursor.md R81 to R83). -/
theorem flush_foldl_pushBit (p : List Bool) {s : State} {ds : List Bool} (h : s.HoldsBits ds) :
    (p.foldl (fun u bit => u.pushBit bit) s).flush = s.packed (ds ++ p) := by
  induction p generalizing s ds with
  | nil => rw [List.append_nil]; exact flush_holdsBits h
  | cons bit p ih =>
    obtain ⟨h8, hf, ha⟩ := h
    have hl : (ds ++ [bit]).length = ds.length + 1 := List.length_append
    rw [List.foldl_cons, ← List.singleton_append, ← List.append_assoc]
    by_cases h7 : s.eng.fill = 7
    · rw [pushBit_eight h7, ha, shiftIn_val, packed_append (by omega)]
      exact ih (ds := []) ⟨by decide, rfl, rfl⟩
    · have hf' : s.eng.fill + 1 = (ds ++ [bit]).length := by omega
      rw [pushBit_more h7, ha, shiftIn_val, ih (ds := ds ++ [bit]) ⟨by omega, hf', rfl⟩, packed_setEng_acc]

/-- Settles O25, by induction on the bits pushed: an accumulator that holds the bits `ds` writes `ds ++ p`, and an
empty one holds no bits. -/
theorem pushedBitsArePackedMsbFirst : Obligations.PushedBitsArePackedMsbFirst := by
  intro s p ha hf t
  have ht : t = s.packed p := flush_foldl_pushBit p (ds := []) ⟨by decide, hf, ha⟩
  rw [ht, ← length_packBits]
  have he : (s.packed []).eng = s.eng := congrArg State.eng (packed_nil ha hf)
  exact ⟨rfl, rfl, he, rfl⟩

/-- The bits not yet taken: what is left of the current byte, then the bytes not yet read (10_state.md R36). -/
def State.unreadBits (s : State) : List Bool := bitstring s.eng.pbyte.toNat s.eng.pleft ++ bitsOf s.input

theorem length_unreadBits (s : State) : s.unreadBits.length = s.eng.pleft + 8 * s.input.length := by
  rw [State.unreadBits, List.length_append, length_bitstring, length_bitsOf]

/-- nextBit answers the first of the bits not yet taken, and leaves the others (40_bitcursor.md R85, R86). -/
theorem nextBit_unreadBits {s : State} {bit : Bool} {bits : List Bool} (h : s.unreadBits = bit :: bits) :
    ∃ u, s.nextBit = some (bit, u) ∧ u.unreadBits = bits := by
  rw [State.unreadBits] at h
  cases hp : s.eng.pleft with
  | zero =>
    cases hi : s.input with
    | nil => rw [hp, hi] at h; cases h
    | cons b rest =>
      rw [hp, hi, bitsOf_cons, bitstring_byte] at h
      obtain ⟨rfl, rfl⟩ := List.cons.inj h
      exact ⟨_, nextBit_byte hp hi, rfl⟩
  | succ m =>
    rw [hp, bitstring_byte] at h
    obtain ⟨rfl, rfl⟩ := List.cons.inj h
    have hn := nextBit_left (s := s) (by omega)
    rw [hp, Nat.add_sub_cancel] at hn
    exact ⟨_, hn, rfl⟩

/-- The answers of k calls of nextBit in order, and the state after them. -/
def State.nextBits (s : State) (k : Nat) : Option (List Bool × State) :=
  (List.range k).foldl
    (fun acc _ => acc.bind fun (bs, u) => u.nextBit.map fun (bit, v) => (bs ++ [bit], v)) (some ([], s))

theorem nextBits_succ {s u v : State} {k : Nat} {bs : List Bool} {bit : Bool} (h : s.nextBits k = some (bs, u))
    (hn : u.nextBit = some (bit, v)) : s.nextBits (k + 1) = some (bs ++ [bit], v) := by
  rw [State.nextBits] at h ⊢
  rw [List.range_succ, List.foldl_append, h]
  exact congrArg (Option.map fun (bit, v) => (bs ++ [bit], v)) hn

/-- From an empty reader, k calls of nextBit take the first k bits of the stream, and have read the bytes that hold
them and no more (40_bitcursor.md R86). -/
theorem nextBits_empty_reader {s : State} (hp : s.eng.pleft = 0) {k : Nat} (hk : k ≤ 8 * s.input.length) :
    ∃ t, s.nextBits k = some ((bitsOf s.input).take k, t) ∧ t.unreadBits = (bitsOf s.input).drop k ∧
      t.input = s.input.drop (ceilDiv k 8) ∧ t.inCount = s.inCount + BitVec.ofNat 64 (ceilDiv k 8) := by
  induction k with
  | zero => exact ⟨s, rfl, by rw [State.unreadBits, hp]; rfl, rfl, (BitVec.add_zero _).symm⟩
  | succ k ih =>
    obtain ⟨u, hu, hbits, hin, hcnt⟩ := ih (by omega)
    have hc := ceilDiv_eight k
    have hc' := ceilDiv_eight (k + 1)
    have hlt : k < (bitsOf s.input).length := by rw [length_bitsOf]; omega
    obtain ⟨v, hv, hrest⟩ := nextBit_unreadBits (hbits.trans (List.drop_eq_getElem_cons hlt))
    -- the reader is empty exactly when the bits taken fill whole bytes
    have hleft : u.eng.pleft + k = 8 * ceilDiv k 8 := by
      have hlen := congrArg List.length hbits
      rw [length_unreadBits, hin, List.length_drop, List.length_drop, length_bitsOf] at hlen
      omega
    refine ⟨v, ?_, hrest, ?_⟩
    · rw [nextBits_succ hu hv, List.take_succ_eq_append_getElem hlt]
    · obtain ⟨h0, rfl⟩ | ⟨h0, b, rest, hb, rfl⟩ := nextBit_cases hv
      · rw [show ceilDiv (k + 1) 8 = ceilDiv k 8 by omega]
        exact ⟨hin, hcnt⟩
      · rw [show ceilDiv (k + 1) 8 = ceilDiv k 8 + 1 by omega]
        refine ⟨?_, ?_⟩
        · rw [← List.drop_drop, ← hin, hb]; rfl
        · rw [BitVec.ofNat_add, ← BitVec.add_assoc, ← hcnt]; rfl

/-- Settles O26, by induction on the number of bits taken. -/
theorem unpackedBitsAreReadOnDemand : Obligations.UnpackedBitsAreReadOnDemand := by
  intro s k hp hk
  obtain ⟨t, ht, -, hin, hcnt⟩ := nextBits_empty_reader hp hk
  exact ⟨t, ht, hin, hcnt⟩

/-- Settles O27: the two cases of `outBit`. -/
theorem outBitWritesEveryEighthBit : Obligations.OutBitWritesEveryEighthBit := by
  intro s bit _
  rw [← shiftIn_eq]
  exact ⟨fun h => outBit_more h.ne, fun h => outBit_eight h⟩

end Sys2Proof.Machine
end

section
/-! PROOFS. The frequency analyser (41_frequency.md): the symbols are the groups of the bitstream, and FREQ counts each
of them. -/

namespace Sys2Proof.Machine

/-- The k-th full group is one symbol (41_frequency.md R90). -/
theorem getElem?_tile_full {w k : Nat} {q : List Bool} (hk : k < q.length / w) :
    (tile w q)[k]? = some (val (slice q (k * w) (k * w + w))) := by
  have hl : k < ((List.range (q.length / w)).map fun k => val (slice q (k * w) (k * w + w))).length := by simpa using hk
  rw [tile, List.getElem?_append_left hl, List.getElem?_map, List.getElem?_range hk, Option.map_some]

/-- A final partial group is one symbol, zeros standing after its last bit (41_frequency.md R91). -/
theorem getElem?_tile_partial {w : Nat} {q : List Bool} (hr : q.length % w ≠ 0) :
    (tile w q)[q.length / w]? =
      some (val (q.drop (q.length / w * w) ++ List.replicate (w - q.length % w) false)) := by
  rw [tile, if_pos hr, List.getElem?_append_right (by simp)]
  simp

theorem length_symbols {w : Nat} (hw : 1 ≤ w) (b : List Byte) : (symbols w b).length = ceilDiv (8 * b.length) w := by
  rw [symbols_eq_tile hw, tile_length hw, length_bitsOf]

theorem symbols_lt {w x : Nat} (hw : 1 ≤ w) {b : List Byte} (hx : x ∈ symbols w b) : x < 2 ^ w :=
  tile_lt hw (bitsOf b) x (symbols_eq_tile hw b ▸ hx)

/-- Settles O28: the symbols are the tiling of the bitstream into groups of w bits. -/
theorem symbolsTileTheInput : Obligations.SymbolsTileTheInput := by
  intro w b hw _
  refine ⟨length_symbols hw b, ?_⟩
  rw [symbols_eq_tile hw, ← length_bitsOf]
  exact ⟨fun k hk => getElem?_tile_full hk, getElem?_tile_partial⟩

/-- Counting a sequence of symbols raises FREQ[s] by the occurrences of s. -/
theorem Freq.get_foldl_bump (s : Nat) (xs : List Nat) {f : List (Nat × Nat)} (h : Freq.wf f = true) :
    Freq.get (xs.foldl (fun f x => Freq.bump x f) f) s = Freq.get f s + xs.count s := by
  induction xs generalizing f with
  | nil => rfl
  | cons x xs ih =>
    rw [List.foldl_cons, ih (Freq.wf_bump x h), Freq.get_bump x s h, List.count_cons, Nat.add_assoc]
    simp only [beq_iff_eq, Nat.add_comm]

/-- Settles O29: the counts of the empty table are 0, and each symbol of the sequence adds one to its own. -/
theorem observeCountsSymbols : Obligations.ObserveCountsSymbols := by
  intro w b
  refine ⟨Freq.wf_observe w b, fun s => ?_⟩
  have h0 : Freq.get [] s = 0 := rfl
  rw [observe, Freq.get_foldl_bump s _ rfl, h0, Nat.zero_add]

/-- Counting one symbol raises the sum of the counts by one. -/
theorem Freq.sum_bump (x : Nat) (f : List (Nat × Nat)) :
    ((Freq.bump x f).map Prod.snd).sum = (f.map Prod.snd).sum + 1 := by
  simpa using Freq.weighted_bump x f fun _ => 1

theorem Freq.sum_foldl_bump (xs : List Nat) (f : List (Nat × Nat)) :
    ((xs.foldl (fun f x => Freq.bump x f) f).map Prod.snd).sum = (f.map Prod.snd).sum + xs.length := by
  induction xs generalizing f with
  | nil => rfl
  | cons x xs ih => rw [List.foldl_cons, ih, Freq.sum_bump, List.length_cons, Nat.add_assoc, Nat.add_comm 1]

theorem Freq.mem_keys_foldl_bump (s : Nat) (xs : List Nat) (f : List (Nat × Nat)) :
    s ∈ (xs.foldl (fun f x => Freq.bump x f) f).map Prod.fst ↔ s ∈ xs ∨ s ∈ f.map Prod.fst := by
  induction xs generalizing f with
  | nil => simp
  | cons x xs ih => rw [List.foldl_cons, ih, Freq.mem_keys_bump, List.mem_cons, or_left_comm, or_assoc]

theorem sum_observe (w : Nat) (b : List Byte) : ((observe w b).map Prod.snd).sum = (symbols w b).length := by
  rw [observe, Freq.sum_foldl_bump, List.map_nil, List.sum_nil, Nat.zero_add]

/-- The distinct symbols of FREQ are those of the sequence. -/
theorem mem_keys_observe (w s : Nat) (b : List Byte) : s ∈ (observe w b).map Prod.fst ↔ s ∈ symbols w b := by
  rw [observe, Freq.mem_keys_foldl_bump]
  simp

/-- FREQ has no more entries than a list that holds every symbol of the sequence. -/
theorem length_observe_le {w : Nat} {b : List Byte} {l : List Nat} (h : symbols w b ⊆ l) :
    (observe w b).length ≤ l.length := by
  have hs : (observe w b).map Prod.fst ⊆ l := fun s hk => h ((mem_keys_observe w s b).1 hk)
  simpa using (List.subperm_of_subset (Freq.nodup_keys (Freq.wf_observe w b)) hs).length_le

/-- Rounding up to whole groups of w bits adds fewer than w bits. -/
theorem ceilDiv_mul_bounds {w : Nat} (hw : 1 ≤ w) (m : Nat) :
    m ≤ ceilDiv m w * w ∧ ceilDiv m w * w < m + w := by
  have hle : ceilDiv m w * w ≤ m + w - 1 := Nat.div_mul_le_self _ _
  have hlt : m + w - 1 < ceilDiv m w * w + w := Nat.lt_div_mul_add hw
  omega

theorem observe_nil (w : Nat) : observe w [] = [] := rfl

theorem observe_ne_nil {w : Nat} (hw : 1 ≤ w) {b : List Byte} (hb : b ≠ []) : observe w b ≠ [] := by
  intro h
  have hM : ceilDiv (8 * b.length) w = 0 := by rw [← length_symbols hw, ← sum_observe, h]; rfl
  have hle := (ceilDiv_mul_bounds hw (8 * b.length)).1
  have hpos := List.length_pos_iff.2 hb
  rw [hM] at hle
  omega

/-- Settles O30: every symbol of the sequence is counted once, and the distinct symbols are among those of the sequence
and among the values of w bits. -/
theorem frequenciesSumToSymbolCount : Obligations.FrequenciesSumToSymbolCount := by
  intro w b hw _
  have hM := length_symbols hw b
  obtain ⟨hle, hlt⟩ := ceilDiv_mul_bounds hw (8 * b.length)
  rw [sum_observe, hM]
  refine ⟨rfl, hle, hlt, ?_, fun hb => ⟨List.length_pos_iff.2 (observe_ne_nil hw hb), le_min ?_ ?_⟩⟩
  · rintro rfl
    rw [observe_nil, List.length_nil]
  · have hr : symbols w b ⊆ List.range (2 ^ w) := fun x hx => List.mem_range.2 (symbols_lt hw hx)
    exact (length_observe_le hr).trans_eq List.length_range
  · exact hM ▸ length_observe_le (List.Subset.refl (symbols w b))

end Sys2Proof.Machine
end

section
/-! PROOFS. The tree builder (42_tree.md R95 to R100): what holds of the initial work list and outlives a merge holds of
the built one. -/

namespace Sys2Proof.Machine

/-- What a merge of the last two nodes keeps, any number of merge steps keeps. -/
theorem mergeSteps_induction {P : List HuffTree → Prop}
    (hm : ∀ r a b, P (r ++ [b, a]) → P (insertNode (.node (a.freq + b.freq) a b) r))
    (k : Nat) {wl : List HuffTree} (h : P wl) : P (mergeSteps k wl) := by
  induction k generalizing wl with
  | zero => exact h
  | succ k ih =>
    refine ih ?_
    obtain ⟨-, he⟩ | ⟨r, a, b, rfl, he⟩ := mergeStep_cases wl
    · rwa [he]
    · rw [he]
      exact hm r a b h

/-- Every merge makes one node of two, as long as two are left. -/
theorem length_mergeSteps {k : Nat} {wl : List HuffTree} (h : k < wl.length) :
    (mergeSteps k wl).length = wl.length - k := by
  induction k generalizing wl with
  | zero => rfl
  | succ k ih =>
    obtain ⟨hs, -⟩ | ⟨r, a, b, rfl, he⟩ := mergeStep_cases wl
    · omega
    · have hl := (insertNode_perm (.node (a.freq + b.freq) a b) r).length_eq
      rw [← he, List.length_cons] at hl
      rw [List.length_append, List.length_cons, List.length_singleton] at h ⊢
      rw [mergeSteps, ih (by omega)]
      omega

theorem initialWl_sorted (f : List (Nat × Nat)) : (initialWl f).Pairwise fun a b => b.freq ≤ a.freq := by
  rw [initialWl, List.pairwise_map]
  induction f with
  | nil => exact .nil
  | cons a f ih => exact insertLeaf_sorted a ih

/-- Settles O32: the initial work list is ordered, and a merge reinserts its node in order. -/
theorem workListStaysOrdered : Obligations.WorkListStaysOrdered := fun f k =>
  mergeSteps_induction (P := List.Pairwise fun a b => b.freq ≤ a.freq)
    (fun r _ _ h => insertNode_sorted _ (h.sublist (List.sublist_append_left r _))) k (initialWl_sorted f)

/-- The leaves of the built work list are FREQ's pairs. -/
theorem leaves_build_perm (f : List (Nat × Nat)) : ((build f).flatMap HuffTree.leaves).Perm f := by
  refine mergeSteps_induction (P := fun wl => (wl.flatMap HuffTree.leaves).Perm f) (fun r a b h => ?_) _ ?_
  · refine ((insertNode_perm _ r).flatMap_right _).trans (.trans ?_ h)
    simp only [List.flatMap_cons, List.flatMap_append, List.flatMap_nil, List.append_nil, HuffTree.leaves]
    exact List.perm_append_comm.trans (List.perm_append_comm.append_left _)
  · rw [leaves_initialWl]
    exact foldr_insertLeaf_perm f

/-- Each internal node of the built work list has the frequency of its two children together. -/
theorem sums_build (f : List (Nat × Nat)) : ∀ t ∈ build f, t.sums = true := by
  refine mergeSteps_induction (P := fun wl => ∀ t ∈ wl, t.sums = true) (fun r a b h t ht => ?_) _ fun t ht => ?_
  · obtain rfl | hr := List.mem_cons.1 ((insertNode_perm _ r).mem_iff.1 ht)
    · simp [HuffTree.sums, h a, h b]
    · exact h t (List.mem_append_left _ hr)
  · obtain ⟨p, -, rfl⟩ := List.mem_map.1 ht
    rfl

/-- The loop's N − 1 merges leave one root (42_tree.md R98). -/
theorem exists_build_eq {f : List (Nat × Nat)} (hf : f ≠ []) : ∃ t, build f = [t] := by
  have hN : (initialWl f).length = f.length := by rw [initialWl, List.length_map, (foldr_insertLeaf_perm f).length_eq]
  have hpos := List.length_pos_iff.2 hf
  rw [← List.length_eq_one_iff, build, length_mergeSteps (by omega)]
  omega

theorem length_leaves (t : HuffTree) : t.leaves.length = t.internals + 1 := by
  induction t with
  | leaf => rfl
  | node f l r ihl ihr =>
    rw [HuffTree.leaves, HuffTree.internals, List.length_append, ihl, ihr]
    omega

/-- Settles O31: the one root's leaves are FREQ's pairs, and their number gives that of the internal nodes. -/
theorem builtTreeShape : Obligations.BuiltTreeShape := by
  intro f _ hf
  obtain ⟨t, ht⟩ := exists_build_eq hf
  have hleaves : t.leaves.Perm f := by simpa [ht] using leaves_build_perm f
  have hinternals : t.internals = f.length - 1 := by rw [← hleaves.length_eq, length_leaves, Nat.add_sub_cancel]
  exact ⟨t, ht, hleaves, hinternals, hinternals ▸ depth_le_internals t, sums_build f t (by simp [ht])⟩

end Sys2Proof.Machine
end

section
/-! PROOFS. The code table (42_tree.md R102 to R106): the dictionary of the built tree, the bits it gives the payload, and
the refusal of a winner's code of more than 64 bits. -/

namespace Sys2Proof.Machine

/-- The pops that a pushed node costs append what the walk gives below it, before anything further down the stack. -/
theorem stackWalk_cons (t : HuffTree) (len v k : Nat) (rest : List (HuffTree × Nat × Nat)) :
    stackWalk (2 * t.internals + 1 + k) ((t, len, v) :: rest) = assign len v t ++ stackWalk k rest := by
  induction t generalizing len v k rest with
  | leaf s f =>
    rw [HuffTree.internals, Nat.mul_zero, Nat.zero_add, Nat.add_comm, stackWalk]
    rfl
  | node f l r ihl ihr =>
    have hk : 2 * (HuffTree.node f l r).internals + 1 + k =
        (2 * l.internals + 1 + (2 * r.internals + 1 + k)) + 1 := by
      rw [HuffTree.internals]
      omega
    rw [hk, stackWalk, ihl, ihr, assign, List.append_assoc]

/-- Settles O35: the walk of the root's own pops, with nothing below it on the stack. -/
theorem stackWalkIsPreOrder : Obligations.StackWalkIsPreOrder := fun f l r =>
  (stackWalk_cons (.node f l r) 0 0 0 []).trans (List.append_nil _)

/-- The dictionary lists the root's leaves in order. -/
theorem map_sym_deriveDictionary (t : HuffTree) :
    (deriveDictionary [t]).map Entry.sym = t.leaves.map Prod.fst := by
  cases t with
  | leaf s f => rfl
  | node f l r => exact (assign_spec (.node f l r) 0 0 Nat.one_pos).1

/-- A code is as long as the path to its leaf, a lone leaf's one bit (42_tree.md R103), and its value fits. -/
theorem deriveDictionary_bounds {t : HuffTree} {e : Entry} (he : e ∈ deriveDictionary [t]) :
    1 ≤ e.len ∧ e.len ≤ max 1 t.depth ∧ e.code < 2 ^ e.len := by
  cases t with
  | leaf s f =>
    obtain rfl := List.mem_singleton.1 he
    exact ⟨le_rfl, le_max_left _ _, Nat.two_pos⟩
  | node f l r =>
    obtain ⟨-, hdepth, hfits, -⟩ := (assign_spec (.node f l r) 0 0 Nat.one_pos).2.1 e he
    have hpos : 1 ≤ e.len := by
      obtain hl | hr := List.mem_append.1 he
      · exact ((assign_spec l 1 0 Nat.two_pos).2.1 e hl).1
      · exact ((assign_spec r 1 1 Nat.one_lt_two).2.1 e hr).1
    exact ⟨hpos, le_max_of_le_right (hdepth.trans_eq (Nat.zero_add _)), hfits⟩

theorem deriveDictionary_prefixFree {t : HuffTree} {d e : Entry} (hd : d ∈ deriveDictionary [t])
    (he : e ∈ deriveDictionary [t]) (hpre : d.bits <+: e.bits) : d = e := by
  cases t with
  | leaf s f => exact (List.mem_singleton.1 hd).trans (List.mem_singleton.1 he).symm
  | node f l r => exact (assign_spec (.node f l r) 0 0 Nat.one_pos).2.2 d hd e he hpre

/-- The symbols of the dictionary are those of FREQ. -/
theorem map_sym_deriveDictionary_perm (f : List (Nat × Nat)) :
    ((deriveDictionary (build f)).map Entry.sym).Perm (f.map Prod.fst) := by
  by_cases hf : f = []
  · subst hf
    exact .nil
  · obtain ⟨t, ht⟩ := exists_build_eq hf
    have hleaves := leaves_build_perm f
    rw [ht, List.flatMap_singleton] at hleaves
    rw [ht, map_sym_deriveDictionary]
    exact hleaves.map _

/-- Without a symbol the dictionary is empty (42_tree.md R104). -/
theorem ne_nil_of_mem_deriveDictionary {f : List (Nat × Nat)} {e : Entry} (he : e ∈ deriveDictionary (build f)) :
    f ≠ [] := by
  rintro rfl
  exact absurd he List.not_mem_nil

/-- Settles O34: the leaves give the symbols, the depth of the tree bounds the lengths. -/
theorem dictionaryIsComplete : Obligations.DictionaryIsComplete := by
  intro f hf
  refine ⟨map_sym_deriveDictionary_perm f, fun e he => ?_⟩
  obtain ⟨t, ht, -, -, hdepth, -⟩ := builtTreeShape f hf (ne_nil_of_mem_deriveDictionary he)
  rw [ht] at he
  obtain ⟨hpos, hlen, hfits⟩ := deriveDictionary_bounds he
  exact ⟨hpos, hlen.trans (max_le_max_left 1 hdepth), hfits⟩

/-- Settles O33: none of the codes of the walk begins another, and the symbols are those of FREQ, each once. -/
theorem codesArePrefixFree : Obligations.CodesArePrefixFree := by
  intro f d e hf hd he h
  obtain hpre | hsym := h
  · obtain ⟨t, ht⟩ := exists_build_eq (ne_nil_of_mem_deriveDictionary hd)
    rw [ht] at hd he
    exact deriveDictionary_prefixFree hd he hpre
  · have hnodup := (map_sym_deriveDictionary_perm f).nodup_iff.2 (Freq.nodup_keys hf)
    exact List.inj_on_of_nodup_map hnodup hd he hsym

theorem deriveDictionary_build_single (s c : Nat) : deriveDictionary (build [(s, c)]) = [⟨1, 0, s⟩] := rfl

theorem entryOf?_cons_same (e : Entry) (t : List Entry) : entryOf? (e :: t) e.sym = some e :=
  List.find?_cons_of_pos (beq_self_eq_true e.sym)

/-- Settles O36: the built root is a leaf, whose entry is the code (1, 0). -/
theorem singleSymbolCode : Obligations.SingleSymbolCode := by
  intro s c
  have hentry : entryOf? [⟨1, 0, s⟩] s = some ⟨1, 0, s⟩ := entryOf?_cons_same ⟨1, 0, s⟩ []
  have hlen : codeLen [⟨1, 0, s⟩] s = 1 := by rw [codeLen, hentry]
  rw [deriveDictionary_build_single]
  refine ⟨rfl, hlen, ?_, ?_⟩
  · simp [codeBits, hentry]
  · simp [payloadLen, hlen]

/-- Any weight of the symbols sums over FREQ, times the counts, to what it sums to over the sequence. -/
theorem Freq.weighted_foldl_bump (g : Nat → Nat) (xs : List Nat) (f : List (Nat × Nat)) :
    ((xs.foldl (fun f x => Freq.bump x f) f).map fun p => p.2 * g p.1).sum =
      (f.map fun p => p.2 * g p.1).sum + (xs.map g).sum := by
  induction xs generalizing f with
  | nil => rfl
  | cons x xs ih => rw [List.foldl_cons, ih, Freq.weighted_bump, List.map_cons, List.sum_cons, Nat.add_assoc]

/-- P of 42_tree.md R106 is the number of payload bits. -/
theorem length_payloadBits (w : Nat) (b : List Byte) :
    (payloadBits w b).length = payloadLen (observe w b) (candTable w b) := by
  rw [payloadLen, observe, Freq.weighted_foldl_bump, payloadBits, List.length_flatMap, List.map_nil, List.sum_nil,
    Nat.zero_add]
  simp only [length_codeBits]

theorem length_candTable (w : Nat) (b : List Byte) : (candTable w b).length = (observe w b).length := by
  simpa [candTable] using (map_sym_deriveDictionary_perm (observe w b)).length_eq

theorem length_headerBytes (w n count : Nat) : (headerBytes w n count).length = 17 := by simp [headerBytes]

/-- Settles O38: the header, the entries of 20 bytes each, and the packed payload bits. -/
theorem estimateIsExact : Obligations.EstimateIsExact := by
  intro w b _ _
  have hsize : (containerAt w b).length = 17 + 20 * (observe w b).length + ceilDiv (payloadBits w b).length 8 := by
    rw [containerAt, List.length_append, List.length_append, length_headerBytes, length_dictBytes, length_candTable,
      length_packBits]
  refine ⟨?_, hsize⟩
  rw [hsize, candEstimate, estimate, length_payloadBits]

theorem tooLong_iff (t : List Entry) : tooLong t = true ↔ ∃ e ∈ t, 64 < e.len := by simp [tooLong]

/-- Settles O40: C_Select's two cases, a code of more than 64 bits or none. -/
theorem selectionRefusesLongCodes : Obligations.SelectionRefusesLongCodes := by
  intro s hp
  rw [engineStep_cSelect hp, ← tooLong_iff]
  by_cases h : tooLong s.eng.bestTable = true
  · rw [selectStep_long h]
    refine ⟨rfl, rfl, rfl, rfl, fun _ => ⟨rfl, rfl, rfl, rfl⟩, fun hle => ?_⟩
    obtain ⟨e, he, hlong⟩ := (tooLong_iff _).1 h
    exact absurd (hle e he) (Nat.not_le.2 hlong)
  · rw [selectStep_emit h]
    exact ⟨rfl, rfl, rfl, rfl, fun hl => absurd hl h, fun _ => ⟨rfl, rfl, rfl⟩⟩

end Sys2Proof.Machine
end

section
/-! PROOFS. Every command ends (43_codec.md R130): the engine's distance from the end of its command falls with every
step. -/

namespace Sys2Proof.Machine

/-- Settles O56, by induction on the engine's distance from the end of its command. -/
theorem everyCommandEnds : Obligations.EveryCommandEnds := by
  intro s h
  by_cases hb : s.state = .busy
  · have hp := h.busy_iff.1 hb
    obtain ⟨k, hk⟩ := everyCommandEnds s.engineStep (machineInv_engineStep h)
    exact ⟨k + 1, hk⟩
  · exact ⟨0, hb⟩
termination_by s => (s.phase.rank, s.phase.work s)
decreasing_by exact nearer_engineStep hp

end Sys2Proof.Machine
end

section
/-! PROOFS. The header and the dictionary of a container (43_codec.md R115 to R121): what each field read settles, the
bytes of a field read one a step, and the end of the stream inside a field. -/

namespace Sys2Proof.Machine

@[simp] theorem fromBe_singleton (b : Byte) : fromBe [b] = b.toNat := by simp [fromBe_cons]

/-- Byte 0 of the header sets WIDTH, which is then checked (43_codec.md R115, R116). -/
theorem headerStep_width (b : Byte) (s : State) :
    s.headerStep [b] =
      if b.toNat < 2 ∨ 8 < b.toNat then
        ((s.setEng { s.eng with recv := [b] }).setWidth b).raiseFault .malformedContainer .badWidth
      else (s.setEng { s.eng with recv := [b] }).setWidth b := by
  have hw : fromBe (slice [b] 0 1) = b.toNat := fromBe_singleton b
  simp only [State.headerStep, List.length_singleton, if_true, hw, BitVec.ofNat_toNat, BitVec.setWidth_eq]

/-- Byte 8 of the header completes ORIG_LEN (43_codec.md R117). -/
theorem headerStep_origLen {r : List Byte} {s : State} (h : r.length = 9) :
    s.headerStep r = (s.setEng { s.eng with recv := r }).setOrigLen (fromBe (slice r 1 9)) := by
  simp [State.headerStep, h]

/-- Byte 16 of the header completes DICT_COUNT, which is then checked (43_codec.md R118). -/
theorem headerStep_dictCount {r : List Byte} {s : State} (h : r.length = 17) :
    s.headerStep r =
      if 256 < fromBe (slice r 9 17) then
        ((s.setEng { s.eng with recv := r }).setDictCount (fromBe (slice r 9 17))).raiseFault
          .malformedContainer .dictTooLarge
      else ((s.setEng { s.eng with recv := r }).setDictCount (fromBe (slice r 9 17))).startDict := by
  simp [State.headerStep, h]

/-- A byte inside a field of the header settles nothing. -/
theorem headerStep_part {r : List Byte} {s : State} (h1 : r.length ≠ 1) (h9 : r.length ≠ 9) (h17 : r.length ≠ 17) :
    s.headerStep r = s.setEng { s.eng with recv := r } := by
  simp [State.headerStep, h1, h9, h17]

/-- Settles O42: the stream's end, a width byte outside 2..8, and one within. -/
theorem headerReadsAndChecksWidth : Obligations.HeaderReadsAndChecksWidth := by
  intro s hp hr
  rw [engineStep_dHeader hp]
  refine ⟨fun hi => readByte_end hi, fun b rest hi => ?_⟩
  rw [readByte_more hi, hr, List.nil_append, headerStep_width]
  by_cases hw : b.toNat < 2 ∨ 8 < b.toNat
  · rw [if_pos hw]
    exact ⟨rfl, rfl, rfl, rfl, fun _ => ⟨rfl, rfl, rfl, rfl⟩, fun h => by omega⟩
  · rw [if_neg hw]
    exact ⟨rfl, rfl, rfl, rfl, fun h => absurd h hw, fun _ => ⟨rfl, hp⟩⟩

/-- The bytes `bs` taken off the stream, counted, and added to those received, `rest` being left. -/
def State.received (bs rest : List Byte) (s : State) : State :=
  { s with
    input := rest
    inCount := s.inCount + BitVec.ofNat 64 bs.length
    eng := { s.eng with recv := s.eng.recv ++ bs } }

theorem received_nil (s : State) : s.received [] s.input = s := by simp [State.received]

theorem received_received (as bs rest rest' : List Byte) (s : State) :
    (s.received as rest').received bs rest = s.received (as ++ bs) rest := by
  simp [State.received, BitVec.ofNat_add, BitVec.add_assoc]

/-- In phase `p`, between `m` and `n` bytes received, the engine does nothing but receive bytes: `d` reports the
stream's end, and `k` examines the bytes received, which it records in place of those received before. -/
structure ReadsField (p : Phase) (d : Detail) (k : List Byte → State → State) (m n : Nat) : Prop where
  step : ∀ u : State, u.phase = p → u.engineStep = u.readByte d k
  part : ∀ (r : List Byte) (u : State), m < r.length → r.length < n → k r u = u.setEng { u.eng with recv := r }
  fresh : ∀ (r r' : List Byte) (u : State), k r (u.setEng { u.eng with recv := r' }) = k r u

/-- ORIG_LEN and DICT_COUNT are fields of the header (43_codec.md R117, R118). -/
theorem readsField_header {m n : Nat} (h : m = 1 ∧ n = 9 ∨ m = 9 ∧ n = 17) :
    ReadsField .dHeader .truncHeader State.headerStep m n where
  step _ := engineStep_dHeader
  part _ _ hm hn := headerStep_part (by omega) (by omega) (by omega)
  fresh _ _ _ := rfl

/-- The 20 bytes of an entry are a field (43_codec.md R119). -/
theorem readsField_entry (i : Nat) : ReadsField (.dDict i) .truncDict (State.dictStep i) 0 20 where
  step _ := engineStep_dDict
  part _ _ _ hn := dictStep_part (Nat.ne_of_lt hn)
  fresh _ _ _ := rfl

section

variable {p : Phase} {d : Detail} {k : List Byte → State → State} {m n : Nat} {s : State} {bs rest : List Byte}

/-- One engine step inside a field receives one byte. -/
theorem ReadsField.engineStep_eq (hf : ReadsField p d k m n) (hp : s.phase = p) {b : Byte} (hi : s.input = b :: rest)
    (hm : m ≤ s.eng.recv.length) (hn : s.eng.recv.length + 1 < n) : s.engineStep = s.received [b] rest := by
  have hl : (s.eng.recv ++ [b]).length = s.eng.recv.length + 1 := List.length_append
  rw [hf.step s hp, readByte_more hi, hf.part _ _ (by omega) (by omega)]
  rfl

/-- Bytes that do not complete the field are received one a step. -/
theorem ReadsField.engineRun_part (hf : ReadsField p d k m n) (hp : s.phase = p) (hi : s.input = bs ++ rest)
    (hm : m ≤ s.eng.recv.length) (hn : s.eng.recv.length + bs.length < n) :
    engineRun bs.length s = s.received bs rest := by
  induction bs generalizing s with
  | nil => rw [List.nil_append] at hi; rw [← hi, received_nil]; rfl
  | cons b bs ih =>
    rw [List.length_cons] at hn
    have hl : (s.received [b] (bs ++ rest)).eng.recv.length = s.eng.recv.length + 1 := List.length_append
    rw [List.length_cons, engineRun, hf.engineStep_eq hp (rest := bs ++ rest) hi hm (by omega),
      ih (s := s.received [b] (bs ++ rest)) hp rfl (by omega) (by omega), received_received, List.singleton_append]

/-- A stream that ends inside the field is a fault, every byte of it counted. -/
theorem ReadsField.engineRun_end (hf : ReadsField p d k m n) (hp : s.phase = p) (hi : s.input = bs)
    (hm : m ≤ s.eng.recv.length) (hn : s.eng.recv.length + bs.length < n) :
    engineRun (bs.length + 1) s = (s.received bs []).raiseFault .malformedContainer d := by
  rw [engineRun_last, hf.engineRun_part hp (hi.trans (List.append_nil bs).symm) hm hn, hf.step (s.received bs []) hp,
    readByte_end rfl]

/-- With the last byte of the field, what the bytes received settle is done. -/
theorem ReadsField.engineRun_full (hf : ReadsField p d k m n) (hp : s.phase = p) (hi : s.input = bs ++ rest)
    (hm : m ≤ s.eng.recv.length) (hlt : s.eng.recv.length < n) (hn : s.eng.recv.length + bs.length = n) :
    engineRun bs.length s = k (s.eng.recv ++ bs) (s.received bs rest) := by
  obtain rfl | ⟨xs, b, rfl⟩ := bs.eq_nil_or_concat
  · exact absurd hn (Nat.ne_of_lt hlt)
  rw [List.concat_eq_append] at hi hn ⊢
  rw [List.length_append, List.length_singleton] at hn ⊢
  rw [List.append_assoc] at hi
  rw [engineRun_last, hf.engineRun_part hp hi hm (by omega), hf.step (s.received xs ([b] ++ rest)) hp,
    readByte_more (b := b) (rest := rest) rfl, ← List.append_assoc, ← received_received xs [b] rest ([b] ++ rest),
    ← hf.fresh _ (s.eng.recv ++ xs ++ [b])]
  rfl

end

end Sys2Proof.Machine
end

section
/-! PROOFS. ORIG_LEN and DICT_COUNT, and a dictionary entry (43_codec.md R117 to R121), from the rules of a field. -/

namespace Sys2Proof.Machine

theorem slice_append {α : Type} {xs ys : List α} {i j : Nat} (hi : xs.length = i) (hj : xs.length + ys.length = j) :
    slice (xs ++ ys) i j = ys := by
  rw [slice, List.take_of_length_le (by rw [List.length_append, hj]), List.drop_left' hi]

/-- Eight bytes after the width byte set ORIG_LEN (43_codec.md R117). -/
theorem engineRun_origLen {s : State} {l rest : List Byte} (hp : s.phase = .dHeader) (hr : s.eng.recv.length = 1)
    (hl : l.length = 8) (hi : s.input = l ++ rest) :
    engineRun 8 s = (s.received l rest).setOrigLen (fromBe l) := by
  have h := (readsField_header (.inl ⟨rfl, rfl⟩)).engineRun_full hp hi (by omega) (by omega) (by omega)
  rw [hl, headerStep_origLen (by rw [List.length_append]; omega), slice_append hr (by omega)] at h
  exact h

/-- Eight bytes more set DICT_COUNT, which is then checked (43_codec.md R118). -/
theorem engineRun_dictCount {s : State} {c rest : List Byte} (hp : s.phase = .dHeader) (hr : s.eng.recv.length = 9)
    (hc : c.length = 8) (hi : s.input = c ++ rest) :
    engineRun 8 s =
      if 256 < fromBe c then
        ((s.received c rest).setDictCount (fromBe c)).raiseFault .malformedContainer .dictTooLarge
      else ((s.received c rest).setDictCount (fromBe c)).startDict := by
  have h := (readsField_header (.inr ⟨rfl, rfl⟩)).engineRun_full hp hi (by omega) (by omega) (by omega)
  rw [hc, headerStep_dictCount (by rw [List.length_append]; omega), slice_append hr (by omega)] at h
  exact h

/-- The 16 bytes after the width byte (43_codec.md R117, R118), `u` being the state that has received them. -/
theorem engineRun_header {s : State} {l c rest : List Byte} (hp : s.phase = .dHeader) (hr : s.eng.recv.length = 1)
    (hl : l.length = 8) (hc : c.length = 8) (hi : s.input = l ++ (c ++ rest)) :
    ∃ u : State,
      (engineRun 16 s = if 256 < fromBe c then u.raiseFault .malformedContainer .dictTooLarge else u.startDict) ∧
      u.input = rest ∧ u.inCount = s.inCount + 16 ∧ u.state = s.state ∧ u.origLen = BitVec.ofNat 64 (fromBe l) ∧
      u.dictCount = BitVec.ofNat 64 (fromBe c) := by
  have hr9 : ((s.received l (c ++ rest)).setOrigLen (fromBe l)).eng.recv.length = 9 :=
    List.length_append.trans (by rw [hr, hl])
  have hcnt : s.inCount + BitVec.ofNat 64 l.length + BitVec.ofNat 64 c.length = s.inCount + 16 := by
    rw [hl, hc, BitVec.add_assoc]; rfl
  refine ⟨(((s.received l (c ++ rest)).setOrigLen (fromBe l)).received c rest).setDictCount (fromBe c),
    ?_, rfl, hcnt, rfl, rfl, rfl⟩
  rw [engineRun_add 8 8, engineRun_origLen hp hr hl hi]
  exact engineRun_dictCount hp hr9 hc rfl

/-- DICT_COUNT, within DICT_CAP, says which phase follows the header (43_codec.md R118, R119). -/
theorem startDict_phase (s : State) : s.startDict.phase = if s.dictCount.toNat = 0 then .dPayload else .dDict 0 := by
  by_cases hz : s.dictCount.toNat = 0
  · rw [startDict_none hz, if_pos hz]; rfl
  · rw [startDict_some hz, if_neg hz]; rfl

/-- The start of the dictionary keeps STATE and the result registers set by the header. -/
theorem startDict_frame (s : State) :
    s.startDict.state = s.state ∧ s.startDict.origLen = s.origLen ∧ s.startDict.dictCount = s.dictCount := by
  by_cases hz : s.dictCount.toNat = 0
  · rw [startDict_none hz]; exact ⟨rfl, rfl, rfl⟩
  · rw [startDict_some hz]; exact ⟨rfl, rfl, rfl⟩

/-- A stream that ends among the 16 bytes after the width byte ends inside ORIG_LEN or inside DICT_COUNT; either way
every byte of it is counted (43_codec.md R117, R118). -/
theorem engineRun_truncHeader {s : State} {part : List Byte} (hp : s.phase = .dHeader) (hr : s.eng.recv.length = 1)
    (hlt : part.length < 16) (hi : s.input = part) :
    ∃ u : State, engineRun (part.length + 1) s = u.raiseFault .malformedContainer .truncHeader ∧
      u.inCount = s.inCount + BitVec.ofNat 64 part.length := by
  by_cases h8 : part.length < 8
  · exact ⟨_, (readsField_header (.inl ⟨rfl, rfl⟩)).engineRun_end hp hi (by omega) (by omega), rfl⟩
  obtain ⟨l, x, hl, rfl⟩ : ∃ l x, l.length = 8 ∧ part = l ++ x :=
    ⟨part.take 8, part.drop 8, by rw [List.length_take]; omega, (List.take_append_drop 8 part).symm⟩
  rw [List.length_append, hl] at hlt
  have hr' : ((s.received l x).setOrigLen (fromBe l)).eng.recv.length = 9 :=
    List.length_append.trans (by rw [hr, hl])
  have hrun : engineRun ((l ++ x).length + 1) s =
      (((s.received l x).setOrigLen (fromBe l)).received x []).raiseFault .malformedContainer .truncHeader := by
    rw [List.length_append, hl, Nat.add_assoc, engineRun_add, engineRun_origLen hp hr hl hi]
    exact (readsField_header (.inr ⟨rfl, rfl⟩)).engineRun_end hp rfl hr'.ge (by omega)
  refine ⟨_, hrun, ?_⟩
  rw [List.length_append, BitVec.ofNat_add, ← BitVec.add_assoc]
  rfl

/-- Settles O43: ORIG_LEN, then DICT_COUNT and its check; a shorter stream ends inside one of the two. -/
theorem headerReadsLengthAndCount : Obligations.HeaderReadsLengthAndCount := by
  intro s w l c rest hp hb hr hl hc
  have hr1 : s.eng.recv.length = 1 := by rw [hr]; rfl
  refine ⟨fun hi => ?_, fun part hlt hi => ?_⟩
  · obtain ⟨u, hrun, hrest, hin, hs, hlen, hcount⟩ :=
      engineRun_header hp hr1 hl hc (hi.trans (List.append_assoc _ _ _))
    rw [hrun]
    by_cases hbig : 256 < fromBe c
    · rw [if_pos hbig]
      exact ⟨hlen, hcount, hin, hrest, fun _ => ⟨rfl, rfl, rfl⟩, fun hle => absurd hbig (Nat.not_lt.2 hle)⟩
    · obtain ⟨hs', hlen', hcount'⟩ := startDict_frame u
      obtain ⟨hrest', hin', -, -⟩ := samePorts_startDict u
      rw [if_neg hbig, startDict_phase, hs', hlen', hcount', hrest', hin', hcount, BitVec.toNat_ofNat,
        Nat.mod_eq_of_lt (by omega)]
      exact ⟨hlen, rfl, hin, hrest, fun h => absurd h hbig, fun _ => ⟨hs.trans hb, rfl⟩⟩
  · obtain ⟨u, hu, hcnt⟩ := engineRun_truncHeader hp hr1 hlt hi
    rw [hu]
    exact ⟨rfl, rfl, rfl, hcnt⟩

/-- Settles O45: the stream's end inside the field of an entry. -/
theorem truncatedEntryFaults : Obligations.TruncatedEntryFaults := by
  intro s i hp hr hlt t
  have ht : t = (s.received s.input []).raiseFault .malformedContainer .truncDict :=
    (readsField_entry i).engineRun_end hp rfl (Nat.zero_le _) (by rw [hr, List.length_nil]; omega)
  rw [ht]
  exact ⟨rfl, rfl, rfl, rfl, rfl, rfl⟩

/-- The 20 bytes of an entry are examined as that entry (43_codec.md R119, R120), `u` being the state that has received
them. -/
theorem engineRun_entry {s : State} {i : Nat} {e : Entry} {rest : List Byte} (hp : s.phase = .dDict i)
    (hr : s.eng.recv = []) (hlen : e.len < 2 ^ 32) (hcode : e.code < 2 ^ 64) (hsym : e.sym < 2 ^ 64)
    (hi : s.input = entryBytes e ++ rest) :
    ∃ u : State, engineRun 20 s = u.acceptEntry i e ∧ u.input = rest ∧ u.inCount = s.inCount + 20 ∧
      u.output = s.output ∧ u.state = s.state ∧ u.dictCount = s.dictCount ∧ u.eng.dict = s.eng.dict ∧
      u.eng.lmax = s.eng.lmax := by
  have hl := length_entryBytes e
  have h0 : s.eng.recv.length = 0 := List.length_eq_zero_iff.2 hr
  have h := (readsField_entry i).engineRun_full hp hi (Nat.zero_le _) (by omega) (by omega)
  rw [hl, hr, List.nil_append, dictStep_full hl, entryOfBytes_entryBytes hlen hcode hsym] at h
  refine ⟨_, h, rfl, ?_, rfl, rfl, rfl, rfl, rfl⟩
  rw [State.setEng_inCount, State.received, hl]
  rfl

/-- Settles O44: the entry's bytes are read, and each case of its examination is one of the statement's. -/
theorem entryIsReadAndChecked : Obligations.EntryIsReadAndChecked := by
  intro s i len code sym rest hp hb hr hlen hcode hsym hi t
  obtain ⟨u, hrun, hin, hcnt, hout, hst, hcount, hdict, hlmax⟩ :=
    engineRun_entry (e := ⟨len, code, sym⟩) hp hr hlen hcode hsym hi
  have ht : t = u.acceptEntry i ⟨len, code, sym⟩ := hrun
  obtain ⟨hin', hcnt', hout', -⟩ := samePorts_acceptEntry i ⟨len, code, sym⟩ u
  rw [ht, ← badEntry_iff ⟨len, code, sym⟩, ← isSome_lookup, ← hdict, ← hlmax, ← hcount]
  refine ⟨hin'.trans hin, hcnt'.trans hcnt, hout'.trans hout, fun hbad => ?_, fun hgood hdup => ?_,
    fun hgood hnew => ?_⟩
  · rw [acceptEntry_bad hbad]; exact ⟨rfl, rfl, rfl, rfl⟩
  · rw [acceptEntry_dup hgood hdup]; exact ⟨rfl, rfl, rfl, rfl⟩
  · have hbusy := hst.trans hb
    by_cases hm : i + 1 < u.dictCount.toNat
    · rw [acceptEntry_more hgood hnew hm, if_pos hm]; exact ⟨hbusy, rfl, rfl, rfl⟩
    · rw [acceptEntry_last hgood hnew hm, if_neg hm]; exact ⟨hbusy, rfl, rfl, rfl⟩

end Sys2Proof.Machine
end

section
/-! PROOFS. The payload (43_codec.md R122 to R128): one step of it, and the bytes a DECOMPRESS that ends DONE has
written. -/

namespace Sys2Proof.Machine

/-- The lookup of a key that one entry alone has (43_codec.md R121). -/
theorem lookup_eq_some_of_unique {dict : List Entry} {e : Entry} (he : e ∈ dict)
    (huniq : ∀ d ∈ dict, d.len = e.len → d.code = e.code → d = e) : lookup? dict e.len e.code = some e := by
  obtain ⟨d, hd⟩ := Option.isSome_iff_exists.1 ((isSome_lookup dict e.len e.code).2 ⟨e, he, rfl, rfl⟩)
  obtain ⟨hmem, hlen, hcode⟩ := mem_of_lookup hd
  rw [hd, huniq d hmem hlen hcode]

theorem lookup_eq_none {dict : List Entry} {len code : Nat} (h : ¬ ∃ e ∈ dict, e.len = len ∧ e.code = code) :
    lookup? dict len code = none :=
  Option.not_isSome_iff_eq_none.1 ((isSome_lookup dict len code).not.2 h)

/-- What nextBit keeps that the decoder looks at. -/
theorem nextBit_keeps {s u : State} {bit : Bool} (h : s.nextBit = some (bit, u)) :
    u.phase = s.phase ∧ u.width = s.width ∧ u.origLen = s.origLen ∧ u.output = s.output ∧
    u.eng.dict = s.eng.dict ∧ u.eng.lmax = s.eng.lmax ∧ u.eng.klen = s.eng.klen ∧ u.eng.kval = s.eng.kval := by
  rw [nextBit_frame h]
  exact ⟨rfl, rfl, rfl, rfl, rfl, rfl, rfl, rfl⟩

/-- Settles O47. -/
theorem zeroLengthReadsNoPayload : Obligations.ZeroLengthReadsNoPayload := by
  intro s hp hz
  rw [engineStep_dPayload hp]
  exact payloadStep_zero (by rw [hz]; rfl)

/-- Settles O46: a bit of a matched symbol, the end of the stream, a hit, a miss at Lmax bits, and one below. -/
theorem payloadBitExtendsTheKey : Obligations.PayloadBitExtendsTheKey := by
  intro s hp hz
  have hz' : s.origLen.toNat ≠ 0 := fun h => hz (BitVec.eq_of_toNat_eq h)
  rw [engineStep_dPayload hp]
  refine ⟨fun bit bits hb => ?_, fun hb hn => payloadStep_end hz' hb hn, fun bit u hb hn => ?_⟩
  · rw [payloadStep_emit hz' hb]
    exact ⟨fun h => if_pos h, fun h => if_neg (Bool.eq_false_iff.1 h)⟩
  · obtain ⟨-, hwidth, -, hout, hdict, hlmax, hklen, hkval⟩ := nextBit_keeps hn
    rw [payloadStep_next hz' hb hn, ← hwidth, ← hout, ← hdict, ← hlmax, ← hklen, ← hkval]
    refine ⟨fun e he huniq hlen hcode => ?_, fun hmiss => ⟨fun hmax => ?_, fun hmax => ?_⟩⟩
    · refine matchKey_hit ?_
      rw [← hlen, ← hcode]
      exact lookup_eq_some_of_unique he huniq
    · rw [matchKey_unknown (lookup_eq_none hmiss) hmax]
      exact ⟨rfl, rfl, rfl, rfl⟩
    · exact matchKey_longer (lookup_eq_none hmiss) (Nat.not_le.2 hmax)

/-- The command is in one of the phases of DECOMPRESS. -/
def State.Decompressing (s : State) : Prop := s.phase = .dHeader ∨ (∃ i, s.phase = .dDict i) ∨ s.phase = .dPayload

/-- What the bytes received settle: a fault, or another phase of DECOMPRESS. -/
def State.FaultsOrDecompresses (s : State) : Prop := s.state = .fault ∨ s.Decompressing

theorem decompressing_startDict (s : State) : s.startDict.Decompressing := by
  rw [State.Decompressing, startDict_phase]
  split
  · exact .inr (.inr rfl)
  · exact .inr (.inl ⟨0, rfl⟩)

theorem faultsOrDecompresses_headerStep (r : List Byte) {s : State} (hp : s.phase = .dHeader) :
    (s.headerStep r).FaultsOrDecompresses := by
  obtain ⟨u, rfl, ⟨-, -, h⟩ | ⟨-, -, -, h⟩ | ⟨-, h⟩ | ⟨-, -, h⟩ | ⟨-, -, h⟩ | ⟨-, -, -, h⟩⟩ :=
    headerStep_cases r s <;> rw [h]
  · exact .inl rfl
  · exact .inr (.inl hp)
  · exact .inr (.inl hp)
  · exact .inl rfl
  · exact .inr (decompressing_startDict _)
  · exact .inr (.inl hp)

theorem faultsOrDecompresses_acceptEntry (i : Nat) (e : Entry) (s : State) :
    (s.acceptEntry i e).FaultsOrDecompresses := by
  by_cases hb : badEntry e = true
  · rw [acceptEntry_bad hb]; exact .inl rfl
  by_cases hd : (lookup? s.eng.dict e.len e.code).isSome = true
  · rw [acceptEntry_dup hb hd]; exact .inl rfl
  by_cases hm : i + 1 < s.dictCount.toNat
  · rw [acceptEntry_more hb hd hm]; exact .inr (.inr (.inl ⟨i + 1, rfl⟩))
  · rw [acceptEntry_last hb hd hm]; exact .inr (.inr (.inr rfl))

theorem faultsOrDecompresses_dictStep {i : Nat} (r : List Byte) {s : State} (hp : s.phase = .dDict i) :
    (s.dictStep i r).FaultsOrDecompresses := by
  by_cases hf : r.length = Config.entryBytes
  · rw [dictStep_full hf]; exact faultsOrDecompresses_acceptEntry _ _ _
  · rw [dictStep_part hf]; exact .inr (.inr (.inl ⟨i, hp⟩))

/-- Reading header or dictionary writes nothing, and comes to a fault or goes on with the container. -/
theorem readByte_decompresses {d : Detail} {k : List Byte → State → State} {s : State}
    (hs : ∀ r u, SamePorts u (k r u)) (hk : ∀ r u, u.phase = s.phase → (k r u).FaultsOrDecompresses) :
    (s.readByte d k).output = s.output ∧ (s.readByte d k).FaultsOrDecompresses := by
  cases hi : s.input with
  | nil => rw [readByte_end hi]; exact ⟨rfl, .inl rfl⟩
  | cons b rest =>
    rw [readByte_more hi]
    obtain ⟨-, -, ho, -⟩ := hs (s.eng.recv ++ [b]) { s with input := rest, inCount := s.inCount + 1 }
    exact ⟨ho, hk _ _ rfl⟩

/-- How far a DECOMPRESS is, and what it has then written of the L bytes declared. With L = 0 the payload phase must
have written none (43_codec.md R122, R128). -/
inductive DecompressStage (s : State) : Prop where
  | reading : s.output = [] → (s.phase = .dHeader ∨ ∃ i, s.phase = .dDict i) → DecompressStage s
  | payload : s.phase = .dPayload → s.output.length ≤ s.origLen.toNat → DecompressStage s
  | done : s.state = .done → s.output.length = s.origLen.toNat → DecompressStage s
  | fault : s.state = .fault → DecompressStage s

theorem State.FaultsOrDecompresses.stage {s : State} (h : s.FaultsOrDecompresses) (ho : s.output = []) :
    DecompressStage s := by
  obtain hf | hp | hp | hp := h
  · exact .fault hf
  · exact .reading ho (.inl hp)
  · exact .reading ho (.inr hp)
  · exact .payload hp (by rw [ho]; exact Nat.zero_le _)

/-- With the L-th byte the command ends; before it, fewer bytes are written (43_codec.md R127, R128). -/
theorem decompressStage_outBit {s : State} (bit : Bool) (hp : s.phase = .dPayload)
    (ho : s.output.length = s.eng.emitted) (hlt : s.eng.emitted < s.origLen.toNat) :
    DecompressStage (if (s.outBit bit).1 = true then (s.outBit bit).2.finish else (s.outBit bit).2) := by
  by_cases h7 : s.eng.ofill = 7
  · have hlen (b : Byte) : (s.output ++ [b]).length = s.eng.emitted + 1 := by rw [List.length_append, ho]; rfl
    rw [outBit_eight h7]
    by_cases hlast : s.eng.emitted + 1 = s.origLen.toNat
    · rw [if_pos (decide_eq_true hlast)]
      exact .done rfl ((hlen _).trans hlast)
    · rw [if_neg (by simpa using hlast)]
      exact .payload hp ((hlen _).trans_le hlt)
  · rw [outBit_more h7, if_neg Bool.false_ne_true]
    exact .payload hp (ho.trans_le hlt.le)

/-- The key after one more bit: UnknownCode, or the payload goes on with nothing written. -/
theorem decompressStage_matchKey {s : State} (bit : Bool) (hp : s.phase = .dPayload)
    (hle : s.output.length ≤ s.origLen.toNat) : DecompressStage (s.matchKey bit) := by
  cases hl : lookup? s.eng.dict (s.eng.klen + 1) (2 * s.eng.kval + bit.toNat) with
  | some e => rw [matchKey_hit hl]; exact .payload hp hle
  | none =>
    by_cases hm : s.eng.lmax ≤ s.eng.klen + 1
    · rw [matchKey_unknown hl hm]; exact .fault rfl
    · rw [matchKey_longer hl hm]; exact .payload hp hle

theorem decompressStage_payloadStep {s : State} (hh : Phase.holds .dPayload s) (hp : s.phase = .dPayload)
    (hle : s.output.length ≤ s.origLen.toNat) : DecompressStage s.payloadStep := by
  obtain ⟨-, -, -, -, -, -, -, ho, hlt⟩ := holds_dPayload.1 hh
  by_cases hz : s.origLen.toNat = 0
  · rw [payloadStep_zero hz]
    exact .done rfl (by simp only [State.finish_output, State.finish_origLen]; omega)
  cases hb : s.eng.pendBits with
  | cons bit bits =>
    rw [payloadStep_emit hz hb]
    exact decompressStage_outBit (s := s.setEng { s.eng with pendBits := bits }) bit hp ho (hlt hz)
  | nil =>
    cases hn : s.nextBit with
    | none => rw [payloadStep_end hz hb hn]; exact .fault rfl
    | some p =>
      obtain ⟨bit, u⟩ := p
      obtain ⟨hp', -, hlen, hout, -⟩ := nextBit_keeps hn
      rw [payloadStep_next hz hb hn]
      exact decompressStage_matchKey bit (hp'.trans hp) (by rwa [hout, hlen])

/-- What every engine step of a DECOMPRESS keeps. -/
structure DecompressRun (s : State) : Prop where
  inv : MachineInv s
  counted : s.outCount = BitVec.ofNat 64 s.output.length
  stage : DecompressStage s

theorem DecompressRun.stage_engineStep {s : State} (h : DecompressRun s) : DecompressStage s.engineStep := by
  obtain ⟨hinv, -, ⟨ho, hp | ⟨i, hp⟩⟩ | ⟨hp, hle⟩ | ⟨hd, hl⟩ | hf⟩ := h
  · rw [engineStep_dHeader hp]
    obtain ⟨ho', hk⟩ := readByte_decompresses (d := .truncHeader) samePorts_headerStep
      fun r u hu => faultsOrDecompresses_headerStep r (hu.trans hp)
    exact hk.stage (ho'.trans ho)
  · rw [engineStep_dDict hp]
    obtain ⟨ho', hk⟩ := readByte_decompresses (d := .truncDict) (samePorts_dictStep i)
      fun r u hu => faultsOrDecompresses_dictStep r (hu.trans hp)
    exact hk.stage (ho'.trans ho)
  · rw [engineStep_dPayload hp]; exact decompressStage_payloadStep (hp ▸ hinv.holds) hp hle
  · rw [engineStep_idle (hinv.phase_idle (by simp [hd]))]; exact .done hd hl
  · rw [engineStep_idle (hinv.phase_idle (by simp [hf]))]; exact .fault hf

theorem decompressRun_engineRun {s : State} (h : DecompressRun s) (k : Nat) : DecompressRun (engineRun k s) := by
  induction k generalizing s with
  | zero => exact h
  | succ k ih =>
    exact ih ⟨machineInv_engineStep h.inv, (onePortAccess_engineStep s).counted h.counted, h.stage_engineStep⟩

/-- DECOMPRESS accepted in IDLE or DONE (44_compressor.md R139). -/
theorem exec_decompress_accepted {s : State} (h : s.state = .idle ∨ s.state = .done) :
    exec .decompress s = .next ((s.startCommand .dHeader).setEng { s.eng with recv := [] }) := by
  have ha : s.state.accepts = true := by obtain h | h := h <;> rw [h] <;> rfl
  exact if_pos ha

theorem decompressRun_start {s t : State} (hs : s.state = .idle ∨ s.state = .done)
    (h : exec .decompress s = .next t) : DecompressRun t := by
  rw [exec_decompress_accepted hs] at h
  obtain rfl := Host.Outcome.next.inj h
  refine ⟨?_, rfl, .reading rfl (.inl rfl)⟩
  exact machineInv_busy (by simp) rfl rfl rfl rfl (holds_dHeader.2 ⟨rfl, (by decide : 0 < Config.hdrBytes)⟩)

/-- Of the stages, `done` alone is one of a state in DONE: the invariant has the phases run in BUSY. -/
theorem DecompressRun.declared {s : State} (h : DecompressRun s) (hd : s.state = .done) :
    s.output.length = s.origLen.toNat := by
  have hidle : s.phase = .idle := h.inv.phase_idle (by simp [hd])
  obtain ⟨-, hp | ⟨i, hp⟩⟩ | ⟨hp, -⟩ | ⟨-, hl⟩ | hf := h.stage
  · simp [hidle] at hp
  · simp [hidle] at hp
  · simp [hidle] at hp
  · exact hl
  · simp [hd] at hf

/-- Settles O48: the stages are kept by every engine step, and DONE is the one with the declared length written. -/
theorem decompressWritesExactlyTheDeclaredLength : Obligations.DecompressWritesExactlyTheDeclaredLength := by
  rintro s t u k hs ht rfl hd
  have hrun := decompressRun_engineRun (decompressRun_start hs ht) k
  have hlen := hrun.declared hd
  exact ⟨hlen, by rw [hrun.counted, hlen, BitVec.ofNat_toNat, BitVec.setWidth_eq]⟩

end Sys2Proof.Machine
end

section
/-! PROOFS. A command word in each STATE (44_compressor.md R131 to R133, R139, R141, R142): what starts, what CLEAR and
an illegal word do, what is ignored. -/

namespace Sys2Proof.Machine

/-- A command that starts on the stream the host has attached (44_compressor.md R133, R139, 20_memory.md R48). -/
theorem startCommand_attached {s : State} {b : List Byte} (p : Phase) (h : s.attached = some b) :
    s.startCommand p = { s with
      state := .busy, cause := .noFault, detail := .noDetail
      width := 0, origLen := 0, dictCount := 0, inCount := 0, outCount := 0
      phase := p, input := b, output := [], attached := none } := by
  have hb : s.nextStream = b := by rw [State.nextStream, h]
  have hc : (s.startCommand p).freeCtr = s.freeCtr := if_pos (by rw [h]; rfl)
  rw [← hb, ← hc]
  rfl

/-- A command that starts with no stream attached takes a free one (assumption log 5). -/
theorem startCommand_unattached {s : State} (p : Phase) (h : s.attached = none) :
    s.startCommand p = { s with
      state := .busy, cause := .noFault, detail := .noDetail
      width := 0, origLen := 0, dictCount := 0, inCount := 0, outCount := 0
      phase := p, input := Config.freeStream s.freeCtr, output := [], freeCtr := s.freeCtr + 1 } := by
  have hb : s.nextStream = Config.freeStream s.freeCtr := by rw [State.nextStream, h]
  have hc : (s.startCommand p).freeCtr = s.freeCtr + 1 := if_neg (by rw [h]; exact Bool.false_ne_true)
  have ha : (s.startCommand p).attached = s.attached := h.symm
  rw [← hb, ← hc, ← ha]
  rfl

theorem accepts_of_idle_or_done {s : State} (h : s.state = .idle ∨ s.state = .done) : s.state.accepts = true := by
  obtain h | h := h <;> rw [h] <;> rfl

/-- COMPRESS accepted in IDLE or DONE (44_compressor.md R133). -/
theorem exec_compress_accepted {s : State} (h : s.state = .idle ∨ s.state = .done) :
    exec .compress s = .next ((s.startCommand .cRead).setEng { s.eng with ibuf := [] }) :=
  if_pos (accepts_of_idle_or_done h)

/-- Settles O7. -/
theorem nopChangesNothing : Obligations.NopChangesNothing :=
  ⟨Laws.RoundTrip.nop rfl, fun _ => rfl⟩

/-- Settles O8. -/
theorem compressStarts : Obligations.CompressStarts := by
  intro s b hs hb
  rw [exec_compress_accepted hs, startCommand_attached _ hb]
  rfl

/-- Settles O9. -/
theorem decompressStarts : Obligations.DecompressStarts := by
  intro s b hs hb
  rw [exec_decompress_accepted hs, startCommand_attached _ hb]
  rfl

/-- Settles O10. -/
theorem commandsWithoutStreamTakeAFreeOne : Obligations.CommandsWithoutStreamTakeAFreeOne := by
  intro s hs ha
  rw [exec_compress_accepted hs, exec_decompress_accepted hs, startCommand_unattached _ ha,
    startCommand_unattached _ ha]
  exact ⟨rfl, rfl⟩

/-- CLEAR outside BUSY (44_compressor.md R141). -/
theorem exec_clear_accepted {s : State} (h : s.state ≠ .busy) : exec .clear s = .next s.clearStatus := by
  have ha : s.state.acceptsClear = true := by
    cases hs : s.state with
    | busy => exact absurd hs h
    | _ => rfl
  exact if_pos ha

/-- In IDLE the invariant has STATUS clear already. -/
theorem clearStatus_of_idle {s : State} (hi : MachineInv s) (h : s.state = .idle) : s.clearStatus = s := by
  have hc : s.cause = .noFault := by
    by_contra hc
    have := hi.cause_iff.2 hc
    simp [h] at this
  have hd : s.detail = .noDetail := by
    by_contra hd
    have := hi.detail_iff.1 hd
    simp [hc] at this
  rw [State.clearStatus, State.setStatus, ← h, ← hc, ← hd]

/-- A STATE that accepts no command changes nothing, but for a CLEAR it accepts (44_compressor.md R131). -/
theorem exec_ignored {s : State} {i : Instr} (ha : s.state.accepts = false)
    (hc : i = .clear → s.state.acceptsClear = false) : exec i s = .next s := by
  obtain ⟨t, ht⟩ := exec_next i s
  obtain rfl | ⟨-, h, -⟩ | ⟨-, h, -⟩ | ⟨hi, h, -⟩ | ⟨w, -, h, -⟩ := exec_cases ht
  · exact ht
  · exact absurd h (Bool.eq_false_iff.1 ha)
  · exact absurd h (Bool.eq_false_iff.1 ha)
  · exact absurd h (Bool.eq_false_iff.1 (hc hi))
  · exact absurd h (Bool.eq_false_iff.1 ha)

/-- Settles O13: BUSY accepts no command, FAULT only CLEAR. -/
theorem ignoredCommandsChangeNothing : Obligations.IgnoredCommandsChangeNothing := fun s i =>
  ⟨fun hs => exec_ignored (by rw [hs]; rfl) fun _ => by rw [hs]; rfl,
    fun hs hi => exec_ignored (by rw [hs]; rfl) fun h => absurd h hi⟩

/-- Settles O11: outside BUSY CLEAR clears STATUS, and O13 has every other command ignored in FAULT. -/
theorem clearLeavesFault : Obligations.ClearLeavesFault := by
  refine ⟨Laws.RoundTrip.clear rfl, fun s => ⟨exec_clear_accepted, (ignoredCommandsChangeNothing s .clear).1,
    fun hs hi => ?_, fun i t hs hx ht => ?_⟩⟩
  · rw [exec_clear_accepted (by simp [hs]), clearStatus_of_idle hi hs]
  · by_contra hi
    rw [(ignoredCommandsChangeNothing s i).2 hs hi] at hx
    exact ht (Host.Outcome.next.inj hx ▸ hs)

/-- Settles O12: IDLE and DONE accept an illegal word, and O13 has it ignored in BUSY and FAULT. -/
theorem illegalWordFaults : Obligations.IllegalWordFaults := by
  intro s w
  refine ⟨rfl, fun hs => if_pos (accepts_of_idle_or_done hs), ?_⟩
  rintro (hs | hs)
  · exact (ignoredCommandsChangeNothing s (.illegal w)).1 hs
  · exact (ignoredCommandsChangeNothing s (.illegal w)).2 hs (by simp)

end Sys2Proof.Machine
end

section
/-! PROOFS. The phase advances only forward (10_state.md R16). -/

namespace Sys2Proof.Machine

theorem readStep_phase {s : State} (hp : s.phase = .cRead) : s.readStep.phase ∈ [.cRead, .cAnalyse 2, .idle] := by
  cases hi : s.input with
  | nil => rw [readStep_end hi]; simp
  | cons b rest =>
    by_cases hc : s.eng.ibuf.length = s.inputCap.val
    · rw [readStep_full hi hc]; simp
    · rw [readStep_more hi hc]; simp [hp]

theorem analyseStep_phase {w : Nat} (hw : w ≤ 8) (s : State) :
    (s.analyseStep w).phase = if w = 8 then .cSelect else .cAnalyse (w + 1) := by
  have h : (s.analyseStep w).phase = if w < 8 then .cAnalyse (w + 1) else .cSelect := rfl
  rw [h]
  by_cases hlast : w = 8
  · rw [if_pos hlast, if_neg (by omega)]
  · rw [if_neg hlast, if_pos (by omega)]

theorem selectStep_phase (s : State) : s.selectStep.phase ∈ [.cEmit, .idle] := by
  by_cases h : tooLong s.eng.bestTable = true
  · rw [selectStep_long h]; simp
  · rw [selectStep_emit h]; simp

theorem headerStep_phase (r : List Byte) {s : State} (hp : s.phase = .dHeader) :
    (s.headerStep r).phase ∈ [.dHeader, .dDict 0, .dPayload, .idle] := by
  obtain ⟨u, rfl, ⟨-, -, h⟩ | ⟨-, -, -, h⟩ | ⟨-, h⟩ | ⟨-, -, h⟩ | ⟨-, -, h⟩ | ⟨-, -, -, h⟩⟩ :=
    headerStep_cases r s <;> rw [h]
  · simp
  · simp [hp]
  · simp [hp]
  · simp
  · rw [startDict_phase]; split <;> simp
  · simp [hp]

theorem acceptEntry_phase (i : Nat) (e : Entry) (s : State) :
    (s.acceptEntry i e).phase ∈ [.dDict (i + 1), .dPayload, .idle] := by
  by_cases hb : badEntry e = true
  · rw [acceptEntry_bad hb]; simp
  by_cases hd : (lookup? s.eng.dict e.len e.code).isSome = true
  · rw [acceptEntry_dup hb hd]; simp
  by_cases hm : i + 1 < s.dictCount.toNat
  · rw [acceptEntry_more hb hd hm]; simp
  · rw [acceptEntry_last hb hd hm]; simp [State.startPayload]

theorem dictStep_phase {i : Nat} (r : List Byte) {s : State} (hp : s.phase = .dDict i) :
    (s.dictStep i r).phase ∈ [.dDict i, .dDict (i + 1), .dPayload, .idle] := by
  by_cases hf : r.length = Config.entryBytes
  · rw [dictStep_full hf]; exact List.mem_cons_of_mem _ (acceptEntry_phase _ _ _)
  · rw [dictStep_part hf]; simp [hp]

/-- Reading a byte ends in Idle at the end of the stream; else the bytes received say what follows. -/
theorem readByte_phase {s : State} {d : Detail} {k : List Byte → State → State} {ps : List Phase}
    (hk : ∀ r u, u.phase = s.phase → (k r u).phase ∈ ps) (hidle : Phase.idle ∈ ps) :
    (s.readByte d k).phase ∈ ps := by
  cases hi : s.input with
  | nil => rw [readByte_end hi]; exact hidle
  | cons b rest => rw [readByte_more hi]; exact hk _ _ rfl

theorem payloadStep_phase {s : State} (hp : s.phase = .dPayload) : s.payloadStep.phase ∈ [.dPayload, .idle] := by
  by_cases hz : s.origLen.toNat = 0
  · rw [payloadStep_zero hz]; simp
  cases hb : s.eng.pendBits with
  | cons bit bits =>
    rw [payloadStep_emit hz hb]
    split
    · simp
    · simp [(outBit_phase_work bit _).1, hp]
  | nil =>
    cases hn : s.nextBit with
    | none => rw [payloadStep_end hz hb hn]; simp
    | some p =>
      obtain ⟨bit, u⟩ := p
      rw [payloadStep_next hz hb hn]
      obtain h | ⟨h, -⟩ := matchKey_phase_work bit u
      · simp [h]
      · simp [h, (nextBit_keeps hn).1, hp]

/-- Settles O51, by the phase. -/
theorem phasesAdvanceForward : Obligations.PhasesAdvanceForward := by
  intro s hinv
  have hh := hinv.holds
  split <;> rename_i hp <;> rw [hp] at hh
  · rw [engineStep_idle hp, hp]
  · rw [engineStep_cRead hp]; exact readStep_phase hp
  · obtain ⟨-, -, -, h8, -⟩ := holds_cAnalyse.1 hh
    rw [engineStep_cAnalyse hp]; exact analyseStep_phase h8 s
  · rw [engineStep_cSelect hp]; exact selectStep_phase s
  · rw [engineStep_cEmit hp]
    obtain h | h := (emitStep_input_phase s).2 <;> simp [h, hp]
  · rw [engineStep_dHeader hp]
    exact readByte_phase (fun r u hu => headerStep_phase r (hu.trans hp)) (by simp)
  · rw [engineStep_dDict hp]
    exact readByte_phase (fun r u hu => dictStep_phase r (hu.trans hp)) (by simp)
  · rw [engineStep_dPayload hp]; exact payloadStep_phase hp

end Sys2Proof.Machine
end

section
/-! PROOFS. The selection of the width (44_compressor.md R135, R136): the candidates compared one by one leave the
smallest width of smallest estimate. -/

namespace Sys2Proof.Machine

/-- `v` is the smallest width of smallest estimate among the candidates 2 to w. -/
structure FirstSmallest (b : List Byte) (w v : Nat) : Prop where
  ge_two : 2 ≤ v
  le : v ≤ w
  least : ∀ u, 2 ≤ u → u ≤ w → candEstimate v b ≤ candEstimate u b
  first : ∀ u, 2 ≤ u → u < v → candEstimate v b < candEstimate u b

theorem firstSmallest_two (b : List Byte) : FirstSmallest b 2 2 where
  ge_two := le_rfl
  le := le_rfl
  least u h2 hu := by rw [le_antisymm hu h2]
  first u h2 hu := absurd hu (Nat.not_lt.2 h2)

/-- The next candidate displaces the best so far only by a strictly smaller estimate (44_compressor.md R136). -/
theorem FirstSmallest.next {b : List Byte} {w v : Nat} (h : FirstSmallest b w v) :
    FirstSmallest b (w + 1) (if candEstimate (w + 1) b < candEstimate v b then w + 1 else v) := by
  obtain ⟨h2, hle, hleast, hfirst⟩ := h
  have hlast {u : Nat} (hu : u ≤ w + 1) : u ≤ w ∨ u = w + 1 := by omega
  split
  · rename_i hlt
    refine ⟨by omega, le_rfl, fun u hu2 hu => ?_, fun u hu2 hu => ?_⟩
    · obtain hu | rfl := hlast hu
      · exact hlt.le.trans (hleast u hu2 hu)
      · exact le_rfl
    · exact hlt.trans_le (hleast u hu2 (by omega))
  · rename_i hge
    refine ⟨h2, by omega, fun u hu2 hu => ?_, hfirst⟩
    obtain hu | rfl := hlast hu
    · exact hleast u hu2 hu
    · exact Nat.le_of_not_lt hge

theorem FirstSmallest.unique {b : List Byte} {w v v' : Nat} (h : FirstSmallest b w v) (h' : FirstSmallest b w v') :
    v = v' := by
  have hvv := h.least v' h'.ge_two h'.le
  have hvv' := h'.least v h.ge_two h.le
  obtain hlt | heq | hgt := Nat.lt_trichotomy v v'
  · have := h'.first v h.ge_two hlt; omega
  · exact heq
  · have := h.first v' h'.ge_two hgt; omega

/-- The loop of 44_compressor.md R136 gives that width. -/
theorem firstSmallest_winner (b : List Byte) : FirstSmallest b 8 (winner b) :=
  (firstSmallest_two b).next.next.next.next.next.next

/-- BEST_W, BEST_EST and the table kept are those of the best candidate among 2 to w (10_state.md R33). -/
structure Engine.BestUpTo (e : Engine) (w : Nat) : Prop where
  width : FirstSmallest e.ibuf w e.bestW
  est : e.bestEst = candEstimate e.bestW e.ibuf
  table : e.bestTable = candTable e.bestW e.ibuf

/-- Candidate w displaces the best so far. -/
theorem analyse_better {w : Nat} {e : Engine} (h : w = 2 ∨ candEstimate w e.ibuf < e.bestEst) :
    e.analyse w = { e with
      freq := observe w e.ibuf, wl := build (observe w e.ibuf), table := candTable w e.ibuf
      bestW := w, bestEst := candEstimate w e.ibuf, bestTable := candTable w e.ibuf } :=
  if_pos h

/-- Candidate w leaves the best so far as it was. -/
theorem analyse_worse {w : Nat} {e : Engine} (h : ¬ (w = 2 ∨ candEstimate w e.ibuf < e.bestEst)) :
    e.analyse w = { e with
      freq := observe w e.ibuf, wl := build (observe w e.ibuf), table := candTable w e.ibuf } :=
  if_neg h

theorem bestUpTo_analyse_first (e : Engine) : (e.analyse 2).BestUpTo 2 := by
  rw [analyse_better (.inl rfl)]
  exact ⟨firstSmallest_two e.ibuf, rfl, rfl⟩

/-- Analysing the next candidate keeps the best one (44_compressor.md R136). -/
theorem bestUpTo_analyse_next {w : Nat} {e : Engine} (h : e.BestUpTo w) : (e.analyse (w + 1)).BestUpTo (w + 1) := by
  obtain ⟨hw, he, ht⟩ := h
  have hnext := hw.next
  have h2 : w + 1 ≠ 2 := by have := hw.ge_two; have := hw.le; omega
  by_cases hlt : candEstimate (w + 1) e.ibuf < candEstimate e.bestW e.ibuf
  · rw [if_pos hlt] at hnext
    rw [analyse_better (.inr (he ▸ hlt))]
    exact ⟨hnext, rfl, rfl⟩
  · rw [if_neg hlt] at hnext
    rw [analyse_worse (by rw [he]; exact not_or.2 ⟨h2, hlt⟩)]
    exact ⟨hnext, he, ht⟩

/-- From C_Analyse(w), whose candidate leaves the best one up to w, the engine goes on to C_Select with the best one of
all; no step changes anything but the engine's internal state and the phase. -/
theorem engineRun_analyse (k : Nat) {s : State} {w : Nat} (hp : s.phase = .cAnalyse w) (hk : w + k = 8)
    (hb : (s.eng.analyse w).BestUpTo w) :
    ∃ e, engineRun (k + 1) s = (s.setEng e).setPhase .cSelect ∧ e.ibuf = s.eng.ibuf ∧ e.BestUpTo 8 := by
  induction k generalizing s w with
  | zero =>
    obtain rfl : w = 8 := hk
    exact ⟨s.eng.analyse 8, engineStep_cAnalyse hp, analyse_ibuf 8 s.eng, hb⟩
  | succ k ih =>
    have hlt : w < Config.candLast := by simp only [Config.candLast]; omega
    have hstep : s.engineStep = (s.setEng (s.eng.analyse w)).setPhase (.cAnalyse (w + 1)) := by
      rw [engineStep_cAnalyse hp, State.analyseStep, if_pos hlt]
    obtain ⟨e, hrun, hbuf, hbest⟩ :=
      ih (s := (s.setEng (s.eng.analyse w)).setPhase (.cAnalyse (w + 1))) rfl (by omega) (bestUpTo_analyse_next hb)
    refine ⟨e, ?_, hbuf.trans (analyse_ibuf w s.eng), hbest⟩
    rw [engineRun, hstep, hrun]
    rfl

theorem Engine.BestUpTo.bestW_eq {e : Engine} (h : e.BestUpTo 8) : e.bestW = winner e.ibuf :=
  h.width.unique (firstSmallest_winner e.ibuf)

theorem Engine.BestUpTo.bestTable_eq {e : Engine} (h : e.BestUpTo 8) :
    e.bestTable = candTable (winner e.ibuf) e.ibuf := by
  rw [h.table, h.bestW_eq]

/-- Settles O37: the seven candidates leave the first smallest one, and O40 says what C_Select does with it. -/
theorem selectionTakesTheFirstSmallest : Obligations.SelectionTakesTheFirstSmallest := by
  intro s hp t
  obtain ⟨e, hrun, hbuf, hbest⟩ := engineRun_analyse 6 hp rfl (bestUpTo_analyse_first s.eng)
  have ht : t = ((s.setEng e).setPhase .cSelect).engineStep := by rw [← hrun, ← engineRun_last]
  obtain ⟨hwidth, hcount, hout, hin, -⟩ := selectionRefusesLongCodes ((s.setEng e).setPhase .cSelect) rfl
  obtain ⟨h2, h8, hleast, hfirst⟩ := firstSmallest_winner s.eng.ibuf
  rw [State.setPhase_eng, State.setEng_eng, hbest.bestW_eq, hbuf] at hwidth
  rw [State.setPhase_eng, State.setEng_eng, hbest.bestTable_eq, length_candTable, hbuf] at hcount
  rw [ht]
  exact ⟨hwidth, hcount, hin, hout, h2, h8, fun u hu2 hu8 => ⟨hleast u hu2 hu8, hfirst u hu2⟩⟩

end Sys2Proof.Machine
end

section
/-! PROOFS. COMPRESS from its start to its end (44_compressor.md R133 to R137): a stage that every engine step keeps
says what has been read, selected and written, so that of the states that are not BUSY it leaves DONE with the
container written, and the two faults. -/

namespace Sys2Proof.Machine

/-- C_Read is over: the input, within INPUT_CAP, has been taken and counted (44_compressor.md R134). -/
def InputTaken (b : List Byte) (s : State) : Prop :=
  b.length ≤ s.inputCap.val ∧ s.inCount = BitVec.ofNat 64 b.length ∧ s.origLen = BitVec.ofNat 64 b.length ∧
    s.input = []

/-- C_Select is over: the registers show the winner, whose codes all fit (44_compressor.md R136, R137). -/
def WinnerSelected (b : List Byte) (s : State) : Prop :=
  InputTaken b s ∧ s.width = BitVec.ofNat 8 (winner b) ∧
    s.dictCount = BitVec.ofNat 64 (candTable (winner b) b).length ∧ tooLong (candTable (winner b) b) = false

/-- The accumulator holding the bits `ds`, what is written and what C_Emit will still write are the container. -/
def WritesContainer (b : List Byte) (ds : List Bool) (s : State) : Prop :=
  s.HoldsBits ds ∧ s.eng.bestTable = candTable (winner b) b ∧
    s.output ++ (s.eng.pendBytes ++
      packBits (ds ++ (s.eng.pendBits ++ s.eng.pendSyms.flatMap (codeBits (candTable (winner b) b))))) = container b

/-- Byte INPUT_CAP + 1 has arrived (44_compressor.md R134). -/
def CapacityPassed (b : List Byte) (s : State) : Prop :=
  s.inputCap.val < b.length ∧ s.cause = .capacityExceeded ∧ s.detail = .noDetail ∧ s.output = [] ∧
    s.inCount = BitVec.ofNat 64 (s.inputCap.val + 1) ∧ s.input = b.drop (s.inputCap.val + 1) ∧ s.origLen = 0 ∧
    s.width = 0 ∧ s.dictCount = 0

/-- How far a COMPRESS of `b` is. While C_Analyse(w) runs, it is what its candidate will leave that is the best. -/
inductive CompressStage (b : List Byte) (s : State) : Prop where
  | reading : s.phase = .cRead → s.eng.ibuf ++ s.input = b → s.origLen = 0 → s.width = 0 → s.dictCount = 0 →
      CompressStage b s
  | analysing (w : Nat) : s.phase = .cAnalyse w → s.eng.ibuf = b → InputTaken b s → w ≤ 8 →
      (s.eng.analyse w).BestUpTo w → CompressStage b s
  | selecting : s.phase = .cSelect → s.eng.ibuf = b → InputTaken b s → s.eng.BestUpTo 8 → CompressStage b s
  | emitting (ds : List Bool) : s.phase = .cEmit → WinnerSelected b s → WritesContainer b ds s → CompressStage b s
  | done : s.state = .done → WinnerSelected b s → s.output = container b → CompressStage b s
  | overflow : s.state = .fault → CapacityPassed b s → CompressStage b s
  | longCode : s.state = .fault → b.length ≤ s.inputCap.val → tooLong (candTable (winner b) b) = true →
      CompressStage b s

theorem compressStage_readStep {b : List Byte} {s : State} (hp : s.phase = .cRead) (hr : ReadSoFar s)
    (hb : s.eng.ibuf ++ s.input = b) (hl : s.origLen = 0) (hw : s.width = 0) (hd : s.dictCount = 0) :
    CompressStage b s.readStep := by
  obtain ⟨hcap, hcnt, hout⟩ := hr
  cases hi : s.input with
  | nil =>
    rw [hi, List.append_nil] at hb
    subst hb
    rw [readStep_end hi]
    exact .analysing 2 rfl rfl ⟨hcap, hcnt, rfl, hi⟩ (by decide) (bestUpTo_analyse_first s.eng)
  | cons x rest =>
    rw [hi] at hb
    by_cases hc : s.eng.ibuf.length = s.inputCap.val
    · rw [readStep_full hi hc]
      have hlen : s.inputCap.val < b.length := by
        rw [← hb, List.length_append, List.length_cons]
        omega
      have hcnt' : s.inCount + 1 = BitVec.ofNat 64 (s.inputCap.val + 1) := by
        rw [hcnt, Engine.n, hc, BitVec.ofNat_add]; rfl
      have hrest : rest = b.drop (s.inputCap.val + 1) := by
        rw [← hb, ← hc, List.drop_length_add_append]; rfl
      exact .overflow rfl ⟨hlen, rfl, rfl, hout, hcnt', hrest, hl, hw, hd⟩
    · rw [readStep_more hi hc]
      exact .reading hp (by simpa using hb) hl hw hd

theorem compressStage_analyseStep {b : List Byte} {s : State} {w : Nat} (hb : s.eng.ibuf = b) (ht : InputTaken b s)
    (h8 : w ≤ 8) (hbest : (s.eng.analyse w).BestUpTo w) : CompressStage b (s.analyseStep w) := by
  have hb' : (s.analyseStep w).eng.ibuf = b := (analyse_ibuf w s.eng).trans hb
  by_cases hlast : w < Config.candLast
  · exact .analysing (w + 1) (if_pos hlast) hb' ht hlast (bestUpTo_analyse_next hbest)
  · have hp : (s.analyseStep w).phase = .cSelect := if_neg hlast
    obtain rfl : w = 8 := le_antisymm h8 (Nat.le_of_not_lt hlast)
    exact .selecting hp hb' ht hbest

theorem compressStage_selectStep {b : List Byte} {s : State} (hb : s.eng.ibuf = b) (ht : InputTaken b s)
    (hbest : s.eng.BestUpTo 8) (hout : s.output = []) : CompressStage b s.selectStep := by
  have hW := hbest.bestW_eq
  have hT := hbest.bestTable_eq
  rw [hb] at hW hT
  by_cases h : tooLong s.eng.bestTable = true
  · rw [selectStep_long h]
    exact .longCode rfl ht.1 (hT ▸ h)
  · rw [selectStep_emit h]
    have hcount : BitVec.ofNat 64 s.eng.bestTable.length = BitVec.ofNat 64 (candTable (winner b) b).length := by rw [hT]
    refine .emitting [] rfl ⟨ht, congrArg (BitVec.ofNat 8) hW, hcount, hT ▸ Bool.eq_false_iff.2 h⟩
      ⟨⟨by decide, rfl, rfl⟩, hT, ?_⟩
    simp [State.startSerialize, hW, hT, hb, hout, Engine.n, container, containerAt, payloadBits]

/-- What pushBit leaves alone: everything but the output, its counter and the accumulator. -/
theorem pushBit_frame (bit : Bool) (s : State) :
    s.pushBit bit = { s with
      output := (s.pushBit bit).output, outCount := (s.pushBit bit).outCount
      eng := { s.eng with acc := (s.pushBit bit).eng.acc, fill := (s.pushBit bit).eng.fill } } := by
  by_cases hf : s.eng.fill = 7
  · rw [pushBit_eight hf]; rfl
  · rw [pushBit_more hf]; rfl

/-- A pushed bit follows the bits held: it is the last of a byte written, or is held with them. -/
theorem pushBit_holdsBits {s : State} {ds : List Bool} (h : s.HoldsBits ds) (bit : Bool) :
    ∃ ds', (s.pushBit bit).HoldsBits ds' ∧
      ∀ q, (s.pushBit bit).output ++ packBits (ds' ++ q) = s.output ++ packBits (ds ++ bit :: q) := by
  obtain ⟨h8, hf, ha⟩ := h
  have hl : (ds ++ [bit]).length = ds.length + 1 := List.length_append
  by_cases h7 : s.eng.fill = 7
  · rw [pushBit_eight h7, ha, shiftIn_val]
    refine ⟨[], ⟨by decide, rfl, rfl⟩, fun q => ?_⟩
    have hq : ds ++ bit :: q = (ds ++ [bit]) ++ q := List.append_cons ds bit q
    rw [hq, packBits_append (x := ds ++ [bit]) (by omega)]
    simp
  · rw [pushBit_more h7, ha, shiftIn_val]
    refine ⟨ds ++ [bit], ⟨by omega, ?_, rfl⟩, fun q => ?_⟩
    · simp [hf]
    · simp

theorem compressStage_emitStep {b : List Byte} {ds : List Bool} {s : State} (hp : s.phase = .cEmit)
    (hs : WinnerSelected b s) (hw : WritesContainer b ds s) : CompressStage b s.emitStep := by
  obtain ⟨hh, ht, ho⟩ := hw
  cases hy : s.eng.pendBytes with
  | cons x bytes =>
    rw [emitStep_byte hy]
    refine .emitting ds hp hs ⟨hh, ht, ?_⟩
    rw [← ho, hy]
    simp
  | nil =>
    cases hb : s.eng.pendBits with
    | cons bit bits =>
      rw [emitStep_bit hy hb, pushBit_frame]
      obtain ⟨ds', hh', ho'⟩ := pushBit_holdsBits (s := s.setEng { s.eng with pendBits := bits }) hh bit
      refine .emitting ds' hp hs ⟨hh', ht, ?_⟩
      rw [hy, hb] at ho
      change _ ++ (s.eng.pendBytes ++ packBits (ds' ++ (bits ++ _))) = _
      rw [hy, ← ho]
      exact ho' _
    | nil =>
      cases hx : s.eng.pendSyms with
      | cons x syms =>
        rw [emitStep_symbol hy hb hx]
        refine .emitting ds hp hs ⟨hh, ht, ?_⟩
        rw [← ho, hb, hx, ← ht]
        rfl
      | nil =>
        rw [emitStep_end hy hb hx, flush_holdsBits hh]
        refine .done rfl hs ?_
        rw [← ho, hy, hb, hx]
        simp [State.packed]

/-- What every engine step of a COMPRESS of `b` keeps. -/
structure CompressRun (b : List Byte) (s : State) : Prop where
  inv : MachineInv s
  counted : s.outCount = BitVec.ofNat 64 s.output.length
  stage : CompressStage b s

theorem CompressRun.stage_engineStep {b : List Byte} {s : State} (h : CompressRun b s) :
    CompressStage b s.engineStep := by
  obtain ⟨hinv, -, hstage⟩ := h
  have hh := hinv.holds
  cases hstage with
  | reading hp hb hl hw hd =>
    rw [hp] at hh
    rw [engineStep_cRead hp]; exact compressStage_readStep hp (holds_cRead.1 hh) hb hl hw hd
  | analysing w hp hb ht h8 hbest => rw [engineStep_cAnalyse hp]; exact compressStage_analyseStep hb ht h8 hbest
  | selecting hp hb ht hbest =>
    rw [hp] at hh
    rw [engineStep_cSelect hp]; exact compressStage_selectStep hb ht hbest (holds_cSelect.1 hh).1.silent
  | emitting ds hp hs hw => rw [engineStep_cEmit hp]; exact compressStage_emitStep hp hs hw
  | done hd hs ho => rw [engineStep_idle (hinv.phase_idle (by simp [hd]))]; exact .done hd hs ho
  | overflow hf hc => rw [engineStep_idle (hinv.phase_idle (by simp [hf]))]; exact .overflow hf hc
  | longCode hf hc hl => rw [engineStep_idle (hinv.phase_idle (by simp [hf]))]; exact .longCode hf hc hl

theorem compressRun_engineRun {b : List Byte} {s : State} (h : CompressRun b s) (k : Nat) :
    CompressRun b (engineRun k s) := by
  induction k generalizing s with
  | zero => exact h
  | succ k ih =>
    exact ih ⟨machineInv_engineStep h.inv, (onePortAccess_engineStep s).counted h.counted, h.stage_engineStep⟩

/-- Where COMPRESS has ended, it has written the container, or one of the two faults says why not. -/
theorem CompressRun.ended {b : List Byte} {s : State} (h : CompressRun b s) (hb : s.state ≠ .busy) :
    (s.state = .done ∧ WinnerSelected b s ∧ s.output = container b) ∨ (s.state = .fault ∧ CapacityPassed b s) ∨
    (s.state = .fault ∧ b.length ≤ s.inputCap.val ∧ tooLong (candTable (winner b) b) = true) := by
  have hidle := h.inv.phase_idle hb
  cases h.stage with
  | reading hp | analysing w hp | selecting hp | emitting ds hp => rw [hidle] at hp; cases hp
  | done hd hs ho => exact .inl ⟨hd, hs, ho⟩
  | overflow hf hc => exact .inr (.inl ⟨hf, hc⟩)
  | longCode hf hc hl => exact .inr (.inr ⟨hf, hc, hl⟩)

theorem engineRun_inputCap (k : Nat) (s : State) : (engineRun k s).inputCap = s.inputCap := by
  induction k generalizing s with
  | zero => rfl
  | succ k ih => rw [engineRun, ih, (engineStep_frame s).2.1]

/-- A CMD write alone on the agenda, and what its command makes of the state with the write taken off. -/
theorem core_run_cmd (k : Nat) {s t : State} {i : Instr} (ha : s.agenda = [cmd (encode i)])
    (hd : decode (encode i) = i) (hx : exec i { s with agenda := [] } = .next t) (ht : t.agenda = []) :
    Sys2Proof.core.run (k + 1) s = .next (engineRun k t) := by
  rw [core_run_next ((stepRunsTheWrittenCommand s (encode i) [] ha).trans (hd.symm ▸ hx)), core_run_engine k ht]

/-- COMPRESS of the attached bytes `b` alone on the agenda: its first step accepts it, and the engine's follow. -/
theorem core_run_compress {s : State} {b : List Byte} (hs : s.state = .idle ∨ s.state = .done)
    (hb : s.attached = some b) (ha : s.agenda = [cmd (encode .compress)]) :
    ∃ u, (∀ k, Sys2Proof.core.run (k + 1) s = .next (engineRun k u)) ∧ CompressRun b u ∧ u.agenda = [] ∧
      u.inputCap = s.inputCap := by
  have hx := compressStarts { s with agenda := [] } b hs hb
  refine ⟨_, fun k => core_run_cmd k ha rfl hx rfl, ⟨?_, rfl, .reading rfl rfl rfl rfl rfl⟩, rfl, rfl⟩
  exact machineInv_busy (by simp) rfl rfl rfl rfl (holds_cRead.2 ⟨Nat.zero_le _, rfl, rfl⟩)

/-- COMPRESS ends (43_codec.md R130), in one of its three ways. -/
theorem exists_compress_ended {s : State} {b : List Byte} (hs : s.state = .idle ∨ s.state = .done)
    (hb : s.attached = some b) (ha : s.agenda = [cmd (encode .compress)]) :
    ∃ k t, Sys2Proof.core.run k s = .next t ∧ CompressRun b t ∧ t.state ≠ .busy ∧ t.agenda = [] ∧
      t.inputCap = s.inputCap := by
  obtain ⟨u, hrun, hu, hua, huc⟩ := core_run_compress hs hb ha
  obtain ⟨k, hk⟩ := everyCommandEnds u hu.inv
  exact ⟨k + 1, engineRun k u, hrun k, compressRun_engineRun hu k, hk, (engineRun_agenda k u).trans hua,
    (engineRun_inputCap k u).trans huc⟩

/-- Settles O39: of the three ways to end, the input is too short for one fault and its codes for the other. -/
theorem compressWritesTheContainer : Obligations.CompressWritesTheContainer := by
  intro s b hs hb hcap hlong ha
  obtain ⟨k, t, hrun, ht, hbusy, hta, htc⟩ := exists_compress_ended hs hb ha
  obtain ⟨hd, ⟨⟨-, hin, hlen, hi⟩, hw, hc, -⟩, ho⟩ | ⟨-, hlt, -⟩ | ⟨-, -, hl⟩ := ht.ended hbusy
  · have h28 := firstSmallest_winner b
    have hsize : t.output.length = candEstimate (winner b) b := by
      rw [ho]
      exact (estimateIsExact (winner b) b (one_le_two.trans h28.ge_two) h28.le).1
    exact ⟨k, t, hrun, hta, hd, ht.inv.phase_idle hbusy, ho, hi, hw, hlen, hc, hin, hsize ▸ ht.counted⟩
  · rw [htc] at hlt; omega
  · rw [hlong] at hl; cases hl

/-- Settles O41: of the three ways to end, the input is too long for the other two. -/
theorem compressStopsAtCapacity : Obligations.CompressStopsAtCapacity := by
  intro s b hs hb hcap ha
  obtain ⟨k, t, hrun, ht, hbusy, hta, htc⟩ := exists_compress_ended hs hb ha
  obtain ⟨-, ⟨⟨hle, -⟩, -⟩, -⟩ | ⟨hf, -, hcause, hdet, ho, hin, hi, hlen, hw, hd⟩ | ⟨-, hle, -⟩ := ht.ended hbusy
  · rw [htc] at hle; omega
  · have hoc : t.outCount = 0 := by rw [ht.counted, ho]; rfl
    rw [htc] at hin hi
    exact ⟨k, t, hrun, hta, hf, hcause, hdet, ht.inv.phase_idle hbusy, ho, hoc, hin, hi, hlen, hw, hd⟩
  · rw [htc] at hle; omega

end Sys2Proof.Machine
end

section
/-! PROOFS. What DECOMPRESS can undo (30_encoding.md R73, 41_frequency.md R91, 42_tree.md R102 to R108): the bytes of a
stream give its bits back, the symbols of an input give its bits back, and a code of the table is matched by its own
entry and by none before its last bit. -/

namespace Sys2Proof.Machine

/-- Eight bits packed in a byte are the bits of that byte. -/
theorem bitstring_ofNat_val {x : List Bool} (hx : x.length = 8) : bitstring (BitVec.ofNat 8 (val x)).toNat 8 = x := by
  have hlt := val_lt x
  rw [hx] at hlt
  rw [BitVec.toNat_ofNat, Nat.mod_eq_of_lt hlt, ← hx, bitstring_val]

/-- The payload's bytes hold its bits, followed by the padding of the last byte (30_encoding.md R73). -/
theorem bitsOf_packBits (p : List Bool) : ∃ pad, pad.length < 8 ∧ bitsOf (packBits p) = p ++ pad := by
  by_cases h8 : p.length < 8
  · by_cases h0 : p = []
    · exact ⟨[], by decide, by rw [h0]; rfl⟩
    · have hx : (p ++ List.replicate (8 - p.length) false).length = 8 := by
        rw [List.length_append, List.length_replicate]
        omega
      have hval : val p * 2 ^ (8 - p.length) = val (p ++ List.replicate (8 - p.length) false) := by
        rw [val_append, val_replicate_false, Nat.add_zero, List.length_replicate]
      have hpos := List.length_pos_iff.2 h0
      refine ⟨List.replicate (8 - p.length) false, by rw [List.length_replicate]; omega, ?_⟩
      rw [packBits_short h0 h8, hval, bitsOf_cons, bitsOf_nil, List.append_nil, bitstring_ofNat_val hx]
  · have hx : (p.take 8).length = 8 := by rw [List.length_take]; omega
    obtain ⟨pad, hpad, hrest⟩ := bitsOf_packBits (p.drop 8)
    refine ⟨pad, hpad, ?_⟩
    calc bitsOf (packBits p)
        = bitsOf (packBits (p.take 8 ++ p.drop 8)) := by rw [List.take_append_drop]
      _ = p.take 8 ++ (p.drop 8 ++ pad) := by rw [packBits_append hx, bitsOf_cons, bitstring_ofNat_val hx, hrest]
      _ = p ++ pad := by rw [← List.append_assoc, List.take_append_drop]
termination_by p.length
decreasing_by rw [List.length_drop]; omega

/-- Values of k bits are told apart by their bits. -/
theorem eq_of_bitstring_eq {v v' k : Nat} (hv : v < 2 ^ k) (hv' : v' < 2 ^ k) (h : bitstring v k = bitstring v' k) :
    v = v' := by
  rw [← val_bitstring hv, h, val_bitstring hv']

theorem bitsOf_injective {as bs : List Byte} (h : bitsOf as = bitsOf bs) : as = bs := by
  induction as generalizing bs with
  | nil =>
    cases bs with
    | nil => rfl
    | cons b bs => cases h
  | cons a as ih =>
    cases bs with
    | nil => cases h
    | cons b bs =>
      rw [bitsOf_cons, bitsOf_cons] at h
      obtain ⟨hb, hrest⟩ := List.append_inj h (by rw [length_bitstring, length_bitstring])
      rw [BitVec.eq_of_toNat_eq (eq_of_bitstring_eq a.isLt b.isLt hb), ih hrest]

/-- The symbols that the rolling accumulator registers, holding the bits `ds`, hold those and the bits to come, followed
by the padding of the last group (41_frequency.md R91). -/
theorem flatMap_bitstring_rollSymbols {w : Nat} (bs ds : List Bool) (hd : ds.length < w) :
    ∃ pad, pad.length < w ∧
      (rollSymbols w (val ds) ds.length bs).flatMap (fun x => bitstring x w) = ds ++ bs ++ pad := by
  induction bs generalizing ds with
  | nil =>
    rw [rollSymbols]
    by_cases h0 : 0 < ds.length
    · have hl : (ds ++ List.replicate (w - ds.length) false).length = w := by
        rw [List.length_append, List.length_replicate]
        omega
      have hval : val ds <<< (w - ds.length) = val (ds ++ List.replicate (w - ds.length) false) := by
        rw [val_append, val_replicate_false, Nat.add_zero, List.length_replicate, Nat.shiftLeft_eq]
      have hbits := bitstring_val (ds ++ List.replicate (w - ds.length) false)
      rw [hl] at hbits
      refine ⟨List.replicate (w - ds.length) false, by rw [List.length_replicate]; omega, ?_⟩
      rw [if_pos h0, hval, List.flatMap_singleton, hbits, List.append_nil]
    · obtain rfl : ds = [] := List.length_eq_zero_iff.1 (Nat.eq_zero_of_not_pos h0)
      exact ⟨[], hd, rfl⟩
  | cons b bs ih =>
    have hl : (ds ++ [b]).length = ds.length + 1 := List.length_append
    rw [rollSymbols, ← val_append_singleton]
    by_cases hfull : ds.length + 1 = w
    · obtain ⟨pad, hpad, hrest⟩ := ih [] (Nat.zero_lt_of_lt hd)
      have hbits := bitstring_val (ds ++ [b])
      rw [hl, hfull] at hbits
      rw [val_nil, List.length_nil, List.nil_append] at hrest
      refine ⟨pad, hpad, ?_⟩
      rw [if_pos hfull, List.flatMap_cons, hbits, hrest, List.append_assoc, List.append_assoc, List.singleton_append,
        List.cons_append]
    · obtain ⟨pad, hpad, hrest⟩ := ih (ds ++ [b]) (by omega)
      rw [hl] at hrest
      exact ⟨pad, hpad, by rw [if_neg hfull, hrest, List.append_cons ds b bs]⟩

/-- The symbols of an input hold its bits (41_frequency.md R90, R91). -/
theorem flatMap_bitstring_symbols {w : Nat} (hw : 1 ≤ w) (b : List Byte) :
    ∃ pad, pad.length < w ∧ (symbols w b).flatMap (fun x => bitstring x w) = bitsOf b ++ pad :=
  flatMap_bitstring_rollSymbols (bitsOf b) [] hw

/-- The symbols with an entry are those of the input. -/
theorem mem_map_sym_candTable {w x : Nat} {b : List Byte} : x ∈ (candTable w b).map Entry.sym ↔ x ∈ symbols w b :=
  (map_sym_deriveDictionary_perm (observe w b)).mem_iff.trans (mem_keys_observe w x b)

/-- A symbol of the input is coded by its entry (43_codec.md R109). -/
theorem exists_entry_codeBits {w x : Nat} {b : List Byte} (hx : x ∈ symbols w b) :
    ∃ e ∈ candTable w b, e.sym = x ∧ codeBits (candTable w b) x = e.bits := by
  obtain ⟨d, hd, rfl⟩ := List.mem_map.1 (mem_map_sym_candTable.2 hx)
  have hsome : (entryOf? (candTable w b) d.sym).isSome = true := List.find?_isSome.2 ⟨d, hd, beq_self_eq_true _⟩
  obtain ⟨e, he⟩ := Option.isSome_iff_exists.1 hsome
  have hsym : (e.sym == d.sym) = true := List.find?_some (p := fun a : Entry => a.sym == d.sym) he
  refine ⟨e, List.mem_of_find?_eq_some he, beq_iff_eq.1 hsym, ?_⟩
  rw [codeBits, he]
  rfl

theorem candTable_bounds {w : Nat} {b : List Byte} {e : Entry} (he : e ∈ candTable w b) :
    1 ≤ e.len ∧ e.code < 2 ^ e.len := by
  obtain ⟨hpos, -, hfits⟩ := (dictionaryIsComplete (observe w b) (Freq.wf_observe w b)).2 e he
  exact ⟨hpos, hfits⟩

theorem candTable_prefixFree {w : Nat} {b : List Byte} {d e : Entry} (hd : d ∈ candTable w b)
    (he : e ∈ candTable w b) (h : d.bits <+: e.bits) : d = e :=
  codesArePrefixFree (observe w b) d e (Freq.wf_observe w b) hd he (.inl h)

theorem length_bits (e : Entry) : e.bits.length = e.len := length_bitstring e.code e.len

/-- Entries with the same key have the same code. -/
theorem bits_eq_of_key {d e : Entry} (hl : d.len = e.len) (hc : d.code = e.code) : d.bits = e.bits := by
  rw [Entry.bits, Entry.bits, hl, hc]

/-- The key of an entry's whole code finds that entry (43_codec.md R121). -/
theorem lookup_candTable {w : Nat} {b : List Byte} {e : Entry} (he : e ∈ candTable w b) :
    lookup? (candTable w b) e.len e.code = some e :=
  lookup_eq_some_of_unique he fun _ hd hl hc => candTable_prefixFree hd he (bits_eq_of_key hl hc ▸ List.prefix_rfl)

/-- The key of an entry's unfinished code finds none: no code begins another (42_tree.md R108). -/
theorem lookup_candTable_unfinished {w v k : Nat} {b : List Byte} {e : Entry} (he : e ∈ candTable w b)
    (hpre : bitstring v k <+: e.bits) (hlt : k < e.len) : lookup? (candTable w b) k v = none := by
  refine lookup_eq_none ?_
  rintro ⟨d, hd, rfl, rfl⟩
  obtain rfl := candTable_prefixFree hd he hpre
  exact lt_irrefl _ hlt

/-- No key stands twice in a table (43_codec.md R121). -/
theorem candTable_keys_nodup (w : Nat) (b : List Byte) : ((candTable w b).map fun e => (e.len, e.code)).Nodup := by
  have hsym := (map_sym_deriveDictionary_perm (observe w b)).nodup_iff.2 (Freq.nodup_keys (Freq.wf_observe w b))
  refine List.Nodup.map_on (fun d hd e he hkey => ?_) (List.Nodup.of_map _ hsym)
  obtain ⟨hl, hc⟩ := Prod.mk.inj hkey
  exact candTable_prefixFree hd he (bits_eq_of_key hl hc ▸ List.prefix_rfl)

/-- An entry of codes that fit passes the check of 43_codec.md R120. -/
theorem candTable_ok {w : Nat} {b : List Byte} {e : Entry} (h : tooLong (candTable w b) = false)
    (he : e ∈ candTable w b) : e.ok := by
  obtain ⟨hpos, hfits⟩ := candTable_bounds he
  refine ⟨hpos, Nat.le_of_not_lt fun hlong => ?_, hfits⟩
  rw [(tooLong_iff _).2 ⟨e, he, hlong⟩] at h
  cases h

theorem candTable_sym_lt {w : Nat} {b : List Byte} {e : Entry} (hw : 1 ≤ w) (he : e ∈ candTable w b) :
    e.sym < 2 ^ w :=
  symbols_lt hw (mem_map_sym_candTable.1 (List.mem_map_of_mem he))

theorem length_candTable_le {w : Nat} (hw : 1 ≤ w) (b : List Byte) : (candTable w b).length ≤ 2 ^ w := by
  have hr : symbols w b ⊆ List.range (2 ^ w) := fun x hx => List.mem_range.2 (symbols_lt hw hx)
  exact (length_candTable w b).trans_le ((length_observe_le hr).trans_eq List.length_range)

end Sys2Proof.Machine
end

section
/-! PROOFS. DECOMPRESS of a container up to its payload (43_codec.md R115 to R121): the header and the dictionary that
COMPRESS writes are read back as they were. -/

namespace Sys2Proof.Machine

/-- A width byte within 2..8 (43_codec.md R115, R116). -/
theorem engineRun_width {s : State} {x : Byte} {rest : List Byte} (hp : s.phase = .dHeader) (hr : s.eng.recv = [])
    (hi : s.input = x :: rest) (h2 : 2 ≤ x.toNat) (h8 : x.toNat ≤ 8) :
    engineRun 1 s = (s.received [x] rest).setWidth x := by
  rw [engineRun, engineRun, engineStep_dHeader hp, readByte_more hi, hr, List.nil_append, headerStep_width,
    if_neg (by omega), State.received, hr]
  rfl

/-- The 16 bytes after it, of a count within DICT_CAP (43_codec.md R117, R118). -/
theorem engineRun_lengthAndCount {s : State} {n count : Nat} {rest : List Byte} (hp : s.phase = .dHeader)
    (hr : s.eng.recv.length = 1) (hi : s.input = be n 8 ++ (be count 8 ++ rest)) (hn : n < 2 ^ 64)
    (hcap : count ≤ 256) :
    engineRun 16 s =
      ((((s.received (be n 8) (be count 8 ++ rest)).setOrigLen n).received (be count 8) rest).setDictCount
        count).startDict := by
  have hln : fromBe (be n 8) = n := fromBe_be (by simpa using hn)
  have hlc : fromBe (be count 8) = count := fromBe_be (by omega)
  have hr9 : (s.eng.recv ++ be n 8).length = 9 := by rw [List.length_append, hr, length_be]
  rw [engineRun_add 8 8, engineRun_origLen hp hr (length_be n 8) hi, hln]
  have h := engineRun_dictCount (s := (s.received (be n 8) (be count 8 ++ rest)).setOrigLen n) hp hr9
    (length_be count 8) rfl
  rwa [hlc, if_neg (Nat.not_lt.2 hcap)] at h

/-- The 17 header bytes that serialize writes give WIDTH, ORIG_LEN and DICT_COUNT back (43_codec.md R110, R115 to
R118). -/
theorem engineRun_headerBytes {s : State} {w n count : Nat} {rest : List Byte} (hp : s.phase = .dHeader)
    (hr : s.eng.recv = []) (hi : s.input = headerBytes w n count ++ rest) (h2 : 2 ≤ w) (h8 : w ≤ 8) (hn : n < 2 ^ 64)
    (hcap : count ≤ 256) :
    ∃ u : State, engineRun 17 s = u.startDict ∧ u.width.toNat = w ∧ u.origLen.toNat = n ∧ u.dictCount.toNat = count ∧
      u.input = rest ∧ u.output = s.output := by
  have hw : (BitVec.ofNat 8 w).toNat = w := by rw [BitVec.toNat_ofNat]; omega
  have hbe : be w 1 = [BitVec.ofNat 8 w] := by simp [be]
  rw [headerBytes, hbe, List.append_assoc, List.append_assoc, List.singleton_append] at hi
  have hr1 : (s.eng.recv ++ [BitVec.ofNat 8 w]).length = 1 := by rw [hr]; rfl
  have h1 := engineRun_width hp hr hi (hw.symm ▸ h2) (hw.symm ▸ h8)
  have h16 := engineRun_lengthAndCount
    (s := (s.received [BitVec.ofNat 8 w] (be n 8 ++ (be count 8 ++ rest))).setWidth (BitVec.ofNat 8 w))
    hp hr1 rfl hn hcap
  rw [engineRun_add 1 16, h1, h16]
  exact ⟨_, rfl, hw, Nat.mod_eq_of_lt hn, Nat.mod_eq_of_lt (by omega), rfl, by simp [State.received]⟩

/-- The registers the header has set are as they were, and nothing is written. -/
def KeepsHeader (s u : State) : Prop :=
  u.width = s.width ∧ u.origLen = s.origLen ∧ u.dictCount = s.dictCount ∧ u.output = s.output

/-- An entry that passes both checks joins DICT (43_codec.md R121). -/
theorem acceptEntry_joins {i : Nat} {e : Entry} {s : State} (h : ¬ badEntry e = true)
    (h2 : ¬ (lookup? s.eng.dict e.len e.code).isSome = true) :
    s.acceptEntry i e =
      if i + 1 < s.dictCount.toNat then
        (s.setEng { s.eng with dict := s.eng.dict ++ [e], lmax := max s.eng.lmax e.len, recv := [] }).setPhase
          (.dDict (i + 1))
      else
        (s.setEng { s.eng with dict := s.eng.dict ++ [e], lmax := max s.eng.lmax e.len, recv := [] }).startPayload :=
  (if_neg h).trans (if_neg h2)

/-- The 20 bytes of a legal entry with a new key: it joins DICT, and the next entry or the payload follows (43_codec.md
R119 to R121). -/
theorem engineRun_entry_accepted {s : State} {i : Nat} {e : Entry} {rest : List Byte} (hp : s.phase = .dDict i)
    (hr : s.eng.recv = []) (hok : e.ok) (hsym : e.sym < 2 ^ 64)
    (hnew : (e.len, e.code) ∉ s.eng.dict.map fun d => (d.len, d.code)) (hi : s.input = entryBytes e ++ rest) :
    ∃ u : State, (engineRun 20 s = if i + 1 < s.dictCount.toNat then u.setPhase (.dDict (i + 1)) else u.startPayload) ∧
      u.eng.dict = s.eng.dict ++ [e] ∧ u.eng.recv = [] ∧ u.input = rest ∧ KeepsHeader s u := by
  obtain ⟨hpos, hlen, hcode⟩ := hok
  have hl := length_entryBytes e
  have h20 := (readsField_entry i).engineRun_full hp hi (Nat.zero_le _) (by rw [hr]; decide) (by rw [hr, hl]; rfl)
  have hcode64 : e.code < 2 ^ 64 := hcode.trans_le (Nat.pow_le_pow_right Nat.two_pos hlen)
  have hlen32 : e.len < 2 ^ 32 := hlen.trans_lt (by decide)
  rw [hl, hr, List.nil_append, dictStep_full hl, entryOfBytes_entryBytes hlen32 hcode64 hsym] at h20
  have hgood : ¬ badEntry e = true := by
    rw [badEntry_iff]
    simp only [Config.maxCodeLen] at hlen
    omega
  have hnone : ¬ (lookup? s.eng.dict e.len e.code).isSome = true := by
    rw [isSome_lookup]
    rintro ⟨d, hd, hdl, hdc⟩
    exact hnew (List.mem_map.2 ⟨d, hd, by rw [hdl, hdc]⟩)
  rw [acceptEntry_joins hgood (by simpa [State.received] using hnone)] at h20
  exact ⟨_, h20, rfl, rfl, rfl, by simp [KeepsHeader, State.received]⟩

/-- The dictionary bytes that serialize writes give DICT back (43_codec.md R111, R119 to R121), by induction on the
entries still to read. -/
theorem engineRun_dictBytes {d : List Entry} (hd : d ≠ []) {s : State} {i : Nat} {rest : List Byte}
    (hp : s.phase = .dDict i) (hr : s.eng.recv = []) (hi : s.input = dictBytes d ++ rest)
    (hn : i + d.length = s.dictCount.toNat) (hok : ∀ e ∈ d, e.ok ∧ e.sym < 2 ^ 64)
    (hkeys : ((s.eng.dict ++ d).map fun e => (e.len, e.code)).Nodup) :
    ∃ k u, engineRun k s = State.startPayload u ∧ u.eng.dict = s.eng.dict ++ d ∧ u.input = rest ∧ KeepsHeader s u := by
  induction d generalizing s i with
  | nil => exact absurd rfl hd
  | cons e d ih =>
    have hi' : s.input = entryBytes e ++ (dictBytes d ++ rest) := by
      rw [hi, ← List.append_assoc]; rfl
    have hnew : (e.len, e.code) ∉ s.eng.dict.map fun d => (d.len, d.code) := by
      rw [List.map_append, List.nodup_append] at hkeys
      exact fun hmem => hkeys.2.2 _ hmem _ (List.mem_cons_self ..) rfl
    obtain ⟨heok, hsym⟩ := hok e (List.mem_cons_self ..)
    obtain ⟨u, hrun, hdict, hrecv, hin, hw, hl, hc, ho⟩ := engineRun_entry_accepted hp hr heok hsym hnew hi'
    rw [List.length_cons] at hn
    cases d with
    | nil =>
      rw [List.length_nil] at hn
      rw [if_neg (by omega)] at hrun
      exact ⟨20, u, hrun, hdict, hin, hw, hl, hc, ho⟩
    | cons e' d =>
      rw [List.length_cons] at hn
      rw [if_pos (by omega)] at hrun
      obtain ⟨k, v, hrun', hdict', hin', hw', hl', hc', ho'⟩ := ih (List.cons_ne_nil _ _)
        (s := u.setPhase (.dDict (i + 1))) rfl hrecv hin
        (by rw [State.setPhase_dictCount, hc, List.length_cons]; omega)
        (fun x hx => hok x (List.mem_cons_of_mem _ hx))
        (by rwa [State.setPhase_eng, hdict, List.append_assoc, List.singleton_append])
      refine ⟨20 + k, v, ?_, ?_, hin', hw'.trans hw, hl'.trans hl, hc'.trans hc, ho'.trans ho⟩
      · rw [engineRun_add, hrun, hrun']
      · rw [hdict', State.setPhase_eng, hdict, List.append_assoc, List.singleton_append]

/-- `u` has read the header and the dictionary of the container of `b` at width w, and nothing of its payload. -/
structure DictionaryRead (w : Nat) (b : List Byte) (u : State) : Prop where
  dict : u.eng.dict = candTable w b
  width : u.width.toNat = w
  length : u.origLen.toNat = b.length
  silent : u.output = []
  rest : u.input = packBits (payloadBits w b)

/-- A container whose codes fit is read up to its payload (43_codec.md R115 to R121). -/
theorem engineRun_containerAt {s : State} {w : Nat} {b : List Byte} (hp : s.phase = .dHeader) (hr : s.eng.recv = [])
    (ho : s.output = []) (hi : s.input = containerAt w b) (h2 : 2 ≤ w) (h8 : w ≤ 8) (hb : b.length < 2 ^ 64)
    (hshort : tooLong (candTable w b) = false) :
    ∃ k u, engineRun k s = State.startPayload u ∧ DictionaryRead w b u := by
  have hcap : (candTable w b).length ≤ 256 :=
    (length_candTable_le (one_le_two.trans h2) b).trans (Nat.pow_le_pow_right Nat.two_pos h8)
  rw [containerAt, List.append_assoc] at hi
  obtain ⟨u, hrun, hw, hl, hc, hin, hout⟩ := engineRun_headerBytes hp hr hi h2 h8 hb hcap
  by_cases hempty : candTable w b = []
  · have hz : u.dictCount.toNat = 0 := by rw [hc, hempty]; rfl
    rw [startDict_none hz] at hrun
    refine ⟨17, _, hrun, hempty.symm, hw, hl, hout.trans ho, ?_⟩
    rw [State.setEng_input, hin, hempty]
    rfl
  · have hz : u.dictCount.toNat ≠ 0 := by rw [hc]; exact List.length_pos_iff.2 hempty |>.ne'
    have hsym {e : Entry} (he : e ∈ candTable w b) : e.sym < 2 ^ 64 :=
      (candTable_sym_lt (one_le_two.trans h2) he).trans_le (Nat.pow_le_pow_right Nat.two_pos (by omega))
    rw [startDict_some hz] at hrun
    obtain ⟨k, v, hrun', hdict, hin', hw', hl', -, ho'⟩ := engineRun_dictBytes hempty
      (s := (u.setEng { u.eng with dict := [], lmax := 0, recv := [] }).setPhase (.dDict 0)) rfl rfl hin
      ((Nat.zero_add _).trans hc.symm) (fun e he => ⟨candTable_ok hshort he, hsym he⟩) (candTable_keys_nodup w b)
    refine ⟨17 + k, v, ?_, hdict, ?_, ?_, ho'.trans (hout.trans ho), hin'⟩
    · rw [engineRun_add, hrun, hrun']
    · rw [hw']; exact hw
    · rw [hl']; exact hl

end Sys2Proof.Machine
end

section
/-! PROOFS. The round trip (44_compressor.md R143): in the payload phase of DECOMPRESS, what is read and what is written
always add up to the symbols that COMPRESS encoded. -/

namespace Sys2Proof.Machine

/-- The bits written so far: those of the output, then those held for the next byte (10_state.md R38). -/
def State.writtenBits (s : State) : List Bool := bitsOf s.output ++ bitstring s.eng.oacc.toNat s.eng.ofill

theorem length_writtenBits (s : State) : s.writtenBits.length = 8 * s.output.length + s.eng.ofill := by
  rw [State.writtenBits, List.length_append, length_bitsOf, length_bitstring]

/-- A bit shifted into an accumulator that holds k < 8 bits follows them. -/
theorem bitstring_shiftIn {acc : Byte} {k : Nat} (bit : Bool) (hk : k < 8) (h : acc.toNat < 2 ^ k) :
    bitstring (shiftIn acc bit).toNat (k + 1) = bitstring acc.toNat k ++ [bit] := by
  have hle : 2 ^ (k + 1) ≤ 2 ^ 8 := Nat.pow_le_pow_right Nat.two_pos hk
  have hb := Bool.toNat_lt bit
  rw [Nat.pow_succ] at hle
  rw [shiftIn_eq, BitVec.toNat_ofNat, Nat.mod_eq_of_lt (by omega), bitstring_double bit h]

/-- What outBit leaves alone: everything but the output, its counter and the accumulator. -/
theorem outBit_frame (bit : Bool) (s : State) :
    (s.outBit bit).2 = { s with
      output := (s.outBit bit).2.output, outCount := (s.outBit bit).2.outCount
      eng := { s.eng with
        oacc := (s.outBit bit).2.eng.oacc, ofill := (s.outBit bit).2.eng.ofill
        emitted := (s.outBit bit).2.eng.emitted } } := by
  by_cases hf : s.eng.ofill = 7
  · rw [outBit_eight hf]; rfl
  · rw [outBit_more hf]; rfl

/-- outBit writes one bit more (40_bitcursor.md R87). -/
theorem writtenBits_outBit {s : State} (bit : Bool) (hf : s.eng.ofill < 8) (ha : s.eng.oacc.toNat < 2 ^ s.eng.ofill) :
    (s.outBit bit).2.writtenBits = s.writtenBits ++ [bit] := by
  have hshift := bitstring_shiftIn bit hf ha
  by_cases h7 : s.eng.ofill = 7
  · rw [h7] at hshift
    rw [outBit_eight h7]
    simp only [State.writtenBits, State.setEng_output, State.emitByte_output, State.setEng_eng, bitsOf_append,
      bitsOf_cons, bitsOf_nil, List.append_nil, bitstring_zero, hshift, h7, List.append_assoc]
  · rw [outBit_more h7]
    simp only [State.writtenBits, State.setEng_output, State.setEng_eng, hshift, List.append_assoc]

/-- The bits of the key so far (10_state.md R37). -/
def State.keyBits (s : State) : List Bool := bitstring s.eng.kval s.eng.klen

/-- DECOMPRESS of the container of `b` at width w, with the codes of the symbols `xs` still to be completed: the key is
an unfinished code of the first of them, the key and the bits not yet taken are their codes, and the bits written, those
of the symbol going out and those of `xs` are the bits of `b`; in both cases up to padding. -/
structure Decodes (w : Nat) (b : List Byte) (xs : List Nat) (s : State) : Prop where
  dict : s.eng.dict = candTable w b
  width : s.width.toNat = w
  length : s.origLen.toNat = b.length
  symbols : xs ⊆ symbols w b
  unfinished : ∀ x ∈ xs.head?, s.eng.klen < (codeBits (candTable w b) x).length
  unread : ∃ pad, pad.length < 8 ∧ s.keyBits ++ s.unreadBits = xs.flatMap (codeBits (candTable w b)) ++ pad
  written : ∃ pad, pad.length < w ∧
    s.writtenBits ++ (s.eng.pendBits ++ xs.flatMap fun x => bitstring x w) = bitsOf b ++ pad

/-- A code has at least one bit, so an empty key is unfinished (42_tree.md R103). -/
theorem codeBits_pos {w x : Nat} {b : List Byte} (hx : x ∈ symbols w b) :
    0 < (codeBits (candTable w b) x).length := by
  obtain ⟨e, he, -, hbits⟩ := exists_entry_codeBits hx
  rw [hbits, length_bits]
  exact (candTable_bounds he).1

theorem codeBits_head_pos {w : Nat} {b : List Byte} {xs : List Nat} (hxs : xs ⊆ symbols w b) :
    ∀ x ∈ xs.head?, 0 < (codeBits (candTable w b) x).length :=
  fun _ hx => codeBits_pos (hxs (List.mem_of_mem_head? hx))

/-- When the payload starts, all the symbols of `b` are still to be decoded (43_codec.md R122). -/
theorem DictionaryRead.decodes {w : Nat} {b : List Byte} {u : State} (h : DictionaryRead w b u) (hw : 1 ≤ w) :
    Decodes w b (symbols w b) u.startPayload where
  dict := h.dict
  width := h.width
  length := h.length
  symbols := List.Subset.refl _
  unfinished := codeBits_head_pos (List.Subset.refl _)
  unread := by
    obtain ⟨pad, hpad, hp⟩ := bitsOf_packBits (payloadBits w b)
    exact ⟨pad, hpad, (congrArg bitsOf h.rest).trans hp⟩
  written := by
    obtain ⟨pad, hpad, hp⟩ := flatMap_bitstring_symbols hw b
    refine ⟨pad, hpad, ?_⟩
    rw [← hp, State.writtenBits, show u.startPayload.output = [] from h.silent]
    rfl

/-- What is still to be decoded depends on these fields alone. -/
theorem Decodes.of_eq {w : Nat} {b : List Byte} {xs : List Nat} {s t : State} (h : Decodes w b xs s)
    (hd : t.eng.dict = s.eng.dict) (hw : t.width = s.width) (hl : t.origLen = s.origLen)
    (hk : ∀ x ∈ xs.head?, t.eng.klen < (codeBits (candTable w b) x).length)
    (hr : t.keyBits ++ t.unreadBits = s.keyBits ++ s.unreadBits)
    (ho : t.writtenBits ++ t.eng.pendBits = s.writtenBits ++ s.eng.pendBits) : Decodes w b xs t where
  dict := hd.trans h.dict
  width := hw ▸ h.width
  length := hl ▸ h.length
  symbols := h.symbols
  unfinished := hk
  unread := hr ▸ h.unread
  written := by
    obtain ⟨pad, hpad, hbits⟩ := h.written
    refine ⟨pad, hpad, ?_⟩
    rw [← List.append_assoc, ho, List.append_assoc, hbits]

theorem Decodes.finish {w : Nat} {b : List Byte} {xs : List Nat} {s : State} (h : Decodes w b xs s) :
    Decodes w b xs s.finish :=
  h.of_eq rfl rfl rfl h.unfinished rfl rfl

/-- A bit of the symbol going out becomes a written one (43_codec.md R127). -/
theorem Decodes.outBit {w : Nat} {b : List Byte} {xs : List Nat} {s : State} {bit : Bool} {bits : List Bool}
    (h : Decodes w b xs s) (hb : s.eng.pendBits = bit :: bits) (hf : s.eng.ofill < 8)
    (ha : s.eng.oacc.toNat < 2 ^ s.eng.ofill) :
    Decodes w b xs ((s.setEng { s.eng with pendBits := bits }).outBit bit).2 := by
  have hbits := writtenBits_outBit (s := s.setEng { s.eng with pendBits := bits }) bit hf ha
  have hadd : ((s.setEng { s.eng with pendBits := bits }).outBit bit).2.writtenBits ++ bits =
      s.writtenBits ++ s.eng.pendBits := by
    rw [hbits, hb, List.append_assoc]
    rfl
  rw [outBit_frame]
  exact h.of_eq rfl rfl rfl h.unfinished rfl hadd

/-- A code that the key and the bits not yet taken begin with, the key being unfinished, goes on with the next bit. -/
theorem exists_rest_of_code {key rest code tail : List Bool} {bit : Bool} (h : key ++ bit :: rest = code ++ tail)
    (hlt : key.length < code.length) : ∃ c, code = key ++ bit :: c ∧ rest = c ++ tail := by
  obtain ⟨m, rfl, hm⟩ | ⟨m, rfl, -⟩ := List.append_eq_append_iff.1 h
  · cases m with
    | nil => simp at hlt
    | cons x c =>
      obtain ⟨rfl, rfl⟩ := List.cons.inj hm
      exact ⟨c, rfl, rfl⟩
  · rw [List.length_append] at hlt
    omega

theorem DictSoFar.len_le_lmax {s : State} (h : DictSoFar s) {e : Entry} (he : e ∈ s.eng.dict) : e.len ≤ s.eng.lmax := by
  rw [h.lmax]
  exact List.le_max_of_le' 0 (List.mem_map_of_mem he) le_rfl

/-- The key of the whole code finds its entry, as the key's value is the code's. -/
theorem lookup_candTable_of_bits {w v k : Nat} {b : List Byte} {e : Entry} (he : e ∈ candTable w b) (hv : v < 2 ^ k)
    (h : e.bits = bitstring v k) : lookup? (candTable w b) k v = some e := by
  have hk : e.len = k := by rw [← length_bits, h, length_bitstring]
  subst hk
  rw [← eq_of_bitstring_eq (candTable_bounds he).2 hv h]
  exact lookup_candTable he

/-- The key with the next bit is still the beginning of the first symbol's code, and the bits left go on with the rest
`c` of it. -/
theorem Decodes.exists_code {w x : Nat} {b : List Byte} {xs : List Nat} {s : State} {bit : Bool} {rest : List Bool}
    (h : Decodes w b (x :: xs) s) (hkval : s.eng.kval < 2 ^ s.eng.klen) (hu : s.unreadBits = bit :: rest) :
    ∃ e ∈ candTable w b, e.sym = x ∧ codeBits (candTable w b) x = e.bits ∧ ∃ c,
      e.bits = bitstring (2 * s.eng.kval + bit.toNat) (s.eng.klen + 1) ++ c ∧
      ∃ pad, pad.length < 8 ∧ rest = c ++ (xs.flatMap (codeBits (candTable w b)) ++ pad) := by
  obtain ⟨e, he, hsym, hcode⟩ := exists_entry_codeBits (h.symbols (List.mem_cons_self ..))
  obtain ⟨pad, hpad, hr⟩ := h.unread
  have hlt : s.keyBits.length < e.bits.length := by
    rw [State.keyBits, length_bitstring, ← hcode]
    exact h.unfinished x rfl
  rw [hu, List.flatMap_cons, hcode, List.append_assoc] at hr
  obtain ⟨c, hbits, hrest⟩ := exists_rest_of_code hr hlt
  refine ⟨e, he, hsym, hcode, c, ?_, pad, hpad, hrest⟩
  rw [bitstring_double bit hkval, hbits, List.append_assoc]
  rfl

/-- A bit that completes the code of the first symbol hands that symbol over (43_codec.md R125, R127). -/
theorem Decodes.of_complete_code {w : Nat} {b : List Byte} {xs : List Nat} {s u : State} {bit : Bool} {e : Entry}
    (h : Decodes w b (e.sym :: xs) s) (hkval : s.eng.kval < 2 ^ s.eng.klen) (hb : s.eng.pendBits = [])
    (hn : s.nextBit = some (bit, u)) (he : e ∈ candTable w b)
    (hbits : e.bits = bitstring (2 * s.eng.kval + bit.toNat) (s.eng.klen + 1))
    (hrest : ∃ pad, pad.length < 8 ∧ u.unreadBits = xs.flatMap (codeBits (candTable w b)) ++ pad) :
    Decodes w b xs (u.matchKey bit) ∧ (u.matchKey bit).phase = u.phase := by
  obtain ⟨-, hw, hl, -, hd, -, hklen, hkv⟩ := nextBit_keeps hn
  have hwritten : u.writtenBits = s.writtenBits := by rw [nextBit_frame hn]; rfl
  have hlt : 2 * s.eng.kval + bit.toNat < 2 ^ (s.eng.klen + 1) := by
    have := Bool.toNat_lt bit
    rw [Nat.pow_succ]
    omega
  have hit : lookup? u.eng.dict (u.eng.klen + 1) (2 * u.eng.kval + bit.toNat) = some e := by
    rw [hklen, hkv, hd, h.dict]
    exact lookup_candTable_of_bits he hlt hbits
  obtain ⟨-, hxs⟩ := List.cons_subset.1 h.symbols
  obtain ⟨pad, hpad, ho⟩ := h.written
  rw [matchKey_hit hit, hw, h.width]
  refine ⟨⟨hd.trans h.dict, hw ▸ h.width, hl ▸ h.length, hxs, codeBits_head_pos hxs, hrest, pad, hpad, ?_⟩, rfl⟩
  rw [← ho, ← hwritten, hb]
  rfl

/-- A bit that leaves the code of the first symbol unfinished makes the key longer: it is no code, and shorter than Lmax
(43_codec.md R126). -/
theorem Decodes.of_unfinished_code {w : Nat} {b : List Byte} {xs : List Nat} {s u : State} {bit y : Bool} {e : Entry}
    {c : List Bool} (h : Decodes w b (e.sym :: xs) s) (hh : Phase.holds .dPayload s)
    (hn : s.nextBit = some (bit, u)) (hu : s.unreadBits = bit :: u.unreadBits) (he : e ∈ candTable w b)
    (hcode : codeBits (candTable w b) e.sym = e.bits)
    (hbits : e.bits = bitstring (2 * s.eng.kval + bit.toNat) (s.eng.klen + 1) ++ y :: c) :
    Decodes w b (e.sym :: xs) (u.matchKey bit) ∧ (u.matchKey bit).phase = u.phase := by
  obtain ⟨hsofar, -, -, -, hkval, -⟩ := holds_dPayload.1 hh
  obtain ⟨-, hw, hl, -, hd, hlmax, hklen, hkv⟩ := nextBit_keeps hn
  have hadd : u.writtenBits ++ u.eng.pendBits = s.writtenBits ++ s.eng.pendBits := by rw [nextBit_frame hn]; rfl
  have hlt : s.eng.klen + 1 < e.len := by
    rw [← length_bits, hbits, List.length_append, length_bitstring, List.length_cons]
    omega
  have hmiss : lookup? u.eng.dict (u.eng.klen + 1) (2 * u.eng.kval + bit.toNat) = none := by
    rw [hklen, hkv, hd, h.dict]
    exact lookup_candTable_unfinished he ⟨y :: c, hbits.symm⟩ hlt
  have hmax : ¬ u.eng.lmax ≤ u.eng.klen + 1 := by
    have := hsofar.len_le_lmax (h.dict.symm ▸ he)
    rw [hlmax, hklen]
    omega
  have hkey : bitstring (2 * u.eng.kval + bit.toNat) (u.eng.klen + 1) = s.keyBits ++ [bit] := by
    rw [hklen, hkv]
    exact bitstring_double bit hkval
  rw [matchKey_longer hmiss hmax]
  refine ⟨h.of_eq hd hw hl (fun x hx => ?_) ?_ hadd, rfl⟩
  · obtain rfl := Option.some.inj hx
    show u.eng.klen + 1 < _
    rwa [hcode, length_bits, hklen]
  · rw [State.keyBits, State.setEng_eng, hkey, hu, List.append_assoc]
    rfl

/-- The next payload bit completes the code of the first symbol or leaves it unfinished (43_codec.md R124 to R127). -/
theorem Decodes.matchKey {w x : Nat} {b : List Byte} {xs : List Nat} {s u : State} {bit : Bool}
    (h : Decodes w b (x :: xs) s) (hh : Phase.holds .dPayload s) (hb : s.eng.pendBits = [])
    (hn : s.nextBit = some (bit, u)) (hu : s.unreadBits = bit :: u.unreadBits) :
    ∃ ys, Decodes w b ys (u.matchKey bit) ∧ (u.matchKey bit).phase = u.phase := by
  obtain ⟨-, -, -, -, hkval, -⟩ := holds_dPayload.1 hh
  obtain ⟨e, he, rfl, hcode, c, hbits, hrest⟩ := h.exists_code hkval hu
  cases c with
  | nil => exact ⟨xs, h.of_complete_code hkval hb hn he (hbits.trans (List.append_nil _)) hrest⟩
  | cons y c => exact ⟨e.sym :: xs, h.of_unfinished_code hh hn hu he hcode hbits⟩

/-- While the command runs, fewer than 8 L bits are written; so with no symbol going out, one is left. -/
theorem Decodes.exists_symbol {w : Nat} {b : List Byte} {xs : List Nat} {s : State} (h : Decodes w b xs s)
    (hb : s.eng.pendBits = []) (hf : s.eng.ofill < 8) (hlt : s.output.length < b.length) : ∃ x ys, xs = x :: ys := by
  cases xs with
  | cons x ys => exact ⟨x, ys, rfl⟩
  | nil =>
    obtain ⟨pad, -, ho⟩ := h.written
    have hlen := congrArg List.length ho
    rw [hb] at hlen
    simp only [List.length_append, length_writtenBits, List.flatMap_nil, List.length_nil, length_bitsOf] at hlen
    omega

/-- A bit not yet taken is there while a code is unfinished. -/
theorem Decodes.exists_bit {w x : Nat} {b : List Byte} {xs : List Nat} {s : State} (h : Decodes w b (x :: xs) s) :
    ∃ bit bits, s.unreadBits = bit :: bits := by
  cases hu : s.unreadBits with
  | cons bit bits => exact ⟨bit, bits, rfl⟩
  | nil =>
    obtain ⟨pad, -, hr⟩ := h.unread
    have hshort := h.unfinished x rfl
    have hlen := congrArg List.length hr
    rw [hu, List.append_nil, State.keyBits, length_bitstring, List.flatMap_cons, List.length_append,
      List.length_append] at hlen
    omega

/-- Every step of the payload phase keeps the sum, and goes on or ends DONE: neither TruncPayload nor UnknownCode comes
(43_codec.md R122 to R128). -/
theorem Decodes.payloadStep {w : Nat} {b : List Byte} {xs : List Nat} {s : State} (h : Decodes w b xs s)
    (hh : Phase.holds .dPayload s) (hp : s.phase = .dPayload) :
    ∃ ys, Decodes w b ys s.payloadStep ∧ (s.payloadStep.phase = .dPayload ∨ s.payloadStep.state = .done) := by
  obtain ⟨-, -, -, -, -, hf, ha, hout, hlt⟩ := holds_dPayload.1 hh
  by_cases hz : s.origLen.toNat = 0
  · rw [payloadStep_zero hz]
    exact ⟨xs, h.finish, .inr rfl⟩
  cases hb : s.eng.pendBits with
  | cons bit bits =>
    rw [payloadStep_emit hz hb]
    have hnext := h.outBit hb hf ha
    split
    · exact ⟨xs, hnext.finish, .inr rfl⟩
    · exact ⟨xs, hnext, .inl ((outBit_phase_work bit _).1.trans hp)⟩
  | nil =>
    obtain ⟨x, ys, rfl⟩ := h.exists_symbol hb hf (by rw [hout, ← h.length]; exact hlt hz)
    obtain ⟨bit, bits, hu⟩ := h.exists_bit
    obtain ⟨u, hn, rfl⟩ := nextBit_unreadBits hu
    obtain ⟨zs, hnext, hphase⟩ := h.matchKey hh hb hn hu
    rw [payloadStep_next hz hb hn]
    exact ⟨zs, hnext, .inl (hphase.trans ((nextBit_keeps hn).1.trans hp))⟩

/-- The engine left alone in the payload phase keeps the sum until it ends DONE. -/
theorem Decodes.engineRun {w : Nat} {b : List Byte} {xs : List Nat} {s : State} (h : Decodes w b xs s)
    (hinv : MachineInv s) (hp : s.phase = .dPayload ∨ s.state = .done) (k : Nat) :
    ∃ ys, Decodes w b ys (engineRun k s) ∧ ((engineRun k s).phase = .dPayload ∨ (engineRun k s).state = .done) := by
  induction k generalizing s xs with
  | zero => exact ⟨xs, h, hp⟩
  | succ k ih =>
    obtain hp | hd := hp
    · obtain ⟨ys, hnext, hp'⟩ := h.payloadStep (hp ▸ hinv.holds) hp
      rw [← engineStep_dPayload hp] at hnext hp'
      exact ih hnext (machineInv_engineStep hinv) hp'
    · have hidle := hinv.phase_idle (by simp [hd])
      rw [engineRun_idle hidle]
      exact ⟨xs, h, .inr hd⟩

/-- Once all L bytes are written, the output is `b`, since no symbol can be left, and the input is at its end, since no
whole byte of padding is. -/
theorem Decodes.complete {w : Nat} {b : List Byte} {xs : List Nat} {s : State} (h : Decodes w b xs s)
    (hlen : s.output.length = b.length) : s.output = b ∧ s.input = [] := by
  obtain ⟨wpad, hwpad, ho⟩ := h.written
  obtain ⟨rpad, hrpad, hr⟩ := h.unread
  have hwlen := congrArg List.length ho
  have hxs : xs = [] := by
    cases xs with
    | nil => rfl
    | cons x xs =>
      simp only [List.length_append, length_writtenBits, List.flatMap_cons, length_bitstring, length_bitsOf] at hwlen
      omega
  subst hxs
  constructor
  · rw [State.writtenBits, List.append_assoc] at ho
    exact bitsOf_injective (List.append_inj_left ho (by rw [length_bitsOf, length_bitsOf, hlen]))
  · have hrlen := congrArg List.length hr
    simp only [List.length_append, length_unreadBits, List.flatMap_nil, List.nil_append] at hrlen
    exact List.length_eq_zero_iff.1 (by omega)

/-- DECOMPRESS of the attached bytes `c` alone on the agenda: its first step accepts it, and the engine's follow. -/
theorem core_run_decompress {s : State} {c : List Byte} (hs : s.state = .idle ∨ s.state = .done)
    (hc : s.attached = some c) (ha : s.agenda = [cmd (encode .decompress)]) :
    ∃ u, (∀ k, Sys2Proof.core.run (k + 1) s = .next (engineRun k u)) ∧ DecompressRun u ∧ u.agenda = [] ∧
      u.phase = .dHeader ∧ u.eng.recv = [] ∧ u.output = [] ∧ u.input = c := by
  have hx := decompressStarts { s with agenda := [] } c hs hc
  have hstart := decompressRun_start (s := { s with agenda := [] }) hs hx
  exact ⟨_, fun k => core_run_cmd k ha rfl hx rfl, hstart, rfl, rfl, rfl, rfl, rfl⟩

/-- DECOMPRESS of a container whose codes fit ends DONE with its bytes written and every byte of it read. -/
theorem exists_decompress_done {s : State} {w : Nat} {b : List Byte} (hs : s.state = .idle ∨ s.state = .done)
    (hc : s.attached = some (containerAt w b)) (ha : s.agenda = [cmd (encode .decompress)]) (h2 : 2 ≤ w) (h8 : w ≤ 8)
    (hb : b.length < 2 ^ 64) (hshort : tooLong (candTable w b) = false) :
    ∃ j v, Sys2Proof.core.run j s = .next v ∧ v.agenda = [] ∧ v.state = .done ∧ v.output = b ∧ v.input = [] := by
  obtain ⟨u, hrun, hu, hua, hp, hr, ho, hi⟩ := core_run_decompress hs hc ha
  obtain ⟨k, p, hk, hread⟩ := engineRun_containerAt hp hr ho hi h2 h8 hb hshort
  have hp := decompressRun_engineRun hu k
  rw [hk] at hp
  obtain ⟨j, hj⟩ := everyCommandEnds p.startPayload hp.inv
  have hend := decompressRun_engineRun hp j
  obtain ⟨ys, hys, hrunning | hdone⟩ := (hread.decodes (one_le_two.trans h2)).engineRun hp.inv (.inl rfl) j
  · rw [hend.inv.phase_idle hj] at hrunning
    cases hrunning
  · obtain ⟨hout, hin⟩ := hys.complete ((hend.declared hdone).trans hys.length)
    refine ⟨k + j + 1, engineRun j p.startPayload, ?_, ?_, hdone, hout, hin⟩
    · rw [hrun, engineRun_add, hk]
    · rw [engineRun_agenda, ← hk, engineRun_agenda, hua]

/-- Settles O57: a COMPRESS that ended DONE has written the container of the winning width, whose codes fit, and
DECOMPRESS of that container gives its bytes back. -/
theorem decompressUndoesCompress : Obligations.DecompressUndoesCompress := by
  intro s t u b k hs hb ha hrun hd hta hus hub hua
  obtain ⟨s', hs', hcomp, -, -⟩ := core_run_compress hs hb ha
  cases k with
  | zero =>
    obtain rfl := Host.Outcome.next.inj hrun
    rw [ha] at hta
    cases hta
  | succ k =>
    obtain rfl := Host.Outcome.next.inj ((hs' k).symm.trans hrun)
    have hend := (compressRun_engineRun hcomp k).ended (by simp [hd])
    obtain ⟨-, ⟨⟨hcap, -⟩, -, -, hshort⟩, ho⟩ | ⟨hf, -⟩ | ⟨hf, -⟩ := hend
    · have h28 := firstSmallest_winner b
      have hlen : b.length < 2 ^ 64 := hcap.trans_lt ((Fin.is_lt _).trans (by decide))
      rw [ho] at hub
      exact exists_decompress_done hus hub hua h28.ge_two h28.le hlen hshort
    · rw [hd] at hf; cases hf
    · rw [hd] at hf; cases hf

end Sys2Proof.Machine
end

section
/-! PROOFS. Faults (60_exceptions.md R149 to R151, R165): what fault entry writes, what ends a FAULT, that a faulted
COMPRESS has written nothing, and that an input of no bytes is no fault. -/

namespace Sys2Proof.Machine

/-- Settles O22. -/
theorem faultEntry : Obligations.FaultEntry := fun _ _ _ => rfl

/-- Settles O23: in FAULT the engine waits in Idle, and of the host's events only a reset and, by O13, a CLEAR touch
STATUS. -/
theorem faultIsSticky : Obligations.FaultIsSticky := by
  intro s t hinv hf hstep
  have hp := hinv.phase_idle (by simp [hf])
  have hkept (u : State) : SameStatus s u → u.state = .fault ∧ u.cause = s.cause ∧ u.detail = s.detail :=
    fun ⟨hs, hc, hd⟩ => ⟨hs.trans hf, hc, hd⟩
  obtain ⟨-, rfl⟩ | ⟨e, rest, ha, u, rfl, he⟩ := step_cases hstep
  · rw [engineStep_idle hp]; exact .inl (hkept _ (sameStatus_refl s))
  obtain ⟨rfl, -⟩ | ⟨bs, -, -, rfl⟩ | ⟨v, rfl, hx⟩ | ⟨_, _, -, rfl⟩ | ⟨_, r, -, -, rfl⟩ | ⟨-, rfl⟩ | ⟨-, rfl⟩ := he
  · exact .inr (.inl ⟨rest, ha⟩)
  · exact .inl (hkept _ ⟨rfl, rfl, rfl⟩)
  · by_cases hv : decode v = .clear
    · exact .inr (.inr ⟨v, rest, ha, hv⟩)
    · rw [(ignoredCommandsChangeNothing { s with agenda := rest } (decode v)).2 hf hv] at hx
      obtain rfl := Host.Outcome.next.inj hx
      exact .inl (hkept _ ⟨rfl, rfl, rfl⟩)
  · exact .inl (hkept _ ⟨rfl, rfl, rfl⟩)
  · rw [readReg_frame]; exact .inl (hkept _ ⟨rfl, rfl, rfl⟩)
  · rw [hostWait_frame]; exact .inl (hkept _ ⟨rfl, rfl, rfl⟩)
  · rw [engineStep_idle (s := { s with agenda := rest }) hp]; exact .inl (hkept _ ⟨rfl, rfl, rfl⟩)

/-- An accepted COMPRESS runs over the stream it takes, whether the host has attached one or not. -/
theorem compressRun_start {s t : State} (hs : s.state = .idle ∨ s.state = .done) (hx : exec .compress s = .next t) :
    CompressRun s.nextStream t := by
  rw [exec_compress_accepted hs] at hx
  obtain rfl := Host.Outcome.next.inj hx
  refine ⟨machineInv_busy (by simp) rfl rfl rfl rfl (holds_cRead.2 ⟨Nat.zero_le _, rfl, rfl⟩), rfl, ?_⟩
  exact .reading rfl rfl rfl rfl rfl

/-- Where a step of C_Emit has ended COMPRESS in FAULT, nothing is written: the winner's codes fit, so that the fault
is the capacity's. -/
theorem CompressRun.emit_faults_silently {b : List Byte} {s : State} (h : CompressRun b s) (hw : WinnerSelected b s)
    (hf : s.engineStep.state = .fault) : s.engineStep.output = [] := by
  have hend := (compressRun_engineRun h 1).ended (s := s.engineStep) (by simp [hf])
  obtain ⟨-, -, -, hshort⟩ := hw
  obtain ⟨hd, -⟩ | ⟨-, -, -, -, ho, -⟩ | ⟨-, -, hlong⟩ := hend
  · rw [hf] at hd; cases hd
  · exact ho
  · rw [hshort] at hlong; cases hlong

/-- The phases of COMPRESS in which a fault is raised write nothing (44_compressor.md R134, R137). -/
theorem CompressRun.engineStep_faults_silently {b : List Byte} {s : State} (h : CompressRun b s)
    (hs : s.state = .fault → s.output = []) (hf : s.engineStep.state = .fault) : s.engineStep.output = [] := by
  obtain ⟨hreading, hchoosing, -⟩ := compressReadsBeforeItWrites s
  have hh := h.inv.holds
  have hwaits : s.state ≠ .busy → s.engineStep.output = [] := by
    intro hb
    rw [engineStep_idle (h.inv.phase_idle hb)] at hf ⊢
    exact hs hf
  cases h.stage with
  | reading hp =>
    rw [hp] at hh
    exact (hreading hp).trans (holds_cRead.1 hh).silent
  | analysing w hp =>
    rw [hp] at hh
    exact (hchoosing (.inl ⟨w, hp⟩)).1.trans (holds_cAnalyse.1 hh).1.silent
  | selecting hp =>
    rw [hp] at hh
    exact (hchoosing (.inr hp)).1.trans (holds_cSelect.1 hh).1.silent
  | emitting ds hp hw => exact h.emit_faults_silently hw hf
  | done hd => exact hwaits (by simp [hd])
  | overflow hd => exact hwaits (by simp [hd])
  | longCode hd => exact hwaits (by simp [hd])

theorem CompressRun.engineRun_faults_silently {b : List Byte} {s : State} (h : CompressRun b s)
    (hs : s.state = .fault → s.output = []) (k : Nat) (hf : (engineRun k s).state = .fault) :
    (engineRun k s).output = [] := by
  induction k generalizing s with
  | zero => exact hs hf
  | succ k ih => exact ih (compressRun_engineRun h 1) (h.engineStep_faults_silently hs) hf

/-- Settles O24, by induction on the engine's steps; OUT_COUNT counts what is written. -/
theorem faultedCompressWroteNothing : Obligations.FaultedCompressWroteNothing := by
  rintro s t u k hs hx rfl hf
  have ht := compressRun_start hs hx
  have hsilent : t.output = [] := by
    rw [exec_compress_accepted hs] at hx
    exact Host.Outcome.next.inj hx ▸ rfl
  have ho := ht.engineRun_faults_silently (fun _ => hsilent) k hf
  exact ⟨ho, by rw [(compressRun_engineRun ht k).counted, ho]; rfl⟩

/-- An input of no bytes has no symbols, so no codes, at any width. -/
theorem candTable_nil (w : Nat) : candTable w [] = [] := rfl

/-- Its container is the header alone at any width (43_codec.md R110). -/
theorem containerAt_nil (w : Nat) : containerAt w [] = headerBytes w 0 0 := by
  have hbits : payloadBits w [] = [] := rfl
  rw [containerAt, candTable_nil, hbits]
  rfl

theorem candEstimate_nil (w : Nat) : candEstimate w [] = 17 := by
  have hfreq : observe w [] = [] := rfl
  rw [candEstimate, candTable_nil, hfreq]
  rfl

/-- All candidates being equal, the first one wins (44_compressor.md R136). -/
theorem winner_nil : winner [] = 2 := by
  simp [winner, candEstimate_nil]

/-- The header of an empty input at width 2 (30_encoding.md R79). -/
theorem headerBytes_two : headerBytes 2 0 0 = 2 :: List.replicate 16 0 := by decide

/-- Settles O58: the 17 bytes are the container of no bytes, which O39 has COMPRESS write and which DECOMPRESS
undoes. -/
theorem emptyInputRoundTrips : Obligations.EmptyInputRoundTrips := by
  refine fun s hs => ⟨fun hb ha => ?_, fun hb ha => ?_⟩
  · obtain ⟨k, t, hrun, hta, hd, -, ho, -⟩ :=
      compressWritesTheContainer s [] hs hb (Nat.zero_le _) (by rw [candTable_nil]; rfl) ha
    rw [container, winner_nil, containerAt_nil, headerBytes_two] at ho
    exact ⟨k, t, hrun, hta, hd, ho⟩
  · rw [← headerBytes_two, ← containerAt_nil] at hb
    obtain ⟨k, t, hrun, hta, hd, ho, -⟩ :=
      exists_decompress_done hs hb ha (le_refl 2) (by decide) (by decide) (by rw [candTable_nil]; rfl)
    exact ⟨k, t, hrun, hta, hd, ho⟩

end Sys2Proof.Machine
end

section
/-! PROOFS. The reset input and the attaching of a stream (70_reset_and_hazards.md R166, R167, R170). -/

namespace Sys2Proof.Machine

/-- STATUS shows no trace of the state before the reset (70_reset_and_hazards.md R166). -/
theorem State.resetInput_status (s : State) : s.resetInput.status = 0 :=
  (status_of_not_busy (s := s.resetInput) (by simp)).trans (by simp [statusWord, RunState.code, Cause.code, Detail.code])

/-- After a reset the engine waits: an aborted command goes no further (70_reset_and_hazards.md R167). -/
theorem engineStep_resetInput (s : State) : s.resetInput.engineStep = s.resetInput :=
  engineStep_idle (State.resetInput_phase s)

/-- Settles O21: the step is the reset input, which writes its values whatever the state was. -/
theorem resetInputAborts : Obligations.ResetInputAborts := fun s rest h =>
  ⟨State.resetInput { s with agenda := rest }, step_event h, rfl, rfl, rfl, rfl, rfl, rfl, rfl, rfl, rfl, rfl, rfl, rfl,
    rfl, State.resetInput_status _, rfl, engineStep_resetInput _⟩

/-- Settles O60, by the guard of the attach. -/
theorem streamsAreAttachedBetweenCommands : Obligations.StreamsAreAttachedBetweenCommands := by
  intro s b rest h
  rw [step_event h]
  exact ⟨fun hfree => if_neg hfree, fun hbusy => if_pos hbusy⟩

end Sys2Proof.Machine
end

section
/-! PROOFS. How host and engine interleave (10_state.md R13, 70_reset_and_hazards.md R178; assumption log 6). -/

namespace Sys2Proof.Machine

/-- With no event left only the engine moves (70_reset_and_hazards.md R178). -/
theorem step_agenda_nil {s : State} (h : s.agenda = []) : step s = .next s.engineStep := by
  unfold step; rw [h]

/-- Settles O6, by the two cases of the agenda: none left, or an event to take, here the engine's. -/
theorem stepRunsTheEngine : Obligations.StepRunsTheEngine := fun _ =>
  ⟨step_agenda_nil, fun _ h => step_event h⟩

end Sys2Proof.Machine
end
